-- ==== Sys2Proof/Word.lean ====
section
/-! DEFINITION. The bit-vector types of the block (00_scope.md R6, R8). -/

namespace Sys2Proof

/-- A register value, a command word, a system-memory address (R6: registers and ADDR_W are 32 bits). -/
abbrev Word := BitVec 32

/-- A byte of system memory; also a symbol (R12: a byte value 0 to 255). -/
abbrev Byte := BitVec 8

/-- A node index of the NODE table (R44: LEFT, RIGHT, ROOT and DEC_NODE are 9 bits). -/
abbrev NodeIx := BitVec 9

/-- A byte offset in the register window (92_eei_decisions.md D2: a 15-bit byte offset). -/
abbrev Offset := BitVec 15

end Sys2Proof
end

