-- ==== Sys2Proof/Syntax.lean ====
section
/-! DEFINITION. The commands, one constructor per row of spec/opcode_table.json. A command has no immediate and no
register field (30_encoding.md R110): every operand is a block register named by the command's rule (R115). -/

namespace Sys2Proof

/-- The six commands of the opcode map (30_encoding.md R111). -/
inductive Instr where
  /-- FREQ_CLEAR (R140). -/
  | freqClear
  /-- FREQ_COUNT (R142). -/
  | freqCount
  /-- BUILD_TREE (R150). -/
  | buildTree
  /-- GEN_CODES (R170). -/
  | genCodes
  /-- ENCODE (R185). -/
  | encode
  /-- DECODE (R200). -/
  | decode
  deriving DecidableEq, Repr

end Sys2Proof
end

