-- ==== Sys2Proof/WellFormed.lean ====
section
/-! DEFINITION. Which command words and which commands are well formed. A command carries no operand (R110), so a
term of `Instr` can break no rule; what can be ill formed is the word the host writes to CMD, by its reserved field
(R113) or by its opcode (R114). -/

namespace Sys2Proof

/-- R110: the OPCODE field of a command word. -/
def opcodeField (w : Word) : Byte := w.extractLsb' 0 8

/-- R110: the RSVD field of a command word. -/
def reservedField (w : Word) : BitVec 24 := w.extractLsb' 8 24

/-- R113: the reserved field must be zero. -/
def reservedIsZero (w : Word) : Bool := reservedField w == 0#24

/-- R111, R114: opcodes 0x01 to 0x06 are defined; 0x00 and 0x07 to 0xFF are not. -/
def opcodeIsDefined (w : Word) : Bool := decide (1 ≤ (opcodeField w).toNat) && decide ((opcodeField w).toNat ≤ 6)

/-- R111: a word selects a command exactly when both checks pass. -/
def wordWellFormed (w : Word) : Bool := reservedIsZero w && opcodeIsDefined w

/-- A command as syntax: no operand, so nothing to check (R110, R117). -/
def Instr.wellFormed : Instr → Bool
  | .freqClear => true
  | .freqCount => true
  | .buildTree => true
  | .genCodes => true
  | .encode => true
  | .decode => true

end Sys2Proof
end

