-- ==== Sys2Proof/Decode.lean ====
section
/-! DEFINITION. Decoding a command word, total on any bytes and rejecting by name, and after it the encoder
(30_encoding.md R110 to R117). -/

namespace Sys2Proof

/-- Why bytes are no command. The block itself reports all but `truncated` as ILLEGAL_CMD (R113, R114). -/
inductive DecodeError where
  /-- Fewer than the four bytes of a command word (R117). -/
  | truncated
  /-- A bit of [31:8] is set (R113). -/
  | reservedBitsSet
  /-- OPCODE 0x00 or 0x07 to 0xFF (R114). -/
  | opcodeUndefined
  deriving DecidableEq, Repr

/-- R73: byte `k` of a register word holds bits [8k + 7 : 8k], little-endian. -/
def wordByte (w : Word) (k : Nat) : Byte := w.extractLsb' (8 * k) 8

/-- R73: the four bytes of a word, the lowest address first. -/
def wordBytes (w : Word) : List Byte := [wordByte w 0, wordByte w 1, wordByte w 2, wordByte w 3]

/-- R73, R96: the word whose bytes are `b0` (lowest address) to `b3`. -/
def wordOfBytes (b0 b1 b2 b3 : Byte) : Word := b3 ++ b2 ++ b1 ++ b0

/-- The opcode map (R111): what an OPCODE value selects, reserved bits aside. -/
def opcodeSelects (op : Byte) : Option Instr :=
  if op = 0x01#8 then some .freqClear
  else if op = 0x02#8 then some .freqCount
  else if op = 0x03#8 then some .buildTree
  else if op = 0x04#8 then some .genCodes
  else if op = 0x05#8 then some .encode
  else if op = 0x06#8 then some .decode
  else none

/-- Decoding one command word (R111, R113, R114). No state changes how a word decodes (R117). -/
def decodeWord (w : Word) : Except DecodeError Instr :=
  if reservedIsZero w then
    match opcodeSelects (opcodeField w) with
    | some i => .ok i
    | none => .error .opcodeUndefined
  else .error .reservedBitsSet

/-- Decoding bytes as the host port lays a word out (R73): the command and the bytes after it. -/
def decode : List Byte → Except DecodeError (Instr × List Byte)
  | b0 :: b1 :: b2 :: b3 :: rest =>
    match decodeWord (wordOfBytes b0 b1 b2 b3) with
    | .ok i => .ok (i, rest)
    | .error e => .error e
  | _ => .error .truncated

/-- The command word of an instruction (R111). -/
def encodeWord : Instr → Word
  | .freqClear => 0x00000001#32
  | .freqCount => 0x00000002#32
  | .buildTree => 0x00000003#32
  | .genCodes => 0x00000004#32
  | .encode => 0x00000005#32
  | .decode => 0x00000006#32

/-- Every command is exactly one 32-bit word (R117). -/
def encode (i : Instr) : List Word := [encodeWord i]

/-- The bytes of an instruction as the host port lays them out (R73). -/
def encodeBytes (i : Instr) : List Byte := (encode i).flatMap wordBytes

/-- The word whose low `nbits` bits are those of `w`, every bit above them 0. -/
def tableWord (nbits w : Nat) : Word := BitVec.ofNat 32 (w % 2 ^ nbits)

/-- What the decoder reads from an instruction whose bits are `w`, numbered as spec/opcode_table.json numbers them. -/
def decodeTableWord (nbits w : Nat) : Option Instr :=
  match decode (wordBytes (tableWord nbits w)) with
  | .ok (i, _) => some i
  | .error _ => none

end Sys2Proof
end

