-- ==== Sys2Proof/Config.lean ====
section
/-! DEFINITION. What is fixed for the machine (00_scope.md R6) and the free values the spec leaves open
(93_implementation_defined.md part 2). The open parameters of R7 are plain data in `State.platform`, so that
every platform is some state. -/

namespace Sys2Proof.Config

/-- COUNT_MAX = 2^31 - 1 (R6). -/
def countMax : Word := 0x7FFFFFFF#32

/-- NSYM (R6). -/
abbrev nsym : Nat := 256

/-- NODE_MAX (R6): slots 0 to 510. -/
abbrev nodeMax : Nat := 511

/-- NIL (R6): the child index stored in a leaf. -/
def nil : NodeIx := 511#9

/-- MAX_CODE_LEN (R6). -/
def maxCodeLen : Nat := 255

/-- 2^32: the end of system memory (R70, R82), and one more than the largest TOTAL_BITS (R6). -/
def spaceEnd : Nat := 4294967296

/-- The size of the register window in bytes (R6: 32 KiB). -/
def windowSize : Nat := 32768

/-- The value of ID (R23). -/
def idValue : Word := 0x48554601#32

/-- The value of draw number `n` of a busy-any read (R51, R271: any 32-bit value, a fresh draw each).
A free value: it has no body, so nothing can be proved of it (log 4). -/
opaque freeWord : (draw : Nat) → Word

/-- The byte that draw number `n` leaves at address `a`: after an abort (R262: a free draw per byte), or where the host
gave up a write that was still in its caches (20_memory.md R91; log 10).
A free value: it has no body, so nothing can be proved of it (log 4). -/
opaque freeByte : (draw : Nat) → (addr : Nat) → Byte

end Sys2Proof.Config
end

