-- ==== Sys2Proof/Machine/State.lean ====
section
/-! DEFINITION. What the machine holds, as plain data, and its state after reset (10_state.md; INVENTORY.md lists
every field with its rule). -/

namespace Sys2Proof.Machine

/-- The error codes and their names (60_exceptions.md R226). The set is closed: codes 0x10 to 0xFF do not exist (R227). -/
inductive ErrCode where
  | none
  | illegalCmd
  | emptyInput
  | freqRange
  | treeEmpty
  | noTree
  | noCodes
  | noCode
  | bitsOverflow
  | dstOverflow
  | bodyShort
  | endMidCode
  | badCode
  | addrRange
  | regionOverlap
  | busError
  deriving DecidableEq, Repr

/-- What `raise Error(CODE, info)` carries (00_scope.md R9; 40_dispatch.md R130). -/
structure Err where
  code : ErrCode
  info : Word
  deriving DecidableEq, Repr

/-- The engine state (10_state.md R51): STATUS.BUSY = 1 exactly in `busy`, which holds the accepted word. -/
inductive Engine where
  | idle
  | busy (w : Word)
  deriving DecidableEq, Repr

/-- A slot of the NODE table (10_state.md R44). -/
structure Node where
  leaf : Bool
  sym : Byte
  freq : BitVec 40
  left : NodeIx
  right : NodeIx
  deriving DecidableEq, Repr

/-- An entry of the CODE table (10_state.md R48). -/
structure Code where
  len : Byte
  val : BitVec 256
  deriving DecidableEq, Repr

/-- The kind of an access: of the host to the window (20_memory.md R71), of the block to system memory (R7). -/
inductive AccessKind where
  | read
  | write
  deriving DecidableEq, Repr

/-- A range of addresses: `size` bytes from `base` on. -/
structure Region where
  base : Nat
  size : Nat
  deriving DecidableEq, Repr

/-- A range where the platform completes no access of one kind (busOk false: 00_scope.md R7, 20_memory.md R83). -/
structure BusHole where
  kind : AccessKind
  region : Region
  deriving DecidableEq, Repr

/-- The open parameters of 00_scope.md R7 that a step can depend on. No step changes them. Every predicate busOk on
the 2^32 addresses is some list of holes (log 6). -/
structure Platform where
  /-- BLOCK_BASE: the base address of the register window in the host's address space. -/
  blockBase : Nat
  /-- Where busOk is false. -/
  holes : List BusHole
  /-- DMA_COHERENT. -/
  dmaCoherent : Bool
  deriving DecidableEq, Repr

/-- System memory (20_memory.md R78): the listed bytes, in the canonical form `Memory.wf` of Machine/Ops.lean. -/
abbrev Memory := List Host.Cell

/-- One access of the block's master port to system memory (20_memory.md R79, R80): always one byte. -/
structure BusAccess where
  kind : AccessKind
  addr : Nat
  deriving DecidableEq, Repr

/-- A host transaction on the register window (20_memory.md R71): `width` in bits; `data` is what a write carries. -/
structure RegAccess where
  offset : Offset
  kind : AccessKind
  width : Nat
  data : Word
  deriving DecidableEq, Repr

/-- The inputs of the machine: what the host does, and when the engine has its turn (40_dispatch.md R135; log 1). -/
inductive Event where
  /-- A register transaction at the block's own port (R71). -/
  | reg (a : RegAccess)
  /-- The same transaction by host address: the platform maps the window at BLOCK_BASE (R22, R265). -/
  | hostBus (addr : Nat) (kind : AccessKind) (width : Nat) (data : Word)
  /-- The host writes a byte of system memory (R78, R87). -/
  | memWrite (addr : Word) (v : Byte)
  /-- The host reads a byte of system memory (R78, R87). -/
  | memRead (addr : Word)
  /-- The host writes its cached copies of a range back (R91, R274). -/
  | writeBack (r : Region)
  /-- The host discards its cached copies of a range (R91). -/
  | discard (r : Region)
  /-- Hard reset: rst_n goes low and rises (R260; log 11). -/
  | hardReset
  /-- The engine's turn: a running command completes here (R128), before the inputs after it. -/
  | engineTurn
  deriving DecidableEq, Repr

/-- The answer to one host access (R135: the observation of a host program). -/
inductive Reply where
  /-- The word a register read returns. -/
  | data (w : Word)
  /-- The byte a memory read returns. -/
  | memData (b : Byte)
  /-- A write is finished (accepted, dropped or ignored alike: the port does not tell). -/
  | done
  /-- The error response of the register port: the host's fault outcome of R72. -/
  | fault
  deriving DecidableEq, Repr

/-- The state of the block (10_state.md R20). -/
structure Block where
  /-- R51. -/
  engine : Engine
  /-- R25: what a read of CMD returns. -/
  lastCmd : Word
  /-- STATUS.DONE (R26). -/
  done : Bool
  /-- STATUS.ERR (R26). -/
  err : Bool
  /-- STATUS.OVR (R26). -/
  ovr : Bool
  /-- STATUS.TREE_VALID (R26, R54). -/
  treeValid : Bool
  /-- STATUS.CODE_VALID (R26, R54). -/
  codeValid : Bool
  /-- IRQ_EN.DONE_IE (R27). -/
  doneIe : Bool
  /-- IRQ_EN.ERR_IE (R27). -/
  errIe : Bool
  /-- ERR_CODE (R28). -/
  errCode : ErrCode
  /-- ERR_INFO (R29). -/
  errInfo : Word
  /-- SRC_ADDR (R30). -/
  srcAddr : Word
  /-- SRC_LEN (R31). -/
  srcLen : Word
  /-- DST_ADDR (R32). -/
  dstAddr : Word
  /-- DST_CAP (R33). -/
  dstCap : Word
  /-- TOTAL_BITS (R34). -/
  totalBits : Word
  /-- OUT_LEN (R35). -/
  outLen : Word
  /-- NLEAF as stored; a read is gated (R36). -/
  nleaf : BitVec 9
  /-- NNODE as stored; a read is gated (R37). -/
  nnode : BitVec 9
  /-- ROOT as stored; a read is gated (R38). -/
  root : NodeIx
  /-- MAX_LEN as stored; a read is gated (R39). -/
  maxLen : Byte
  /-- DEC_NODE (R42). -/
  decNode : NodeIx
  /-- DEC_BITS (R43). -/
  decBits : Word
  /-- The FREQ table (R40). -/
  freq : Vector Word 256
  /-- The NODE table (R44). -/
  node : Vector Node 511
  /-- The CODE table (R48). -/
  code : Vector Code 256
  deriving DecidableEq, Repr

/-- The machine: the block, what it shares with the host, the platform it stands on, and the model's own fields. -/
structure State where
  /-- The block (R20). -/
  block : Block
  /-- System memory, shared with the host (R78). -/
  mem : Memory
  /-- The open parameters of R7. -/
  platform : Platform
  /-- Addresses the host wrote and has not written back; kept only when DMA_COHERENT is false (R91; log 10). -/
  hostDirty : List Nat
  /-- Addresses of dirty host copies that a started ENCODE or DECODE may write under; kept only when DMA_COHERENT is false
  (R91; log 10). -/
  hostOvertaken : List Nat
  /-- Destination regions whose host copies are not discarded yet; kept only when DMA_COHERENT is false (R91; log 10). -/
  hostStale : List Region
  /-- The model's own: the inputs still to come, the next one first (log 1). -/
  pending : List Event
  /-- The model's own: what the host was answered, the newest first (R135; log 16). -/
  replies : List Reply
  /-- The model's own: the block's accesses to system memory, the newest first (R79, R81; log 16). -/
  bus : List BusAccess
  /-- The model's own: how many free values were drawn (log 4). -/
  draws : Nat
  deriving DecidableEq, Repr

/-- Why the machine stops with a fault. -/
inductive Fault where
  /-- Raised by `step` for a host access whose address is not in the register window (R71: offsets 0x0000 to 0x7FFF
  from BLOCK_BASE), so is no access to this block. Safe: the machine stops where the platform goes on (log 19). -/
  | outsideWindow
  deriving DecidableEq, Repr

/-- Why the machine gives a host program no meaning. -/
inductive Refusal where
  /-- Raised by `exec` for a command that has no meaning yet. Safe. -/
  | notModelled (mnemonic : String)
  /-- Raised by `step` when the host touches a region of a running command (20_memory.md R87 item 3: "outside the spec";
  R273: "a model refuses it"). Safe (log 9). -/
  | hostTouchesRegionWhileBusy
  /-- Raised by `step` when DMA_COHERENT is false and the host starts a command with bytes of its source region still only
  in the host's caches (R91, R274). Safe (log 10). -/
  | regionNotWrittenBack
  /-- Raised by `step` when DMA_COHERENT is false and the host reads a destination byte whose cached copy it has not
  discarded since the command (R91). Safe (log 10). -/
  | staleCopyRead
  /-- Raised by `step` when DMA_COHERENT is false and the host writes back a destination byte from a copy older than the
  command, where R91 asks it to discard that copy. Safe (log 10). -/
  | staleCopyWrittenBack
  deriving DecidableEq, Repr

/-- The block after reset (R22, R57, R260). The contents of NODE and CODE are the model's choice (log 3). -/
def Block.reset : Block where
  engine := .idle
  lastCmd := 0
  done := false
  err := false
  ovr := false
  treeValid := false
  codeValid := false
  doneIe := false
  errIe := false
  errCode := .none
  errInfo := 0
  srcAddr := 0
  srcLen := 0
  dstAddr := 0
  dstCap := 0
  totalBits := 0
  outLen := 0
  nleaf := 0
  nnode := 0
  root := 0
  maxLen := 0
  decNode := 0
  decBits := 0
  freq := Vector.replicate 256 0
  node := Vector.replicate 511 ⟨false, 0, 0, 0, 0⟩
  code := Vector.replicate 256 ⟨0, 0⟩

/-- The machine right after reset (R260), on a platform that completes every access and is coherent (log 6, log 7),
with nothing in memory (log 2) and no input yet (log 1). -/
def State.reset : State where
  block := Block.reset
  mem := []
  platform := { blockBase := 0, holes := [], dmaCoherent := true }
  hostDirty := []
  hostOvertaken := []
  hostStale := []
  pending := []
  replies := []
  bus := []
  draws := 0

end Sys2Proof.Machine
end

