-- ==== Sys2Proof/Machine/Ops.lean ====
section
/-! DEFINITION. The shared operations: system memory and the bus, the tables, how a command ends (with success, or
with an error: the block's exception), the region checks and the destination write. -/

namespace Sys2Proof.Machine

/-! ### System memory (20_memory.md R78) -/

/-- What an address that is not listed reads as (log 2: DESIGN CHOICE, unsafe). -/
def Memory.unlisted : Byte := 0x00#8

/-- The byte at an address. -/
def Memory.read : Memory → Nat → Byte
  | [], _ => Memory.unlisted
  | (b, w) :: t, a => if a = b then w else Memory.read t a

/-- Puts a byte at the head of a memory whose addresses are all greater, keeping the canonical form. -/
def Memory.putHead (a : Nat) (v : Byte) (m : Memory) : Memory :=
  if v = Memory.unlisted then m else (a, v) :: m

/-- Writes the byte at an address; writing what an unlisted address reads as removes the entry. -/
def Memory.write : Memory → Nat → Byte → Memory
  | [], a, v => Memory.putHead a v []
  | (b, w) :: t, a, v =>
    if a < b then Memory.putHead a v ((b, w) :: t)
    else if a = b then Memory.putHead a v t
    else (b, w) :: Memory.write t a v

/-- Every listed address is greater than `a`. -/
def Memory.above (a : Nat) (m : Memory) : Bool := m.all fun c => decide (a < c.1)

/-- The canonical form: addresses strictly rising, no entry equal to what an unlisted address reads as. -/
def Memory.wf : Memory → Bool
  | [] => true
  | (b, w) :: t => decide (w ≠ Memory.unlisted) && Memory.above b t && Memory.wf t

/-- R70: every listed address is one of the 2^32 of system memory. -/
def Memory.inSpace (m : Memory) : Bool := m.all fun c => decide (c.1 < Config.spaceEnd)

/-- `n` bytes of memory from an address on. -/
def Memory.bytes (m : Memory) (a n : Nat) : List Byte := (List.range n).map fun k => m.read (a + k)

/-- Writes `draw a` at the addresses `a` of the `size` bytes from `base` on that `may` admits, lowest first. -/
def Memory.drawRange (base : Nat) (may : Nat → Bool) (draw : Nat → Byte) : (size : Nat) → Memory → Memory
  | 0, m => m
  | k + 1, m =>
    let m' := Memory.drawRange base may draw k m
    if may (base + k) then m'.write (base + k) (draw (base + k)) else m'

/-- Writes `draw a` at each listed address of system memory. -/
def Memory.drawList (draw : Nat → Byte) : List Nat → Memory → Memory
  | [], m => m
  | a :: rest, m =>
    if a < Config.spaceEnd then (Memory.drawList draw rest m).write a (draw a) else Memory.drawList draw rest m

/-! ### The platform's answer to an access (00_scope.md R7) -/

/-- Is the address in the range? -/
def Region.has (r : Region) (a : Nat) : Bool := decide (r.base ≤ a) && decide (a < r.base + r.size)

/-- busOk(addr, kind): whether the platform completes the block's access (R7). -/
def Platform.busOk (p : Platform) (a : Nat) (k : AccessKind) : Bool :=
  !p.holes.any fun h => decide (h.kind = k) && h.region.has a

/-! ### Results of a piece of a command (00_scope.md R9) -/

/-- How a piece of a command's rule ends: with a value, or by `raise Error(...)`. Either way with the state reached,
since state written before a raise stays written (R9, R130). -/
inductive Res (α : Type) where
  | ok (a : α) (s : State)
  | raised (e : Err) (s : State)

/-- Goes on with what follows unless the piece raised. -/
def Res.andThen {α β : Type} (r : Res α) (f : α → State → Res β) : Res β :=
  match r with
  | .ok a s => f a s
  | .raised e s => .raised e s

/-- The state a piece of a command reached, however it ended. -/
def Res.state {α : Type} : Res α → State
  | .ok _ s => s
  | .raised _ s => s

/-- A check that raises or goes on, and changes nothing. -/
def require (check : Option Err) (s : State) : Res Unit :=
  match check with
  | some e => .raised e s
  | none => .ok () s

/-! ### The tables (10_state.md R40, R44, R48) -/

/-- The entry of a byte value in a 256-entry table. -/
def entry {α : Type} (t : Vector α 256) (s : Byte) : α := t[s.toNat]'s.isLt

/-- A 256-entry table with one entry replaced. -/
def setEntry {α : Type} (t : Vector α 256) (s : Byte) (v : α) : Vector α 256 := t.set s.toNat v s.isLt

/-- The byte values in ascending order: `for s in 0 .. 255` (R9). -/
def allBytes : List Byte := (List.range 256).map (BitVec.ofNat 8)

/-- The node of an index that is no slot (slot 511 reads 0: R45). -/
def Node.zero : Node := ⟨false, 0, 0, 0, 0⟩

/-- NODE[i] (R9, R44). Index 511 is no slot (R6); a tree has no child there (R47; log 14). -/
def nodeAt (t : Vector Node 511) (i : NodeIx) : Node := if h : i.toNat < 511 then t[i.toNat] else Node.zero

/-- A table of zero counts. -/
def zeroFreq : Vector Word 256 := Vector.replicate 256 0#32

/-! ### How a command ends (40_dispatch.md R129, R130; 60_exceptions.md R242) -/

/-- Successful completion (R129). -/
def completeOk (s : State) : State :=
  { s with block := { s.block with engine := .idle, done := true } }

/-- Error completion, the block's taking of an exception (R130, R242): the code and its context are recorded, BUSY
falls, ERR rises, the engine goes Idle; nothing else is saved, no mode changes, no vector is fetched. -/
def raise (e : Err) (s : State) : State :=
  { s with block := { s.block with errCode := e.code, errInfo := e.info, engine := .idle, err := true } }

/-- The end of a command whose rule ended so (R127, R129, R130). -/
def finish (r : Res Unit) : State :=
  match r with
  | .ok _ s => completeOk s
  | .raised e s => raise e s

/-! ### Named updates -/

/-- x[OUT_LEN] <- v. -/
def setOutLen (v : Word) (s : State) : State := { s with block := { s.block with outLen := v } }

/-- x[TOTAL_BITS] <- v. -/
def setTotalBits (v : Word) (s : State) : State := { s with block := { s.block with totalBits := v } }

/-- x[DEC_NODE] <- v. -/
def setDecNode (v : NodeIx) (s : State) : State := { s with block := { s.block with decNode := v } }

/-- x[DEC_BITS] <- v. -/
def setDecBits (v : Word) (s : State) : State := { s with block := { s.block with decBits := v } }

/-- FREQ <- t. -/
def setFreq (t : Vector Word 256) (s : State) : State := { s with block := { s.block with freq := t } }

/-- The listed bytes of memory become free values, from one draw (log 4); no address, no draw. -/
def drawBytes (l : List Nat) (s : State) : State :=
  match l with
  | [] => s
  | _ :: _ => { s with mem := s.mem.drawList (Config.freeByte s.draws) l, draws := s.draws + 1 }

/-! ### System-memory accesses by the block (20_memory.md R79 to R83) -/

/-- Notes an access at the master port (log 16). -/
def noteBus (k : AccessKind) (a : Nat) (s : State) : State := { s with bus := ⟨k, a⟩ :: s.bus }

/-- `MemRead(addr, 1)` (R9, R83). -/
def busRead (a : Nat) (s : State) : Res Byte :=
  if s.platform.busOk a .read then .ok (s.mem.read a) (noteBus .read a s)
  else .raised ⟨.busError, BitVec.ofNat 32 a⟩ (noteBus .read a s)

/-- `MemWrite(addr, 1, v)` (R9, R83): a failed access writes nothing. -/
def busWrite (a : Nat) (v : Byte) (s : State) : Res Unit :=
  if s.platform.busOk a .write then .ok () { noteBus .write a s with mem := s.mem.write a v }
  else .raised ⟨.busError, BitVec.ofNat 32 a⟩ (noteBus .write a s)

/-- The destination write helper `put` (40_dispatch.md R133). -/
def put (b : Byte) (s : State) : Res Unit :=
  if s.block.outLen = s.block.dstCap then .raised ⟨.dstOverflow, s.block.dstCap⟩ s
  else (busWrite (s.block.dstAddr.toNat + s.block.outLen.toNat) b s).andThen fun _ t =>
    .ok () (setOutLen (t.block.outLen + 1) t)

/-! ### Region checks (40_dispatch.md R132); the sums are exact -/

/-- `check_src()`. -/
def checkSrc (b : Block) : Option Err :=
  if b.srcAddr.toNat + b.srcLen.toNat > Config.spaceEnd then some ⟨.addrRange, 0⟩ else none

/-- `check_dst()`. -/
def checkDst (b : Block) : Option Err :=
  if b.dstAddr.toNat + b.dstCap.toNat > Config.spaceEnd then some ⟨.addrRange, 1⟩ else none

/-- `check_overlap()`, called only after both range checks passed. -/
def checkOverlap (b : Block) : Option Err :=
  if b.srcLen ≠ 0 ∧ b.dstCap ≠ 0 ∧ b.srcAddr.toNat < b.dstAddr.toNat + b.dstCap.toNat ∧
      b.dstAddr.toNat < b.srcAddr.toNat + b.srcLen.toNat then some ⟨.regionOverlap, 0⟩ else none

/-- `check_src(); check_dst(); check_overlap()`: the first that holds (R240). -/
def checkRegions (b : Block) : Option Err :=
  match checkSrc b with
  | some e => some e
  | none =>
    match checkDst b with
    | some e => some e
    | none => checkOverlap b

end Sys2Proof.Machine
end

