-- ==== Sys2Proof/Machine/Operands.lean ====
section
/-! DEFINITION. The operands: the regions and sizes a command takes from its registers (30_encoding.md R115, R116), and
the places of the register window with the value each holds (10_state.md R22 to R58). -/

namespace Sys2Proof.Machine

/-! ### Regions and sizes -/

/-- The source region [SRC_ADDR, SRC_ADDR + SRC_LEN) (20_memory.md R78). -/
def srcRegion (b : Block) : Region := ⟨b.srcAddr.toNat, b.srcLen.toNat⟩

/-- The destination region [DST_ADDR, DST_ADDR + DST_CAP) (20_memory.md R78). -/
def dstRegion (b : Block) : Region := ⟨b.dstAddr.toNat, b.dstCap.toNat⟩

/-- ceil(x/8), computed without overflow (00_scope.md R8). -/
def ceilDiv8 (n : Nat) : Nat := (n + 7) / 8

/-- x[ROOT] as a command or a host reads it: 0 when TREE_VALID = 0 (10_state.md R38; 45_decoder.md R201). -/
def rootReg (b : Block) : NodeIx := if b.treeValid then b.root else 0

/-! ### The register map (10_state.md R22) -/

/-- A place of the register window. -/
inductive Loc where
  | id
  | ctrl
  | cmd
  | status
  | irqEn
  | errCode
  | errInfo
  | srcAddr
  | srcLen
  | dstAddr
  | dstCap
  | totalBits
  | outLen
  | nleaf
  | nnode
  | root
  | maxLen
  | decNode
  | decBits
  /-- FREQ[s] (R41). -/
  | freq (s : Byte)
  /-- Word `k` of slot `i` of the NODE window (R45); slot 511 is no node. -/
  | node (i : NodeIx) (k : BitVec 2)
  /-- Word `k` of entry `s` of the CODE window (R49). -/
  | code (s : Byte) (k : BitVec 4)
  /-- Reserved space (R58). -/
  | reserved
  deriving DecidableEq, Repr

/-- The registers below 0x400 (R22). -/
def locateLow (n : Nat) : Loc :=
  match n with
  | 0x000 => .id
  | 0x004 => .ctrl
  | 0x008 => .cmd
  | 0x00C => .status
  | 0x010 => .irqEn
  | 0x014 => .errCode
  | 0x018 => .errInfo
  | 0x020 => .srcAddr
  | 0x024 => .srcLen
  | 0x028 => .dstAddr
  | 0x02C => .dstCap
  | 0x030 => .totalBits
  | 0x034 => .outLen
  | 0x040 => .nleaf
  | 0x044 => .nnode
  | 0x048 => .root
  | 0x04C => .maxLen
  | 0x050 => .decNode
  | 0x054 => .decBits
  | _ => .reserved

/-- The place an aligned offset names (R22): FREQ[s] at 0x400 + 4 s, NODE[i] at 0x2000 + 16 i, CODE[s] at
0x4000 + 64 s. -/
def locate (o : Offset) : Loc :=
  if o.toNat < 0x400 then locateLow o.toNat
  else if o.toNat < 0x800 then .freq (o.extractLsb' 2 8)
  else if o.toNat < 0x2000 then .reserved
  else if o.toNat < 0x4000 then .node (o.extractLsb' 4 9) (o.extractLsb' 2 2)
  else .code (o.extractLsb' 6 8) (o.extractLsb' 2 4)

/-- A legal access is 32 bits wide at an offset that is a multiple of 4 (20_memory.md R71, R72). -/
def RegAccess.legal (a : RegAccess) : Bool := a.width == 32 && a.offset.toNat % 4 == 0

/-- The places that read an unspecified value while BUSY ("busy-any": R22, R51; 70_reset_and_hazards.md R271). NODE slot
511 is not among them, since R45 says it always reads 0; words 9 to 15 of a CODE entry are (log 25: DEDUCED). -/
def Loc.busyAny : Loc → Bool
  | .totalBits | .outLen | .nleaf | .nnode | .root | .maxLen | .decNode | .decBits => true
  | .freq _ | .code _ _ => true
  | .node i _ => decide (i ≠ 511#9)
  | .id | .ctrl | .cmd | .status | .irqEn | .errCode | .errInfo => false
  | .srcAddr | .srcLen | .dstAddr | .dstCap | .reserved => false

/-- The places whose write is dropped while BUSY and sets OVR ("busy-drop": R22; 70_reset_and_hazards.md R270). -/
def Loc.busyDrop : Loc → Bool
  | .cmd | .srcAddr | .srcLen | .dstAddr | .dstCap | .totalBits | .freq _ => true
  | .id | .ctrl | .status | .irqEn | .errCode | .errInfo | .outLen | .nleaf | .nnode | .root | .maxLen => false
  | .decNode | .decBits | .node _ _ | .code _ _ | .reserved => false

/-! ### The window words of the tables -/

/-- The four words of a node (R45). -/
def nodeWord (n : Node) (k : BitVec 2) : Word :=
  match k.toNat with
  | 0 => BitVec.ofBool n.leaf ++ 0#7 ++ n.sym ++ 0#16
  | 1 => 0#7 ++ n.right ++ 0#7 ++ n.left
  | 2 => n.freq.extractLsb' 0 32
  | _ => 0#24 ++ n.freq.extractLsb' 32 8

/-- The sixteen words of a code entry (R49). -/
def codeWord (c : Code) (k : BitVec 4) : Word :=
  if k.toNat = 0 then c.len.zeroExtend 32
  else if k.toNat ≤ 8 then c.val.extractLsb' (32 * (k.toNat - 1)) 32
  else 0

/-- A word of the NODE window, gated by TREE_VALID and NNODE (R46). -/
def nodeWindow (b : Block) (i : NodeIx) (k : BitVec 2) : Word :=
  if b.treeValid ∧ i.toNat < b.nnode.toNat then nodeWord (nodeAt b.node i) k else 0

/-- A word of the CODE window, gated by CODE_VALID (R50). -/
def codeWindow (b : Block) (s : Byte) (k : BitVec 4) : Word :=
  if b.codeValid then codeWord (entry b.code s) k else 0

end Sys2Proof.Machine
end

