-- ==== Sys2Proof/Machine/Flags.lean ====
section
/-! DEFINITION. The STATUS flags and what is computed from them: STATUS, ERR_CODE and IRQ_EN as words, the
write-one-to-clear rule, the interrupt, the validity clears, and the defined value of every place of the window. -/

namespace Sys2Proof.Machine

/-- STATUS.BUSY (10_state.md R51): 1 exactly in Busy. -/
def busy (b : Block) : Bool :=
  match b.engine with
  | .idle => false
  | .busy _ => true

/-- The STATUS word (10_state.md R26): [5] CODE_VALID, [4] TREE_VALID, [3] OVR, [2] ERR, [1] DONE, [0] BUSY. -/
def statusWord (b : Block) : Word :=
  0#26 ++ BitVec.ofBool b.codeValid ++ BitVec.ofBool b.treeValid ++ BitVec.ofBool b.ovr ++ BitVec.ofBool b.err ++
    BitVec.ofBool b.done ++ BitVec.ofBool (busy b)

/-- A write of `v` to STATUS (10_state.md R26): a 1 in bit 1, 2 or 3 clears DONE, ERR or OVR; nothing else changes
(20_memory.md R75). ERR_CODE and ERR_INFO stay until the next start or reset (R28; 60_exceptions.md R243; log 12). -/
def writeStatus (v : Word) (b : Block) : Block :=
  { b with
    done := b.done && !v.getLsbD 1
    err := b.err && !v.getLsbD 2
    ovr := b.ovr && !v.getLsbD 3 }

/-- The IRQ_EN word (10_state.md R27). -/
def irqEnWord (b : Block) : Word := 0#30 ++ BitVec.ofBool b.errIe ++ BitVec.ofBool b.doneIe

/-- A write of `v` to IRQ_EN (10_state.md R27). -/
def writeIrqEn (v : Word) (b : Block) : Block := { b with doneIe := v.getLsbD 0, errIe := v.getLsbD 1 }

/-- The interrupt output, a level (60_exceptions.md R235; log 23). -/
def irq (b : Block) : Bool := (b.done && b.doneIe) || (b.err && b.errIe)

/-- The code of an error name (60_exceptions.md R226). -/
def ErrCode.toByte : ErrCode → Byte
  | .none => 0x00
  | .illegalCmd => 0x01
  | .emptyInput => 0x02
  | .freqRange => 0x03
  | .treeEmpty => 0x04
  | .noTree => 0x05
  | .noCodes => 0x06
  | .noCode => 0x07
  | .bitsOverflow => 0x08
  | .dstOverflow => 0x09
  | .bodyShort => 0x0A
  | .endMidCode => 0x0B
  | .badCode => 0x0C
  | .addrRange => 0x0D
  | .regionOverlap => 0x0E
  | .busError => 0x0F

/-- Clears both validity flags (10_state.md R54). -/
def clearValid (b : Block) : Block := { b with treeValid := false, codeValid := false }

/-- The validity clears made at the start of the command `w` (40_dispatch.md R126): both for FREQ_CLEAR, FREQ_COUNT and
BUILD_TREE, CODE_VALID for GEN_CODES, none for any other word, legal or not. -/
def startClears (w : Word) (b : Block) : Block :=
  if w = 0x00000001#32 ∨ w = 0x00000002#32 ∨ w = 0x00000003#32 then clearValid b
  else if w = 0x00000004#32 then { b with codeValid := false }
  else b

/-- The value a place holds where the spec defines it (10_state.md R22 to R58): a read while not BUSY, or at any time of
a place that is not busy-any. -/
def locValue (b : Block) : Loc → Word
  | .id => Config.idValue
  | .ctrl => 0
  | .cmd => b.lastCmd
  | .status => statusWord b
  | .irqEn => irqEnWord b
  | .errCode => b.errCode.toByte.zeroExtend 32
  | .errInfo => b.errInfo
  | .srcAddr => b.srcAddr
  | .srcLen => b.srcLen
  | .dstAddr => b.dstAddr
  | .dstCap => b.dstCap
  | .totalBits => b.totalBits
  | .outLen => b.outLen
  | .nleaf => if b.treeValid then b.nleaf.zeroExtend 32 else 0
  | .nnode => if b.treeValid then b.nnode.zeroExtend 32 else 0
  | .root => (rootReg b).zeroExtend 32
  | .maxLen => if b.codeValid then b.maxLen.zeroExtend 32 else 0
  | .decNode => b.decNode.zeroExtend 32
  | .decBits => b.decBits
  | .freq s => entry b.freq s
  | .node i k => nodeWindow b i k
  | .code s k => codeWindow b s k
  | .reserved => 0

end Sys2Proof.Machine
end

