-- ==== Sys2Proof/Machine/Control.lean ====
section
/-! DEFINITION. Starting a command, the illegal command, reset and the abort of a running command
(40_dispatch.md R126, R131; 70_reset_and_hazards.md R260 to R262). -/

namespace Sys2Proof.Machine

/-- Command start (40_dispatch.md R126), on the block. -/
def startBlock (w : Word) (b : Block) : Block :=
  { startClears w b with
    lastCmd := w
    done := false
    err := false
    errCode := .none
    errInfo := 0
    engine := .busy w }

/-- Does the word select a command that touches a destination region (ENCODE, DECODE)? -/
def writesMemory (w : Word) : Bool :=
  match decodeWord w with
  | .ok .encode => true
  | .ok .decode => true
  | _ => false

/-- Does the word select a command that touches system memory (FREQ_COUNT, ENCODE, DECODE: 20_memory.md R79)? -/
def touchesMemory (w : Word) : Bool :=
  match decodeWord w with
  | .ok .freqCount => true
  | .ok .encode => true
  | .ok .decode => true
  | _ => false

/-- The dirty host copies of destination bytes. -/
def dirtyDestination (s : State) : List Nat := s.hostDirty.filter (dstRegion s.block).has

/-- What the start of `w` does to the host's copies of the destination region of ENCODE and DECODE, without coherence
(20_memory.md R91; log 10): they are stale until the host discards them. A dirty one may or may not have reached memory,
so memory holds a free value there until the block writes. -/
def overtakeCopies (w : Word) (s : State) : State :=
  if !s.platform.dmaCoherent && writesMemory w then
    { drawBytes (dirtyDestination s) s with
      hostDirty := s.hostDirty.filter fun a => !(dstRegion s.block).has a
      hostOvertaken := dirtyDestination s ++ s.hostOvertaken
      hostStale := dstRegion s.block :: s.hostStale }
  else s

/-- An accepted write of `w` to CMD (R126), with what it does to host copies. -/
def startCommand (w : Word) (s : State) : State := { overtakeCopies w s with block := startBlock w s.block }

/-- The illegal command (40_dispatch.md R131; 30_encoding.md R113, R114): error completion with the word. -/
def illegalCommand (w : Word) (s : State) : State := finish (.raised ⟨.illegalCmd, w⟩ s)

/-- May an aborted ENCODE or DECODE have changed this address (R262)? A destination byte of system memory that is not a
source byte (log 5). -/
def abortMayChange (b : Block) (a : Nat) : Bool := decide (a < Config.spaceEnd) && !(srcRegion b).has a

/-- What the abort of the running command leaves in system memory (R262): after ENCODE or DECODE every destination byte
is a free draw; otherwise nothing changes. R262 forbids accesses after the reset and does not say which were made before
it; the model records none in `bus` (log 16: DESIGN CHOICE). -/
def abortRunning (s : State) : State :=
  match s.block.engine with
  | .idle => s
  | .busy w =>
    if writesMemory w then
      { s with
        mem := s.mem.drawRange s.block.dstAddr.toNat (abortMayChange s.block) (Config.freeByte s.draws)
          s.block.dstCap.toNat
        draws := s.draws + 1 }
    else s

/-- Reset, hard or soft (R260, R261): the block is as `Block.reset` says; a running command is aborted first (R262). -/
def resetBlock (s : State) : State := { abortRunning s with block := Block.reset }

end Sys2Proof.Machine
end

