-- ==== Sys2Proof/Machine/Codes.lean ====
section
/-! DEFINITION. The code generator command (43_code_generator.md R170 to R175). -/

namespace Sys2Proof.Machine

/-- A table without codes (R170: every entry {LEN: 0, VAL: 0}). -/
def noCodes : Vector Code 256 := Vector.replicate 256 ⟨0, 0⟩

/-- The tree walk (R171): left appends bit 0, right appends bit 1, a leaf records the path. `fuel` bounds the depth;
a tree of BUILD_TREE has depth at most 255 (R152), so 256 is enough (log 13). -/
def walk (node : Vector Node 511) : (fuel : Nat) → (i : NodeIx) → (len : Nat) → (val : BitVec 256) →
    Vector Code 256 → Vector Code 256
  | 0, _, _, _, codes => codes
  | fuel + 1, i, len, val, codes =>
    if (nodeAt node i).leaf then setEntry codes (nodeAt node i).sym ⟨BitVec.ofNat 8 len, val⟩
    else
      walk node fuel (nodeAt node i).right (len + 1) (2 * val + 1)
        (walk node fuel (nodeAt node i).left (len + 1) (2 * val) codes)

/-- The codes of the tree whose root is `r` (R170): the path of each leaf, and for a single leaf the fixed 1-bit code 0
(R172). -/
def genTable (node : Vector Node 511) (r : NodeIx) : Vector Code 256 :=
  if (nodeAt node r).leaf then setEntry noCodes (nodeAt node r).sym ⟨1, 0⟩
  else walk node (Config.maxCodeLen + 1) r 0 0 noCodes

/-- The largest LEN of a code table (R170). -/
def maxLenOf (codes : Vector Code 256) : Byte :=
  BitVec.ofNat 8 (allBytes.foldl (fun m s => max m (entry codes s).len.toNat) 0)

/-- What GEN_CODES writes on success (R170). -/
def writeCodes (codes : Vector Code 256) (s : State) : State :=
  { s with block := { s.block with code := codes, maxLen := maxLenOf codes, codeValid := true } }

/-- The rule of GEN_CODES (R170). Its validity clear is made at the start (R126). -/
def genCodesRule (s : State) : Res Unit :=
  if s.block.treeValid then .ok () (writeCodes (genTable s.block.node s.block.root) s)
  else .raised ⟨.noTree, 0⟩ s

/-- GEN_CODES (R170): fill the CODE table from the present tree. -/
def execGenCodes (s : State) : Host.Outcome State Fault Refusal := .next (finish (genCodesRule s))

end Sys2Proof.Machine
end

