-- ==== Sys2Proof/Machine/Decoder.lean ====
section
/-! DEFINITION. The decoder command: the bit unpacker and the decoder state machine (45_decoder.md R200 to R210). -/

namespace Sys2Proof.Machine

/-- What the decoder holds inside DECODE (10_state.md R53; R202): the cursor, the index of the bit that began the
present code, and the source byte being unpacked. -/
structure Cursor where
  cur : NodeIx
  start : Nat
  byte : Byte
  deriving DecidableEq, Repr

/-- Bit `i` of the stream in the byte that holds it: most significant first (R202; 20_memory.md R84). -/
def streamBit (byte : Byte) (i : Nat) : Bool := byte.getLsbD (7 - i % 8)

/-- The byte that holds bit `i`: read when `i mod 8 = 0`, kept otherwise (R202). -/
def fetchByte (base i : Nat) (kept : Byte) (s : State) : Res Byte :=
  if i % 8 = 0 then busRead (base + i / 8) s else .ok kept s

/-- The child a bit leads to: 0 left, 1 right (R202). -/
def child (n : Node) (bit : Bool) : NodeIx := if bit then n.right else n.left

/-- The state machine's transition on bit `i` in a single-leaf tree (R203): 0 emits the leaf's byte, 1 is BAD_CODE. -/
def singleLeafBit (r : NodeIx) (i : Nat) (bit : Bool) (c : Cursor) (s : State) : Res Cursor :=
  if bit then .raised ⟨.badCode, BitVec.ofNat 32 i⟩ s
  else (put (nodeAt s.block.node r).sym s).andThen fun _ t => .ok ⟨c.cur, i + 1, c.byte⟩ t

/-- The state machine's transition on bit `i` in a tree of two leaves or more (R202): move to the child; at a leaf emit
its byte and go back to the root. -/
def treeBit (r : NodeIx) (i : Nat) (bit : Bool) (c : Cursor) (s : State) : Res Cursor :=
  let cur := child (nodeAt s.block.node c.cur) bit
  if (nodeAt s.block.node cur).leaf then
    (put (nodeAt s.block.node cur).sym (setDecNode cur s)).andThen fun _ t =>
      .ok ⟨r, i + 1, c.byte⟩ (setDecNode r t)
  else .ok ⟨cur, c.start, c.byte⟩ (setDecNode cur s)

/-- One pass of the loop of `walk_bits` (R202). -/
def decodeBit (base : Nat) (r : NodeIx) (i : Nat) (c : Cursor) (s : State) : Res Cursor :=
  (fetchByte base i c.byte s).andThen fun byte t =>
    let u := setDecBits (BitVec.ofNat 32 (i + 1)) t
    if (nodeAt u.block.node r).leaf then singleLeafBit r i (streamBit byte i) { c with byte := byte } u
    else treeBit r i (streamBit byte i) { c with byte := byte } u

/-- The loop of `walk_bits` (R202): `remaining` bits from bit `i` on. -/
def decodeLoop (base : Nat) (r : NodeIx) : (remaining i : Nat) → Cursor → State → Res Cursor
  | 0, _, c, s => .ok c s
  | remaining + 1, i, c, s => (decodeBit base r i c s).andThen fun d t => decodeLoop base r remaining (i + 1) d t

/-- `walk_bits(tb)` (R202): after exactly `tb` bits the cursor must be at the root (R205). -/
def walkBits (base : Nat) (r : NodeIx) (tb : Nat) (s : State) : Res Unit :=
  (decodeLoop base r tb 0 ⟨r, 0, 0⟩ s).andThen fun c t =>
    if c.cur = r then .ok () t else .raised ⟨.endMidCode, BitVec.ofNat 32 c.start⟩ t

/-- The registers DECODE sets before any check (R201; 92_eei_decisions.md D40). -/
def decodeStart (s : State) : State :=
  { s with block := { s.block with outLen := 0, decBits := 0, decNode := rootReg s.block } }

/-- ceil(TOTAL_BITS/8): the source bytes DECODE needs (R201). -/
def neededBytes (b : Block) : Nat := ceilDiv8 b.totalBits.toNat

/-- The rule of DECODE (R200, R201). -/
def decodeRule (s : State) : Res Unit :=
  if s.block.treeValid = false then .raised ⟨.noTree, 0⟩ (decodeStart s)
  else if neededBytes s.block > s.block.srcLen.toNat then
    .raised ⟨.bodyShort, BitVec.ofNat 32 (neededBytes s.block)⟩ (decodeStart s)
  else
    (require (checkRegions s.block) (decodeStart s)).andThen fun _ t =>
      walkBits s.block.srcAddr.toNat s.block.root s.block.totalBits.toNat t

/-- DECODE (R200): turn TOTAL_BITS bits of the source region into bytes in the destination region. -/
def execDecode (s : State) : Host.Outcome State Fault Refusal := .next (finish (decodeRule s))

end Sys2Proof.Machine
end

