-- ==== Sys2Proof/Machine/Frequency.lean ====
section
/-! DEFINITION. The frequency counter commands (41_frequency.md R140 to R144). -/

namespace Sys2Proof.Machine

/-- The counting loop of R142: `remaining` bytes from offset `j` on; `h` are the internal counters. -/
def countLoop (base : Nat) : (remaining j : Nat) → (h : Vector Word 256) → State → Res (Vector Word 256)
  | 0, _, h, s => .ok h s
  | remaining + 1, j, h, s =>
    match busRead (base + j) s with
    | .raised e t => .raised e t
    | .ok b t =>
      if entry h b = Config.countMax then .raised ⟨.freqRange, b.zeroExtend 32⟩ t
      else countLoop base remaining (j + 1) (setEntry h b (entry h b + 1)) t

/-- The rule of FREQ_CLEAR (R140). Its validity clears are made at the start (R126). -/
def freqClearRule (s : State) : Res Unit := .ok () (setFreq zeroFreq s)

/-- The rule of FREQ_COUNT (R142). -/
def freqCountRule (s : State) : Res Unit :=
  if s.block.srcLen = 0 then .raised ⟨.emptyInput, 0⟩ (setFreq zeroFreq s)
  else
    (require (checkSrc s.block) (setFreq zeroFreq s)).andThen fun _ t =>
      (countLoop s.block.srcAddr.toNat s.block.srcLen.toNat 0 zeroFreq t).andThen fun h u => .ok () (setFreq h u)

/-- FREQ_CLEAR (R140): set every FREQ entry to zero. -/
def execFreqClear (s : State) : Host.Outcome State Fault Refusal := .next (finish (freqClearRule s))

/-- FREQ_COUNT (R142): replace the FREQ table with the histogram of the source bytes. -/
def execFreqCount (s : State) : Host.Outcome State Fault Refusal := .next (finish (freqCountRule s))

end Sys2Proof.Machine
end

