-- ==== Sys2Proof/Machine/Packer.lean ====
section
/-! DEFINITION. The bit packer command (44_bit_packer.md R185 to R192). -/

namespace Sys2Proof.Machine

/-- What the packer holds inside ENCODE (10_state.md R52): the accumulator, how many bits are in it, and the bits
packed so far (exact; R186 gives it 33 bits). -/
structure Packer where
  acc : Byte
  k : Nat
  tb : Nat
  deriving DecidableEq, Repr

/-- The packer at the start of `pack` (R186). -/
def Packer.empty : Packer := ⟨0, 0, 0⟩

/-- The bits of a code, the first path bit first: `val[t]` for t in len - 1 downto 0 (R186; 10_state.md R48). -/
def codeBits (c : Code) : List Bool := (List.range c.len.toNat).reverse.map fun t => c.val.getLsbD t

/-- `((acc << 1) | bit)[7:0]` (R186). -/
def shiftIn (acc : Byte) (bit : Bool) : Byte := (acc <<< 1) ||| (BitVec.ofBool bit).zeroExtend 8

/-- Packs one bit (R186): a full byte is put. -/
def packBit (bit : Bool) (p : Packer) (s : State) : Res Packer :=
  if p.k + 1 = 8 then (put (shiftIn p.acc bit) s).andThen fun _ t => .ok ⟨0, 0, p.tb + 1⟩ t
  else .ok ⟨shiftIn p.acc bit, p.k + 1, p.tb + 1⟩ s

/-- Packs bits in order (R186). -/
def packBits : List Bool → Packer → State → Res Packer
  | [], p, s => .ok p s
  | b :: rest, p, s => (packBit b p s).andThen fun q t => packBits rest q t

/-- Packs the code of the byte `sym` at source offset `j` (R186, R188, R190). -/
def packSymbol (j : Nat) (sym : Byte) (p : Packer) (s : State) : Res Packer :=
  if (entry s.block.code sym).len = 0 then .raised ⟨.noCode, BitVec.ofNat 32 j⟩ s
  else if p.tb + (entry s.block.code sym).len.toNat > Config.spaceEnd - 1 then
    .raised ⟨.bitsOverflow, BitVec.ofNat 32 j⟩ s
  else packBits (codeBits (entry s.block.code sym)) p s

/-- The loop of `pack` over the source bytes (R186): `remaining` bytes from offset `j` on. -/
def packLoop (base : Nat) : (remaining j : Nat) → Packer → State → Res Packer
  | 0, _, p, s => .ok p s
  | remaining + 1, j, p, s =>
    match busRead (base + j) s with
    | .raised e t => .raised e t
    | .ok sym t =>
      match packSymbol j sym p t with
      | .raised e u => .raised e u
      | .ok q u => packLoop base remaining (j + 1) q u

/-- The trailing partial byte, left-aligned with zero low bits (R186). -/
def packTail (p : Packer) (s : State) : Res Unit :=
  if p.k > 0 then put (p.acc <<< (8 - p.k)) s else .ok () s

/-- `tb = pack(n); x[TOTAL_BITS] <- tb[31:0]` (R185, R186, R187). -/
def pack (base n : Nat) (s : State) : Res Unit :=
  (packLoop base n 0 Packer.empty s).andThen fun p t =>
    (packTail p t).andThen fun _ u => .ok () (setTotalBits (BitVec.ofNat 32 p.tb) u)

/-- The rule of ENCODE (R185). -/
def encodeRule (s : State) : Res Unit :=
  if s.block.codeValid = false then .raised ⟨.noCodes, 0⟩ (setOutLen 0 s)
  else if s.block.srcLen = 0 then .raised ⟨.emptyInput, 0⟩ (setOutLen 0 s)
  else
    (require (checkRegions s.block) (setOutLen 0 s)).andThen fun _ t =>
      pack s.block.srcAddr.toNat s.block.srcLen.toNat t

/-- ENCODE (R185): pack the codes of the source bytes into the destination region. -/
def execEncode (s : State) : Host.Outcome State Fault Refusal := .next (finish (encodeRule s))

end Sys2Proof.Machine
end

