-- ==== Sys2Proof/Machine/Tree.lean ====
section
/-! DEFINITION. The tree builder command (42_tree_builder.md R150 to R158). The tree is built as a list of nodes in
index order, from the 256 FREQ values alone (R156), and then written to the NODE slots from 0 on. -/

namespace Sys2Proof.Machine

/-- `check_freq_range()` (R151): the smallest byte value whose count passes COUNT_MAX. -/
def checkFreqRange (freq : Vector Word 256) : Option Err :=
  match allBytes.find? fun s => decide (Config.countMax < entry freq s) with
  | some s => some ⟨.freqRange, s.zeroExtend 32⟩
  | none => none

/-- A leaf (R152). -/
def leafNode (s : Byte) (count : Word) : Node := ⟨true, s, count.zeroExtend 40, Config.nil, Config.nil⟩

/-- The leaves in ascending byte value, one for each nonzero count (R152). -/
def leaves (freq : Vector Word 256) : List Node :=
  allBytes.filterMap fun s => if entry freq s = 0 then none else some (leafNode s (entry freq s))

/-- NODE[i] of the tree under construction. -/
def arenaAt (arena : List Node) (i : Nat) : Node := arena.getD i Node.zero

/-- key(i) < key(j), with key(i) = (NODE[i].FREQ, i) (R9, R153). -/
def keyLt (arena : List Node) (i j : Nat) : Bool :=
  decide ((arenaAt arena i).freq < (arenaAt arena j).freq) ||
    (decide ((arenaAt arena i).freq = (arenaAt arena j).freq) && decide (i < j))

/-- The index of smallest key among `i` and those of a list. -/
def minKey (arena : List Node) (i : Nat) : List Nat → Nat
  | [] => i
  | j :: rest => minKey arena (if keyLt arena j i then j else i) rest

/-- Takes the index of smallest key out of the active set (R152). -/
def takeMin (arena : List Node) : List Nat → Option (Nat × List Nat)
  | [] => none
  | i :: rest => some (minKey arena i rest, (i :: rest).erase (minKey arena i rest))

/-- The internal node over `a` (extracted first: the left child) and `b` (the right child) (R152). -/
def internalNode (arena : List Node) (a b : Nat) : Node :=
  ⟨false, 0, (arenaAt arena a).freq + (arenaAt arena b).freq, BitVec.ofNat 9 a, BitVec.ofNat 9 b⟩

/-- The merge loop of R152: while two nodes are active, merge the two of smallest key into a node with the next free
index. Each merge shrinks the active set by one, so its size bounds the merges. -/
def mergeLoop : (fuel : Nat) → (active : List Nat) → (arena : List Node) → List Node
  | 0, _, arena => arena
  | fuel + 1, active, arena =>
    match takeMin arena active with
    | none => arena
    | some (a, active₁) =>
      match takeMin arena active₁ with
      | none => arena
      | some (b, active₂) =>
        mergeLoop fuel (active₂ ++ [arena.length]) (arena ++ [internalNode arena a b])

/-- The nodes of the tree of a table, in index order (R152). -/
def buildArena (freq : Vector Word 256) : List Node :=
  mergeLoop (leaves freq).length (List.range (leaves freq).length) (leaves freq)

/-- The NODE table with the slots of the tree written and the others as they were (R150: writes NODE[0 .. 2n-2];
log 24). -/
def overlay (arena : List Node) (old : Vector Node 511) : Vector Node 511 :=
  Vector.ofFn fun i => arena.getD i old[i]

/-- What `build()` and the step after it write on success (R150, R152). -/
def writeTree (arena : List Node) (n : Nat) (s : State) : State :=
  { s with
    block :=
      { s.block with
        node := overlay arena s.block.node
        nleaf := BitVec.ofNat 9 n
        nnode := BitVec.ofNat 9 arena.length
        root := BitVec.ofNat 9 (arena.length - 1)
        treeValid := true } }

/-- The rule of BUILD_TREE (R150). Its validity clears are made at the start (R126). -/
def buildTreeRule (s : State) : Res Unit :=
  (require (checkFreqRange s.block.freq) s).andThen fun _ t =>
    if leaves t.block.freq = [] then .raised ⟨.treeEmpty, 0⟩ t
    else .ok () (writeTree (buildArena t.block.freq) (leaves t.block.freq).length t)

/-- BUILD_TREE (R150): build the Huffman tree of the FREQ table in the NODE table. -/
def execBuildTree (s : State) : Host.Outcome State Fault Refusal := .next (finish (buildTreeRule s))

end Sys2Proof.Machine
end

