-- ==== Sys2Proof/Machine/Engine.lean ====
section
/-! DEFINITION. The engine's turn: a running command goes from Busy(w) to Idle in one step (40_dispatch.md R127, R128,
R135). -/

namespace Sys2Proof.Machine

/-- The bytes of the word the engine fetched from CMD, as the host port lays them out (20_memory.md R73); none when it
is Idle. -/
def fetchBytes (s : State) : Option (List Byte) :=
  match s.block.engine with
  | .idle => none
  | .busy w => some (wordBytes w)

/-- Exec(w) (R127; log 22): the selected command, or ILLEGAL_CMD for a word that selects none. -/
def execWord (w : Word) (s : State) : Host.Outcome State Fault Refusal :=
  match decode (wordBytes w) with
  | .ok (i, _) => exec i s
  | .error _ => .next (illegalCommand w s)

/-- The engine's turn: Busy(w) performs Exec(w); Idle does nothing (60_exceptions.md R250). -/
def engineTurn (s : State) : Host.Outcome State Fault Refusal :=
  match s.block.engine with
  | .idle => .next s
  | .busy w => execWord w s

end Sys2Proof.Machine
end

