-- ==== Sys2Proof/Machine/HostPort.lean ====
section
/-! DEFINITION. What the host does to the machine: register transactions (20_memory.md R71 to R75;
70_reset_and_hazards.md R270, R271), its accesses to system memory (R87, R273), cache maintenance (R91), reset. -/

namespace Sys2Proof.Machine

/-- The host is answered (log 16). -/
def answer (r : Reply) (s : State) : State := { s with replies := r :: s.replies }

/-! ### Register reads (R71, R75, R271) -/

/-- A legal read of a place: its value, or a fresh free value where it is busy-any and the block is BUSY. -/
def readLoc (l : Loc) (s : State) : State :=
  if busy s.block && l.busyAny then answer (.data (Config.freeWord s.draws)) { s with draws := s.draws + 1 }
  else answer (.data (locValue s.block l)) s

/-! ### Register writes (R24 to R34, R41, R270) -/

/-- An accepted write of a place that is not CMD, CTRL, STATUS or IRQ_EN, on the block: an operand register, or an entry
of FREQ, which clears the validity flags (R41). Read-only and reserved places ignore it (R45, R49, R58). -/
def writeOperand (l : Loc) (v : Word) (b : Block) : Block :=
  match l with
  | .srcAddr => { b with srcAddr := v }
  | .srcLen => { b with srcLen := v }
  | .dstAddr => { b with dstAddr := v }
  | .dstCap => { b with dstCap := v }
  | .totalBits => { b with totalBits := v }
  | .freq k => { clearValid b with freq := setEntry b.freq k v }
  | .id | .ctrl | .cmd | .status | .irqEn | .errCode | .errInfo | .outLen | .nleaf | .nnode | .root | .maxLen => b
  | .decNode | .decBits | .node _ _ | .code _ _ | .reserved => b

/-- The effect of a legal write of a place (R71): CTRL resets, STATUS clears, IRQ_EN is written, at any time; a
busy-drop place is dropped and sets OVR while BUSY (R270); CMD starts a command (R25, R126); the rest as
`writeOperand`. -/
def writeLoc (l : Loc) (v : Word) (s : State) : State :=
  if busy s.block && l.busyDrop then { s with block := { s.block with ovr := true } }
  else
    match l with
    | .ctrl => if v.getLsbD 0 then resetBlock s else s
    | .status => { s with block := writeStatus v s.block }
    | .irqEn => { s with block := writeIrqEn v s.block }
    | .cmd => startCommand v s
    | l => { s with block := writeOperand l v s.block }

/-! ### Caches of the host, without coherence (R91, R274; log 10) -/

/-- Are bytes of the source region of the command `w` still only in the host's caches, or older there than in memory? -/
def sourceUnwritten (w : Word) (s : State) : Bool :=
  !s.platform.dmaCoherent && touchesMemory w && (s.hostDirty ++ s.hostOvertaken).any fun a => (srcRegion s.block).has a

/-- What is left of a range when another is taken out of it. -/
def Region.minus (r d : Region) : List Region :=
  let e := r.base + r.size
  let cut := min e (max r.base d.base)
  let back := max cut (min e (d.base + d.size))
  [⟨r.base, cut - r.base⟩, ⟨back, e - back⟩].filter fun x => decide (x.size ≠ 0)

/-! ### Host accesses -/

/-- A host transaction at the register port (R71, R72): an illegal one is answered with a fault and changes nothing
(log 8). -/
def regAccess (a : RegAccess) (s : State) : Host.Outcome State Fault Refusal :=
  if a.legal then
    match a.kind with
    | .read => .next (readLoc (locate a.offset) s)
    | .write =>
      if locate a.offset = .cmd ∧ busy s.block = false ∧ sourceUnwritten a.data s then .refused .regionNotWrittenBack
      else .next (answer .done (writeLoc (locate a.offset) a.data s))
  else .next (answer .fault s)

/-- The offset in the window of a host address (R22), if it has one. -/
def windowOffset (p : Platform) (addr : Nat) : Option Offset :=
  if p.blockBase ≤ addr ∧ addr < p.blockBase + Config.windowSize then some (BitVec.ofNat 15 (addr - p.blockBase))
  else none

/-- While a command runs, whichever it is, the host may not write a source byte, nor read or write a destination byte
(R87 item 3; R273; log 9). -/
def hostMayNot (k : AccessKind) (a : Nat) (b : Block) : Bool :=
  busy b && ((decide (k = .write) && (srcRegion b).has a) || (dstRegion b).has a)

/-- The host writes a byte of system memory (R78, R87; log 20). Without coherence it stays in the host's caches until a
write-back (log 10). -/
def hostMemWrite (a : Nat) (v : Byte) (s : State) : Host.Outcome State Fault Refusal :=
  if hostMayNot .write a s.block then .refused .hostTouchesRegionWhileBusy
  else
    let t := { s with mem := s.mem.write a v }
    .next (answer .done
      (if s.platform.dmaCoherent then t
      else { t with hostDirty := a :: s.hostDirty, hostOvertaken := s.hostOvertaken.filter fun x => decide (x ≠ a) }))

/-- The host reads a byte of system memory (R78, R87; log 20). -/
def hostMemRead (a : Nat) (s : State) : Host.Outcome State Fault Refusal :=
  if hostMayNot .read a s.block then .refused .hostTouchesRegionWhileBusy
  else if !s.platform.dmaCoherent && s.hostStale.any (fun r => r.has a) then .refused .staleCopyRead
  else .next (answer (.memData (s.mem.read a)) s)

/-- The host writes its cached copies of a range back (R91, R274). A copy older than what a command wrote may only be
discarded. R87 item 3 and R273 do not say whether a write-back while BUSY is a host write; here it is none, and goes on
unless such a copy is in the range (log 10: DESIGN CHOICE). -/
def hostWriteBack (r : Region) (s : State) : Host.Outcome State Fault Refusal :=
  if s.hostOvertaken.any fun a => r.has a then .refused .staleCopyWrittenBack
  else .next (answer .done { s with hostDirty := s.hostDirty.filter fun a => !r.has a })

/-- The destination region of a running ENCODE or DECODE, whose copies stay stale until it completes (R91). -/
def runningDestination (b : Block) : List Region :=
  match b.engine with
  | .idle => []
  | .busy w => if writesMemory w then [dstRegion b] else []

/-- The host discards its cached copies of a range (R91), at any time; of a running command's destination it has to
discard again. A discarded write that no command overtook may or may not have reached memory: a free value (log 10). -/
def hostDiscard (r : Region) (s : State) : Host.Outcome State Fault Refusal :=
  let stale := s.hostStale.flatMap fun q => q.minus r
  .next (answer .done
    { drawBytes (s.hostDirty.filter r.has) s with
      hostDirty := s.hostDirty.filter fun a => !r.has a
      hostOvertaken := s.hostOvertaken.filter fun a => !r.has a
      hostStale := if s.platform.dmaCoherent then stale else runningDestination s.block ++ stale })

/-- One input of the machine (40_dispatch.md R135). -/
def runEvent (e : Event) (s : State) : Host.Outcome State Fault Refusal :=
  match e with
  | .reg a => regAccess a s
  | .hostBus addr kind width data =>
    match windowOffset s.platform addr with
    | some o => regAccess ⟨o, kind, width, data⟩ s
    | none => .fault .outsideWindow
  | .memWrite a v => hostMemWrite a.toNat v s
  | .memRead a => hostMemRead a.toNat s
  | .writeBack r => hostWriteBack r s
  | .discard r => hostDiscard r s
  | .hardReset => .next (resetBlock s)
  | .engineTurn => engineTurn s

end Sys2Proof.Machine
end

