-- ==== Sys2Proof/Machine/Step.lean ====
section
/-! DEFINITION. One step of the machine (40_dispatch.md R135), and how a command word is placed so that the next step
runs it. -/

namespace Sys2Proof.Machine

/-- One step: the next input, or, where none is pending, the engine's turn. So a running command always completes
(R128: weak fairness), after any finite number of inputs (R280). -/
def step (s : State) : Host.Outcome State Fault Refusal :=
  match s.pending with
  | [] => engineTurn s
  | e :: rest => runEvent e { s with pending := rest }

/-- The state right after the host's write of the word to CMD was accepted (R126), with no input pending: the next step
is the engine's and runs exactly that command (log 15). -/
def State.withFetchWord (s : State) (nbits w : Nat) : State :=
  startCommand (tableWord nbits w) { s with pending := [] }

end Sys2Proof.Machine
end

