-- ==== Sys2Proof/Machine/HostProgram.lean ====
section
/-! DEFINITION. The host-program notation (30_encoding.md R118, R119) as lists of inputs. A host checks each command's
outcome by reading STATUS; what it does on an error is its own (70_reset_and_hazards.md R266). How long a command takes is
open (LATENCY: 00_scope.md R7), so how often a host polls in vain is a parameter `polls` of every list (log 17). -/

namespace Sys2Proof.Machine

/-- `wr OFF, VAL` (R118). -/
def wr (o : Offset) (v : Word) : Event := .reg ⟨o, .write, 32, v⟩

/-- `rd OFF` (R118). -/
def rd (o : Offset) : Event := .reg ⟨o, .read, 32, 0⟩

/-- `cmd NAME` (R118): the command's word to CMD. -/
def cmd (i : Instr) : Event := wr 0x008 (encodeWord i)

/-- `wait` (R118): STATUS is read until it shows BUSY = 0: `polls` reads before the engine completes, and one after. -/
def wait (polls : Nat) : List Event := List.replicate polls (rd 0x00C) ++ [.engineTurn, rd 0x00C]

/-- `run NAME` = `cmd NAME; wait` (R119), where `polls` gives the polls in vain of each command. -/
def run (polls : Instr → Nat) (i : Instr) : List Event := cmd i :: wait (polls i)

/-- `ack` (R119). -/
def ack : Event := wr 0x00C 0x0000000E

/-- `mem ADDR: b0 b1 ...` (R118) as writes by the host. R118 is silent on bytes past address 0xFFFFFFFF; here they go on
at address 0 (log 26: DESIGN CHOICE). -/
def memBytes (a : Word) : List Byte → List Event
  | [] => []
  | b :: rest => .memWrite a b :: memBytes (a + 1) rest

/-- `compress(A, N, D, C)` (R119). -/
def compress (polls : Instr → Nat) (a n d c : Word) : List Event :=
  [wr 0x020 a, wr 0x024 n] ++ run polls .freqCount ++ run polls .buildTree ++ run polls .genCodes ++
    [wr 0x028 d, wr 0x02C c] ++ run polls .encode

/-- `wr 0x400 + 4 s, c` for each (s, c) in a table (R119). -/
def loadTable (table : List (Byte × Word)) : List Event :=
  table.map fun e => wr (0x400 + 4 * e.1.zeroExtend 15) e.2

/-- The first part of `decompress` (R119): the tree of a table. -/
def rebuildTree (polls : Instr → Nat) (table : List (Byte × Word)) : List Event :=
  run polls .freqClear ++ loadTable table ++ run polls .buildTree

/-- The last part of `decompress` (R119): the two regions, and DECODE. -/
def decodeRegions (polls : Instr → Nat) (a l d c : Word) : List Event :=
  [wr 0x020 a, wr 0x024 l, wr 0x028 d, wr 0x02C c] ++ run polls .decode

/-- `decompress(table, B, A, L, D, C)` (R119). -/
def decompress (polls : Instr → Nat) (table : List (Byte × Word)) (b a l d c : Word) : List Event :=
  rebuildTree polls table ++ [wr 0x030 b] ++ decodeRegions polls a l d c

end Sys2Proof.Machine
end

