-- ==== Sys2Proof/Machine/Artifact.lean ====
section
/-! DEFINITION. The host-side artifact (20_memory.md R95 to R103): its layout, building it from the block, parsing it,
and the host's decode sequence. Host software by R5; the layout is normative for the host. -/

namespace Sys2Proof.Machine

/-- The fields of an artifact that are not derived from others (R95). -/
structure Artifact where
  name : List Byte
  entries : List (Byte × Word)
  totalBits : Word
  body : List Byte
  deriving DecidableEq, Repr

/-- The field a corruption is found in (R101; log 21). -/
inductive Corrupt where
  | nameLength
  | name
  | tableSize
  | entries
  | entry (e : Nat)
  | totalBits
  | trailingBytes
  deriving DecidableEq, Repr

/-- The bytes of the entries (R95, R98): a byte value and a little-endian count each. -/
def entryBytes (e : Byte × Word) : List Byte := e.1 :: wordBytes e.2

/-- The artifact as one byte sequence (R95, R96). -/
def Artifact.bytes (a : Artifact) : List Byte :=
  wordBytes (BitVec.ofNat 32 a.name.length) ++ a.name ++ wordBytes (BitVec.ofNat 32 a.entries.length) ++
    a.entries.flatMap entryBytes ++ wordBytes a.totalBits ++ a.body

/-- The entries of a table: the nonzero counts in ascending byte value (R98, R100). -/
def tableEntries (freq : Vector Word 256) : List (Byte × Word) :=
  allBytes.filterMap fun s => if entry freq s = 0 then none else some (s, entry freq s)

/-- The host encode sequence (R100), after the four commands of `compress` succeeded. -/
def artifactOf (name : List Byte) (s : State) : Artifact where
  name := name
  entries := tableEntries s.block.freq
  totalBits := s.block.totalBits
  body := s.mem.bytes s.block.dstAddr.toNat s.block.outLen.toNat

/-- Ascending byte values from `least` on, and counts 1 .. COUNT_MAX (R98). -/
def entriesWf (least : Nat) : List (Byte × Word) → Bool
  | [] => true
  | (s, c) :: rest =>
    decide (least ≤ s.toNat) && decide (0 < c.toNat) && decide (c ≤ Config.countMax) && entriesWf (s.toNat + 1) rest

/-- A well-formed artifact (R95, R98, R99). -/
def Artifact.wf (a : Artifact) : Bool :=
  decide (a.name.length < Config.spaceEnd) && decide (1 ≤ a.entries.length) && decide (a.entries.length ≤ 256) &&
    entriesWf 0 a.entries && decide (a.body.length = ceilDiv8 a.totalBits.toNat)

/-- `need(4)` and a little-endian uint32 (R96, R101). -/
def takeWord (field : Corrupt) : List Byte → Except Corrupt (Word × List Byte)
  | b0 :: b1 :: b2 :: b3 :: rest => .ok (wordOfBytes b0 b1 b2 b3, rest)
  | _ => .error field

/-- The entry loop of R101: `n` entries from entry `e` on, each byte value at least `least`, each count positive as an
int32. -/
def parseEntries : (n e least : Nat) → List Byte → Except Corrupt (List (Byte × Word) × List Byte)
  | 0, _, _, buf => .ok ([], buf)
  | n + 1, e, least, s :: c0 :: c1 :: c2 :: c3 :: rest =>
    if (wordOfBytes c0 c1 c2 c3).toInt ≤ 0 then .error (.entry e)
    else if s.toNat < least then .error (.entry e)
    else
      match parseEntries n (e + 1) (s.toNat + 1) rest with
      | .ok (es, buf) => .ok ((s, wordOfBytes c0 c1 c2 c3) :: es, buf)
      | .error f => .error f
  | _ + 1, _, _, _ => .error .entries

/-- The end of the parse (R101): totalBits and the body. -/
def parseBody (name : List Byte) (entries : List (Byte × Word)) (buf : List Byte) : Except Corrupt Artifact :=
  match takeWord .totalBits buf with
  | .error f => .error f
  | .ok (tb, body) =>
    if body.length < ceilDiv8 tb.toNat then .error .totalBits
    else if body.length > ceilDiv8 tb.toNat then .error .trailingBytes
    else .ok ⟨name, entries, tb, body⟩

/-- The middle of the parse (R101): tableSize and the entries. -/
def parseTable (name : List Byte) (buf : List Byte) : Except Corrupt Artifact :=
  match takeWord .tableSize buf with
  | .error f => .error f
  | .ok (size, rest) =>
    if size.toNat = 0 ∨ size.toNat > 256 then .error .tableSize
    else if rest.length < 5 * size.toNat then .error .entries
    else
      match parseEntries size.toNat 0 0 rest with
      | .error f => .error f
      | .ok (es, buf') => parseBody name es buf'

/-- The host parse (R101). -/
def parseArtifact (buf : List Byte) : Except Corrupt Artifact :=
  match takeWord .nameLength buf with
  | .error f => .error f
  | .ok (len, rest) =>
    if rest.length < len.toNat then .error .name
    else parseTable (rest.take len.toNat) (rest.drop len.toNat)

/-- The host decode sequence after a successful parse (R102; 70_reset_and_hazards.md R265 item 5): FREQ_CLEAR, the
entries, BUILD_TREE, TOTAL_BITS, the body placed at `src`, the regions with the output at `dst`, DECODE; each `wait` with
any number of polls in vain (log 17). -/
def decodeArtifact (polls : Instr → Nat) (a : Artifact) (src dst cap : Word) : List Event :=
  rebuildTree polls a.entries ++ [wr 0x030 a.totalBits] ++ memBytes src a.body ++
    decodeRegions polls src (BitVec.ofNat 32 (ceilDiv8 a.totalBits.toNat)) dst cap

end Sys2Proof.Machine
end

