-- ==== Sys2Proof/Safety.lean ====
section
/-! DEFINITION. The terms claims are stated in: what a region lets a command do, the bitstream of an input, the path of
a leaf, the stream a DECODE reads, and the invariant of the machine. -/

namespace Sys2Proof

open Sys2Proof.Machine

/-! ### Regions as a command sees them -/

/-- Byte `j` of the source region. -/
def sourceByte (s : State) (j : Nat) : Byte := s.mem.read (s.block.srcAddr.toNat + j)

/-- The first `n` bytes of the source region. -/
def sourcePrefix (s : State) (n : Nat) : List Byte := s.mem.bytes s.block.srcAddr.toNat n

/-- The bytes of the source region. -/
def sourceBytes (s : State) : List Byte := sourcePrefix s s.block.srcLen.toNat

/-- The platform completes the reads of the first `n` source bytes. -/
def SourceReadable (s : State) (n : Nat) : Prop :=
  ∀ j, j < n → s.platform.busOk (s.block.srcAddr.toNat + j) .read = true

/-- The platform completes the writes of the first `n` destination bytes. -/
def DestWritable (s : State) (n : Nat) : Prop :=
  ∀ k, k < n → s.platform.busOk (s.block.dstAddr.toNat + k) .write = true

/-- The three region checks of R132 all pass: no region passes 2^32, and the two do not intersect when both are
non-empty. -/
def RegionsLegal (b : Block) : Prop :=
  b.srcAddr.toNat + b.srcLen.toNat ≤ 4294967296 ∧ b.dstAddr.toNat + b.dstCap.toNat ≤ 4294967296 ∧
    (b.srcLen = 0 ∨ b.dstCap = 0 ∨ b.dstAddr.toNat + b.dstCap.toNat ≤ b.srcAddr.toNat ∨
      b.srcAddr.toNat + b.srcLen.toNat ≤ b.dstAddr.toNat)

/-- No address outside the `n` bytes from `base` on reads differently. -/
def MemSameOutside (m m' : Memory) (base n : Nat) : Prop :=
  ∀ a, ¬(base ≤ a ∧ a < base + n) → m'.read a = m.read a

/-- Nothing but the block, the memory and the record of bus accesses differs. -/
def SameAround (s t : State) : Prop :=
  t.platform = s.platform ∧ t.hostDirty = s.hostDirty ∧ t.hostOvertaken = s.hostOvertaken ∧ t.hostStale = s.hostStale ∧
    t.pending = s.pending ∧ t.replies = s.replies ∧ t.draws = s.draws

/-! ### Bits -/

/-- The bits of an input under a code table, in order (44_bit_packer.md R186: c(b_0) ++ c(b_1) ++ ...). -/
def bitstream (code : Vector Code 256) (input : List Byte) : List Bool :=
  input.flatMap fun b => codeBits (entry code b)

/-- The bits of the first `j` source bytes under the CODE table. -/
def packedBits (s : State) (j : Nat) : List Bool := bitstream s.block.code (sourcePrefix s j)

/-- ENCODE packs the first `j` source bytes without an error (R186): each is read and has a code, the bits fit the count,
and the whole bytes they make fit the destination and are written. -/
def PacksFirst (s : State) (j : Nat) : Prop :=
  j ≤ s.block.srcLen.toNat ∧ SourceReadable s j ∧ (∀ b ∈ sourcePrefix s j, (entry s.block.code b).len ≠ 0) ∧
    (packedBits s j).length ≤ 4294967295 ∧ (packedBits s j).length / 8 ≤ s.block.dstCap.toNat ∧
    DestWritable s ((packedBits s j).length / 8)

/-- The number whose binary digits are the bits, the first the most significant (10_state.md R48: VAL). -/
def bitsValue (bits : List Bool) : Nat := bits.foldl (fun v b => 2 * v + b.toNat) 0

/-- Bit `i` of the stream packed from `base` on (20_memory.md R84): bit 7 - (i mod 8) of byte i div 8. -/
def packedBit (m : Memory) (base i : Nat) : Bool := (m.read (base + i / 8)).getLsbD (7 - i % 8)

/-- The TOTAL_BITS bits that DECODE consumes. -/
def streamBits (s : State) : List Bool :=
  (List.range s.block.totalBits.toNat).map (packedBit s.mem s.block.srcAddr.toNat)

/-- How a stream ends for the decoder state machine (45_decoder.md R203, R205, R207). -/
inductive StreamEnd where
  /-- At the root after the last bit: success. -/
  | atRoot
  /-- At node `cur` inside a code that began at bit `start`: END_MID_CODE. -/
  | midCode (cur : NodeIx) (start : Nat)
  /-- Bit `i` is 1 in a single-leaf tree: BAD_CODE. -/
  | badBit (i : Nat)
  deriving DecidableEq, Repr

/-- The document's automaton on a list of bits, without regions or registers (45_decoder.md R202, R203): from bit `i`,
node `cur` and code start `start`, the symbols it emits and how it ends. -/
def automaton (node : Vector Node 511) (r : NodeIx) : List Bool → (i : Nat) → (cur : NodeIx) → (start : Nat) →
    List Byte × StreamEnd
  | [], _, cur, start => ([], if cur = r then .atRoot else .midCode cur start)
  | b :: rest, i, cur, start =>
    if (nodeAt node r).leaf then
      if b then ([], .badBit i)
      else ((nodeAt node r).sym :: (automaton node r rest (i + 1) cur (i + 1)).1,
        (automaton node r rest (i + 1) cur (i + 1)).2)
    else
      let next := child (nodeAt node cur) b
      if (nodeAt node next).leaf then
        ((nodeAt node next).sym :: (automaton node r rest (i + 1) r (i + 1)).1,
          (automaton node r rest (i + 1) r (i + 1)).2)
      else automaton node r rest (i + 1) next start

/-- Where the cursor stands at such an end, in a tree with root `r`. -/
def StreamEnd.cursor (r : NodeIx) : StreamEnd → NodeIx
  | .atRoot => r
  | .midCode cur _ => cur
  | .badBit _ => r

/-- The automaton on the first `i` bits of the stream. -/
def consumed (s : State) (i : Nat) : List Byte × StreamEnd :=
  automaton s.block.node s.block.root ((streamBits s).take i) 0 s.block.root 0

/-- DECODE consumes the first `i` bits without an error (R202): the bytes that hold them are read, none is a bad bit, and
what the automaton emits on them fits the destination and is written. -/
def Consumes (s : State) (i : Nat) : Prop :=
  SourceReadable s (ceilDiv8 i) ∧ (∀ j, (consumed s i).2 ≠ .badBit j) ∧
    (consumed s i).1.length ≤ s.block.dstCap.toNat ∧ DestWritable s (consumed s i).1.length

/-- The node a path leads to from node `i`: 0 left, 1 right; a leaf has no descendant (43_code_generator.md R171). -/
def descend (node : Vector Node 511) : NodeIx → List Bool → Option NodeIx
  | i, [] => some i
  | i, b :: rest => if (nodeAt node i).leaf then none else descend node (child (nodeAt node i) b) rest

/-! ### The tree -/

/-- How many byte values have a nonzero count: the number n of leaves (42_tree_builder.md R152). -/
def distinctSymbols (freq : Vector Word 256) : Nat := (allBytes.filter fun s => entry freq s ≠ 0).length

/-- The sum of all counts. -/
def freqSum (freq : Vector Word 256) : Nat := (allBytes.map fun s => (entry freq s).toNat).sum

/-- The NODE slot of a number. -/
def slot (b : Block) (i : Nat) : Node := nodeAt b.node (BitVec.ofNat 9 i)

/-! ### The invariant (10_state.md R26, R28, R29, R51, R54; 20_memory.md R78, R82) -/

/-- Memory is in canonical form and lists no address of 2^32 or more; the block accessed none either (R82). -/
def memoryInv (s : State) : Prop :=
  s.mem.wf = true ∧ s.mem.inSpace = true ∧ ∀ x ∈ s.bus, x.addr < Config.spaceEnd

/-- DONE and ERR are never both 1 (R26); while BUSY neither is, and no error is recorded (R126); ERR comes with a code
and DONE without one (R28, R130); ERR_INFO is 0 whenever ERR_CODE is 0 (R29). -/
def statusInv (b : Block) : Prop :=
  (b.done && b.err) = false ∧
    (busy b = true → b.done = false ∧ b.err = false ∧ b.errCode = .none) ∧
    (b.err = true → b.errCode ≠ .none) ∧ (b.done = true → b.errCode = .none) ∧ (b.errCode = .none → b.errInfo = 0)

/-- ERR_CODE = 0 exactly when STATUS.ERR = 0 (60_exceptions.md R227). An acknowledge of ERR ends it, the next start brings
it back (10_state.md R28; log 12). -/
def codeMatchesErr (b : Block) : Prop := b.errCode = .none ↔ b.err = false

/-- In Busy(w) LAST_CMD is w (R25), and the validity clears of the start of w were made (R126). -/
def startInv (b : Block) : Prop :=
  ∀ w, b.engine = .busy w → b.lastCmd = w ∧
    (w = encodeWord .freqClear ∨ w = encodeWord .freqCount ∨ w = encodeWord .buildTree →
      b.treeValid = false ∧ b.codeValid = false) ∧
    (w = encodeWord .genCodes → b.codeValid = false)

/-- TREE_VALID = 1 when the NODE table holds the tree built from the present FREQ table (R26, R54). -/
def treeInv (b : Block) : Prop :=
  b.treeValid = true →
    checkFreqRange b.freq = none ∧ leaves b.freq ≠ [] ∧
      b.nleaf = BitVec.ofNat 9 (leaves b.freq).length ∧
      b.nnode = BitVec.ofNat 9 (buildArena b.freq).length ∧
      b.root = BitVec.ofNat 9 ((buildArena b.freq).length - 1) ∧
      ∀ i, i < (buildArena b.freq).length → slot b i = arenaAt (buildArena b.freq) i

/-- CODE_VALID = 1 implies TREE_VALID = 1 (R54), and the CODE table then holds the codes of the present tree (R26). -/
def codeInv (b : Block) : Prop :=
  b.codeValid = true →
    b.treeValid = true ∧ b.code = genTable b.node b.root ∧ b.maxLen = maxLenOf b.code

/-- The invariant of the machine. -/
def Inv (s : State) : Prop :=
  memoryInv s ∧ statusInv s.block ∧ startInv s.block ∧ treeInv s.block ∧ codeInv s.block

/-! ### The next input -/

/-- The offset and word of a register transaction that is a legal write (20_memory.md R71, R72). -/
def writtenAt (a : RegAccess) : Option (Offset × Word) :=
  match a.kind with
  | .read => none
  | .write => if a.legal then some (a.offset, a.data) else none

/-- The legal register write an input makes, at the block's port or by host address, if it makes one. -/
def registerWrite (p : Platform) (e : Event) : Option (Offset × Word) :=
  match e with
  | .reg a => writtenAt a
  | .hostBus addr kind width data => (windowOffset p addr).bind fun o => writtenAt ⟨o, kind, width, data⟩
  | .memWrite _ _ | .memRead _ | .writeBack _ | .discard _ | .hardReset | .engineTurn => none

/-- The next input is a legal write of the word at the offset. -/
def NextWrites (s : State) (o : Offset) (v : Word) : Prop :=
  ∃ e, s.pending.head? = some e ∧ registerWrite s.platform e = some (o, v)

/-- The next input resets the block (70_reset_and_hazards.md R260, R261): rst_n, or a 1 in bit 0 of CTRL. -/
def NextResets (s : State) : Prop :=
  s.pending.head? = some .hardReset ∨ ∃ v : Word, v.getLsbD 0 = true ∧ NextWrites s 0x004 v

/-- The next step is the engine's. -/
def NextIsEngineTurn (s : State) : Prop := s.pending = [] ∨ s.pending.head? = some .engineTurn

/-! ### Runs -/

/-- `t` is reached from `s` by steps. -/
inductive Steps : State → State → Prop where
  | refl (s : State) : Steps s s
  | tail {s t u : State} : Steps s t → step t = .next u → Steps s u

/-- A step that neither faults nor is refused. -/
def Goes (s : State) : Prop := ∃ t, step s = .next t

end Sys2Proof
end

