-- ==== Sys2Proof/Certificates/Slice0/Obligations.lean ====
section
/-! DEFINITION. The statements about the machine, each a numbered rule of spec/ or drawn from several. -/

open Sys2Proof Sys2Proof.Machine

/-! ### Encoding and dispatch -/

/-- R127, R135: in Busy(w) the engine's turn is Exec(w); with no input pending, or with its turn next, a step is exec. -/
def Obligations.StepRunsDecodedCommand : Prop :=
  ∀ (s : State) (w : Word) (i : Instr), s.block.engine = .busy w → decodeWord w = .ok i →
    (s.pending = [] → step s = exec i s) ∧
    (∀ rest, s.pending = .engineTurn :: rest → step s = exec i { s with pending := rest })

/-- R111, R114: the six words of the opcode map decode to their commands, and four words that the map leaves out do not
decode. -/
def Obligations.TabledWordsDecode : Prop :=
  decode [0x01#8, 0x00#8, 0x00#8, 0x00#8] = .ok (.freqClear, []) ∧
  decode [0x02#8, 0x00#8, 0x00#8, 0x00#8] = .ok (.freqCount, []) ∧
  decode [0x03#8, 0x00#8, 0x00#8, 0x00#8] = .ok (.buildTree, []) ∧
  decode [0x04#8, 0x00#8, 0x00#8, 0x00#8] = .ok (.genCodes, []) ∧
  decode [0x05#8, 0x00#8, 0x00#8, 0x00#8] = .ok (.encode, []) ∧
  decode [0x06#8, 0x00#8, 0x00#8, 0x00#8] = .ok (.decode, []) ∧
  decode [0x00#8, 0x00#8, 0x00#8, 0x00#8] = .error .opcodeUndefined ∧
  decode [0x07#8, 0x00#8, 0x00#8, 0x00#8] = .error .opcodeUndefined ∧
  decode [0x02#8, 0x01#8, 0x00#8, 0x00#8] = .error .reservedBitsSet ∧
  decode [0x05#8, 0x00#8, 0x00#8, 0x80#8] = .error .reservedBitsSet

/-- R111, R117: decoding an encoded command gives it back, with the bytes after it. -/
def Obligations.DecodeOfEncode : Prop :=
  ∀ (i : Instr) (rest : List Byte), i.wellFormed = true → decode (encodeBytes i ++ rest) = .ok (i, rest)

/-- R111: a word selects a command exactly when w[31:8] = 0 and w[7:0] is 0x01 to 0x06, and the command it selects is
the one of the opcode map. -/
def Obligations.WordSelectsCommandExactly : Prop :=
  (∀ w : Word, (∃ i, decodeWord w = .ok i) ↔
    w.extractLsb' 8 24 = 0#24 ∧ 1 ≤ (w.extractLsb' 0 8).toNat ∧ (w.extractLsb' 0 8).toNat ≤ 6) ∧
  (∀ (w : Word) (i : Instr), decodeWord w = .ok i ↔
    match i with
    | .freqClear => w = 0x00000001#32
    | .freqCount => w = 0x00000002#32
    | .buildTree => w = 0x00000003#32
    | .genCodes => w = 0x00000004#32
    | .encode => w = 0x00000005#32
    | .decode => w = 0x00000006#32)

/-- R113, R114, R131: an illegal word ends with ILLEGAL_CMD and the word as ERR_INFO, and changes nothing else; 0, 0x102
and every word with a bit of [31:8] set or an undefined opcode is illegal. -/
def Obligations.IllegalWordOnlyReportsItself : Prop :=
  (∀ (s : State) (w : Word), s.block.engine = .busy w → (∀ i, decodeWord w ≠ .ok i) →
    engineTurn s = .next { s with block := { s.block with
      errCode := .illegalCmd, errInfo := w, engine := .idle, err := true } }) ∧
  (∀ (w : Word), (w.extractLsb' 8 24 ≠ 0#24 ∨ w.extractLsb' 0 8 = 0#8 ∨ 7 ≤ (w.extractLsb' 0 8).toNat) →
    ∀ i, decodeWord w ≠ .ok i) ∧
  (∀ i, decodeWord 0x00000000#32 ≠ .ok i) ∧ (∀ i, decodeWord 0x00000102#32 ≠ .ok i)

/-- R126: an accepted CMD write starts the command; it changes no memory. (On a non-coherent platform the host has written
the source region back, and its dirty copies of destination bytes are the model's choice: log 10. Without any, and on every
coherent platform, and for every word but those of ENCODE and DECODE, memory is the same. With a source byte that the host
has not written back on such a platform, the CMD write is refused: R91, K1-13, log 10.) -/
def Obligations.CommandStartEffects : Prop :=
  ∀ (s : State) (w : Word), s.block.engine = .idle →
    (s.platform.dmaCoherent = false → w = 0x00000002#32 ∨ w = 0x00000005#32 ∨ w = 0x00000006#32 →
      (∃ a ∈ s.hostDirty, (srcRegion s.block).has a = true) →
      regAccess ⟨0x008, .write, 32, w⟩ s = .refused .regionNotWrittenBack) ∧
    (sourceUnwritten w s = true → regAccess ⟨0x008, .write, 32, w⟩ s = .refused .regionNotWrittenBack) ∧
    (sourceUnwritten w s = false → ∃ t, regAccess ⟨0x008, .write, 32, w⟩ s = .next t ∧
      t.block = { s.block with
        lastCmd := w
        done := false
        err := false
        errCode := .none
        errInfo := 0
        treeValid :=
          if w.extractLsb' 8 24 = 0#24 ∧ (w.extractLsb' 0 8 = 1#8 ∨ w.extractLsb' 0 8 = 2#8 ∨ w.extractLsb' 0 8 = 3#8)
          then false else s.block.treeValid
        codeValid :=
          if w.extractLsb' 8 24 = 0#24 ∧ (w.extractLsb' 0 8 = 1#8 ∨ w.extractLsb' 0 8 = 2#8 ∨ w.extractLsb' 0 8 = 3#8)
          then false else if w = 0x00000004#32 then false else s.block.codeValid
        engine := .busy w } ∧
      (∀ a, (dstRegion s.block).has a = false ∨ a ∉ s.hostDirty → t.mem.read a = s.mem.read a) ∧
      (s.platform.dmaCoherent = true ∨ s.hostDirty = [] ∨ (w ≠ 0x00000005#32 ∧ w ≠ 0x00000006#32) →
        t.mem = s.mem ∧ t.draws = s.draws ∧ t.hostDirty = s.hostDirty) ∧
      t.platform = s.platform ∧ t.pending = s.pending ∧ t.bus = s.bus ∧ t.replies = .done :: s.replies)

/-- R129, R130, R241: a started command ends in one step, Idle, with exactly one of DONE and ERR, and changes no register
that only the host or a start writes. -/
def Obligations.CommandHasExactlyOneOutcome : Prop :=
  ∀ (i : Instr) (s : State), busy s.block = true → s.block.done = false → s.block.err = false →
    s.block.errCode = .none → s.block.errInfo = 0 →
    ∃ t, exec i s = .next t ∧ t.block.engine = .idle ∧
      ((t.block.done = true ∧ t.block.err = false ∧ t.block.errCode = .none ∧ t.block.errInfo = 0) ∨
        (t.block.done = false ∧ t.block.err = true ∧ t.block.errCode ≠ .none)) ∧
      t.block.lastCmd = s.block.lastCmd ∧ t.block.ovr = s.block.ovr ∧ t.block.doneIe = s.block.doneIe ∧
      t.block.errIe = s.block.errIe ∧ t.block.srcAddr = s.block.srcAddr ∧ t.block.srcLen = s.block.srcLen ∧
      t.block.dstAddr = s.block.dstAddr ∧ t.block.dstCap = s.block.dstCap ∧ SameAround s t

/-! ### FREQ_CLEAR and FREQ_COUNT -/

/-- R140: from the CMD write to completion, FREQ_CLEAR zeroes FREQ, clears both validity flags, always ends with DONE,
and touches nothing else. -/
def Obligations.FreqClearZeroesTable : Prop :=
  ∀ s : State, s.block.engine = .idle →
    ∃ t, regAccess ⟨0x008, .write, 32, 0x00000001#32⟩ s = .next t ∧
      exec .freqClear t = .next { t with block := { s.block with
        lastCmd := 0x00000001#32
        done := true
        err := false
        errCode := .none
        errInfo := 0
        treeValid := false
        codeValid := false
        engine := .idle
        freq := Vector.replicate 256 0 } } ∧
      t.mem = s.mem ∧ t.bus = s.bus

/-- R143: where the source is in range, readable and no count passes COUNT_MAX, FREQ_COUNT completes, FREQ[b] is the
number of source bytes equal to b, the entries sum to SRC_LEN, and an entry is nonzero exactly for the bytes that occur;
each source byte was read once, in ascending order, and nothing else changed. -/
def Obligations.FreqCountIsHistogram : Prop :=
  ∀ s : State, s.block.srcLen ≠ 0 → s.block.srcAddr.toNat + s.block.srcLen.toNat ≤ 4294967296 →
    SourceReadable s s.block.srcLen.toNat → (∀ b : Byte, (sourceBytes s).count b ≤ 2147483647) →
    ∃ t, exec .freqCount s = .next t ∧
      (∀ b : Byte, (entry t.block.freq b).toNat = (sourceBytes s).count b) ∧
      freqSum t.block.freq = s.block.srcLen.toNat ∧
      (∀ b : Byte, 1 ≤ (entry t.block.freq b).toNat ↔ b ∈ sourceBytes s) ∧
      t.block = { s.block with freq := t.block.freq, engine := .idle, done := true } ∧
      t.mem = s.mem ∧ SameAround s t ∧
      t.bus = ((List.range s.block.srcLen.toNat).map
        fun j => (⟨.read, s.block.srcAddr.toNat + j⟩ : BusAccess)).reverse ++ s.bus

/-- R142, R240: the four errors of FREQ_COUNT, in the order checked; on each FREQ is all zero and nothing but the error
registers changes. -/
def Obligations.FreqCountErrorsLeaveZeroTable : Prop :=
  ∀ s : State,
    let failed := fun (c : ErrCode) (info : Word) => { s.block with
      freq := Vector.replicate 256 0, errCode := c, errInfo := info, engine := .idle, err := true }
    (s.block.srcLen = 0 → exec .freqCount s = .next { s with block := failed .emptyInput 0 }) ∧
    (s.block.srcLen ≠ 0 → s.block.srcAddr.toNat + s.block.srcLen.toNat > 4294967296 →
      exec .freqCount s = .next { s with block := failed .addrRange 0 }) ∧
    (s.block.srcAddr.toNat + s.block.srcLen.toNat ≤ 4294967296 → ∀ j, j < s.block.srcLen.toNat → SourceReadable s j →
      (∀ b : Byte, (sourcePrefix s j).count b ≤ 2147483647) →
      (s.platform.busOk (s.block.srcAddr.toNat + j) .read = false →
        ∃ t, exec .freqCount s = .next t ∧
          t.block = failed .busError (BitVec.ofNat 32 (s.block.srcAddr.toNat + j)) ∧ t.mem = s.mem ∧ SameAround s t) ∧
      (s.platform.busOk (s.block.srcAddr.toNat + j) .read = true →
        (sourcePrefix s j).count (sourceByte s j) = 2147483647 →
        ∃ t, exec .freqCount s = .next t ∧
          t.block = failed .freqRange ((sourceByte s j).zeroExtend 32) ∧ t.mem = s.mem ∧ SameAround s t))

/-! ### BUILD_TREE -/

/-- R150, R152: where every count is in range and one is nonzero, BUILD_TREE completes with n leaves, 2n - 1 nodes and the
root last, and sets TREE_VALID; everything else is unchanged. That the NODE slots from NNODE on are unchanged too is the
model's choice (log 24). -/
def Obligations.BuildTreeCompletes : Prop :=
  ∀ s : State, (∀ b : Byte, (entry s.block.freq b).toNat ≤ 2147483647) → 1 ≤ distinctSymbols s.block.freq →
    ∃ t, exec .buildTree s = .next t ∧
      t.block = { s.block with
        node := t.block.node
        nleaf := BitVec.ofNat 9 (distinctSymbols s.block.freq)
        nnode := BitVec.ofNat 9 (2 * distinctSymbols s.block.freq - 1)
        root := BitVec.ofNat 9 (2 * distinctSymbols s.block.freq - 2)
        treeValid := true
        engine := .idle
        done := true } ∧
      (∀ i, 2 * distinctSymbols s.block.freq - 1 ≤ i → i < 511 → slot t.block i = slot s.block i) ∧
      treeInv t.block ∧
      t.mem = s.mem ∧ t.bus = s.bus ∧ SameAround s t

/-- R150, R151, R240: BUILD_TREE reports the smallest byte value whose count passes COUNT_MAX, else TREE_EMPTY when every
count is 0; only the error registers change. -/
def Obligations.BuildTreeRefusesBadTables : Prop :=
  ∀ s : State,
    let failed := fun (c : ErrCode) (info : Word) => { s with block := { s.block with
      errCode := c, errInfo := info, engine := .idle, err := true } }
    (∀ b : Byte, (entry s.block.freq b).toNat > 2147483647 →
      (∀ c : Byte, c.toNat < b.toNat → (entry s.block.freq c).toNat ≤ 2147483647) →
      exec .buildTree s = .next (failed .freqRange (b.zeroExtend 32))) ∧
    ((∀ b : Byte, entry s.block.freq b = 0) → exec .buildTree s = .next (failed .treeEmpty 0))

/-- R47: the shape of the tree when TREE_VALID = 1. -/
def Obligations.ValidTreeHasHuffmanShape : Prop :=
  ∀ b : Block, b.treeValid = true → treeInv b →
    ∃ n, b.nleaf.toNat = n ∧ 1 ≤ n ∧ n ≤ 256 ∧ b.nnode.toNat = 2 * n - 1 ∧ b.root.toNat = 2 * n - 2 ∧
      (∀ i, i < n → (slot b i).leaf = true ∧ (slot b i).freq.toNat = (entry b.freq (slot b i).sym).toNat ∧
        1 ≤ (slot b i).freq.toNat ∧ (slot b i).left = 511#9 ∧ (slot b i).right = 511#9) ∧
      (∀ i j, i < j → j < n → (slot b i).sym.toNat < (slot b j).sym.toNat) ∧
      (∀ i, n ≤ i → i < 2 * n - 1 → (slot b i).leaf = false ∧ (slot b i).sym = 0 ∧ (slot b i).left.toNat < i ∧
        (slot b i).right.toNat < i ∧ (slot b i).left ≠ (slot b i).right ∧
        (slot b i).freq.toNat =
          (slot b (slot b i).left.toNat).freq.toNat + (slot b (slot b i).right.toNat).freq.toNat) ∧
      (∀ j, j < 2 * n - 2 → ∃ i, (n ≤ i ∧ i < 2 * n - 1 ∧ ((slot b i).left.toNat = j ∨ (slot b i).right.toNat = j)) ∧
        ∀ i', (n ≤ i' ∧ i' < 2 * n - 1 ∧ ((slot b i').left.toNat = j ∨ (slot b i').right.toNat = j)) → i' = i) ∧
      (slot b (2 * n - 2)).freq.toNat = freqSum b.freq

/-- R152, R153: a node is extracted before every other active node: its frequency is smaller, or equal with a smaller
index. So in a valid tree, of the slots before an internal slot that are no child yet, its LEFT comes first and its RIGHT
second. -/
def Obligations.ExtractionFollowsPriority : Prop :=
  (∀ (arena : List Node) (active : List Nat), active ≠ [] →
    ∃ a rest, takeMin arena active = some (a, rest) ∧ a ∈ active ∧ rest = active.erase a ∧
      ∀ j ∈ active, j ≠ a →
        (arenaAt arena a).freq.toNat < (arenaAt arena j).freq.toNat ∨
          ((arenaAt arena a).freq.toNat = (arenaAt arena j).freq.toNat ∧ a < j)) ∧
  (∀ b : Block, b.treeValid = true → treeInv b → ∀ i, b.nleaf.toNat ≤ i → i < b.nnode.toNat →
    let isActive := fun j => j < i ∧ ∀ k, b.nleaf.toNat ≤ k → k < i →
      (slot b k).left.toNat ≠ j ∧ (slot b k).right.toNat ≠ j
    let precedes := fun j k => (slot b j).freq.toNat < (slot b k).freq.toNat ∨
      ((slot b j).freq.toNat = (slot b k).freq.toNat ∧ j < k)
    let left := (slot b i).left.toNat
    let right := (slot b i).right.toNat
    isActive left ∧ isActive right ∧ left ≠ right ∧
      ∀ j, isActive j → j ≠ left → precedes left j ∧ (j ≠ right → precedes right j))

/-- R156: the tree is a function of the 256 FREQ values alone. -/
def Obligations.TreeDependsOnFreqAlone : Prop :=
  ∀ s u : State, s.block.freq = u.block.freq → s.block.treeValid = false → u.block.treeValid = false →
    ∃ t v, exec .buildTree s = .next t ∧ exec .buildTree u = .next v ∧
      t.block.treeValid = v.block.treeValid ∧
      (t.block.treeValid = true →
        t.block.nleaf = v.block.nleaf ∧ t.block.nnode = v.block.nnode ∧ t.block.root = v.block.root ∧
          ∀ i, i < t.block.nnode.toNat → slot t.block i = slot v.block i)

/-- R155: with exactly one nonzero count BUILD_TREE writes one leaf and no internal node. That the other NODE slots are
unchanged is the model's choice (log 24). -/
def Obligations.SingleSymbolGivesSingleLeaf : Prop :=
  ∀ (s : State) (b : Byte), entry s.block.freq b ≠ 0 → (entry s.block.freq b).toNat ≤ 2147483647 →
    (∀ c : Byte, c ≠ b → entry s.block.freq c = 0) →
    ∃ t, exec .buildTree s = .next t ∧ t.block.nleaf = 1#9 ∧ t.block.nnode = 1#9 ∧ t.block.root = 0#9 ∧
      slot t.block 0 = ⟨true, b, (entry s.block.freq b).zeroExtend 40, 511#9, 511#9⟩ ∧
      (∀ i, 1 ≤ i → i < 511 → slot t.block i = slot s.block i) ∧ t.block.treeValid = true ∧ t.block.done = true

/-! ### GEN_CODES -/

/-- R170, R171, R172, R173, R48: with a valid tree GEN_CODES completes: every leaf of a tree of two leaves or more gets
its path from the root as its code, a single leaf gets the 1-bit code 0, every other byte value gets none, MAX_LEN is the
largest length, CODE_VALID is set, and nothing else changes. -/
def Obligations.GenCodesRecordsPaths : Prop :=
  ∀ s : State, s.block.treeValid = true → treeInv s.block →
    ∃ t, exec .genCodes s = .next t ∧
      t.block = { s.block with
        code := t.block.code, maxLen := t.block.maxLen, codeValid := true, engine := .idle, done := true } ∧
      t.mem = s.mem ∧ t.bus = s.bus ∧ SameAround s t ∧
      ((slot s.block s.block.root.toNat).leaf = false →
        ∀ (path : List Bool) (i : NodeIx), descend s.block.node s.block.root path = some i →
          (nodeAt s.block.node i).leaf = true →
          1 ≤ path.length ∧ path.length ≤ 255 ∧
          entry t.block.code (nodeAt s.block.node i).sym =
            ⟨BitVec.ofNat 8 path.length, BitVec.ofNat 256 (bitsValue path)⟩) ∧
      ((slot s.block s.block.root.toNat).leaf = true →
        entry t.block.code (slot s.block s.block.root.toNat).sym = ⟨1, 0⟩) ∧
      (∀ b : Byte, entry s.block.freq b = 0 → entry t.block.code b = ⟨0, 0⟩) ∧
      (∀ b : Byte, entry s.block.freq b ≠ 0 → (entry t.block.code b).len ≠ 0) ∧
      (∀ b : Byte, (entry t.block.code b).len.toNat ≤ t.block.maxLen.toNat) ∧
      (∃ b : Byte, (entry t.block.code b).len = t.block.maxLen)

/-- R170, R240: GEN_CODES without a valid tree is NO_TREE and changes only the error registers. -/
def Obligations.GenCodesNeedsTree : Prop :=
  ∀ s : State, s.block.treeValid = false →
    exec .genCodes s = .next { s with block := { s.block with
      errCode := .noTree, errInfo := 0, engine := .idle, err := true } }

/-- R174: no code is a prefix of another, whenever CODE_VALID = 1. -/
def Obligations.CodesArePrefixFree : Prop :=
  ∀ b : Block, b.codeValid = true → treeInv b → codeInv b →
    ∀ s t : Byte, s ≠ t → (entry b.code s).len ≠ 0 → (entry b.code t).len ≠ 0 →
      ¬(codeBits (entry b.code s)) <+: (codeBits (entry b.code t))

/-- R175: the Kraft sum of the codes is 1 for two leaves or more and 1/2 for one, and MAX_LEN is at most NLEAF - 1, or
1 for one leaf. -/
def Obligations.CodeLengthsFillTheTree : Prop :=
  ∀ b : Block, b.codeValid = true → treeInv b → codeInv b →
    let kraft := ((allBytes.filter fun s => (entry b.code s).len ≠ 0).map
      fun s => 2 ^ (255 - (entry b.code s).len.toNat)).sum
    (2 ≤ b.nleaf.toNat → kraft = 2 ^ 255 ∧ b.maxLen.toNat ≤ b.nleaf.toNat - 1) ∧
    (b.nleaf.toNat = 1 → 2 * kraft = 2 ^ 255 ∧ b.maxLen.toNat = 1)

/-! ### ENCODE -/

/-- R186, R187: where the codes are valid, the regions legal and accessible, every source byte has a code, the bit count
fits 32 bits and the destination is large enough, ENCODE completes: TOTAL_BITS is the number of bits (the sum of the code lengths, at least
SRC_LEN), OUT_LEN its bytes, bitstream bit i is bit 7 - (i mod 8) of destination byte i div 8, padding is 0, and nothing
else changes. -/
def Obligations.EncodePacksBitstream : Prop :=
  ∀ s : State, s.mem.wf = true → s.block.codeValid = true → s.block.srcLen ≠ 0 → RegionsLegal s.block →
    SourceReadable s s.block.srcLen.toNat →
    (∀ b ∈ sourceBytes s, (entry s.block.code b).len ≠ 0) →
    (bitstream s.block.code (sourceBytes s)).length ≤ 4294967295 →
    ceilDiv8 (bitstream s.block.code (sourceBytes s)).length ≤ s.block.dstCap.toNat →
    DestWritable s (ceilDiv8 (bitstream s.block.code (sourceBytes s)).length) →
    ∃ t, exec .encode s = .next t ∧
      t.block = { s.block with
        totalBits := BitVec.ofNat 32 (bitstream s.block.code (sourceBytes s)).length
        outLen := BitVec.ofNat 32 (ceilDiv8 (bitstream s.block.code (sourceBytes s)).length)
        engine := .idle
        done := true } ∧
      (bitstream s.block.code (sourceBytes s)).length =
        ((sourceBytes s).map fun b => (entry s.block.code b).len.toNat).sum ∧
      s.block.srcLen.toNat ≤ t.block.totalBits.toNat ∧
      (∀ i, i < 8 * t.block.outLen.toNat → packedBit t.mem s.block.dstAddr.toNat i =
        (bitstream s.block.code (sourceBytes s)).getD i false) ∧
      MemSameOutside s.mem t.mem s.block.dstAddr.toNat t.block.outLen.toNat ∧ SameAround s t

/-- R185, R240: the checks of ENCODE before it packs, in order: NO_CODES, EMPTY_INPUT, ADDR_RANGE for the source, for the
destination, REGION_OVERLAP. Each leaves OUT_LEN = 0, makes no access, and changes only the error registers besides. -/
def Obligations.EncodeChecksInOrder : Prop :=
  ∀ s : State,
    let failed := fun (c : ErrCode) (info : Word) => { s with block := { s.block with
      outLen := 0, errCode := c, errInfo := info, engine := .idle, err := true } }
    (s.block.codeValid = false → exec .encode s = .next (failed .noCodes 0)) ∧
    (s.block.codeValid = true →
      (s.block.srcLen = 0 → exec .encode s = .next (failed .emptyInput 0)) ∧
      (s.block.srcLen ≠ 0 →
        (s.block.srcAddr.toNat + s.block.srcLen.toNat > 4294967296 →
          exec .encode s = .next (failed .addrRange 0)) ∧
        (s.block.srcAddr.toNat + s.block.srcLen.toNat ≤ 4294967296 →
          (s.block.dstAddr.toNat + s.block.dstCap.toNat > 4294967296 →
            exec .encode s = .next (failed .addrRange 1)) ∧
          (s.block.dstAddr.toNat + s.block.dstCap.toNat ≤ 4294967296 → ¬RegionsLegal s.block →
            exec .encode s = .next (failed .regionOverlap 0)))))

/-- R188, R191: the first source byte without a code ends ENCODE with NO_CODE and its offset; the whole bytes of the
stream before it are written, and TOTAL_BITS is unchanged. -/
def Obligations.EncodeStopsAtUncodedByte : Prop :=
  ∀ (s : State) (j : Nat), s.mem.wf = true → s.block.codeValid = true → RegionsLegal s.block →
    j < s.block.srcLen.toNat → SourceReadable s (j + 1) → (∀ b ∈ sourcePrefix s j, (entry s.block.code b).len ≠ 0) →
    (entry s.block.code (sourceByte s j)).len = 0 →
    (bitstream s.block.code (sourcePrefix s j)).length ≤ 4294967295 →
    (bitstream s.block.code (sourcePrefix s j)).length / 8 ≤ s.block.dstCap.toNat →
    DestWritable s ((bitstream s.block.code (sourcePrefix s j)).length / 8) →
    ∃ t, exec .encode s = .next t ∧
      t.block = { s.block with
        outLen := BitVec.ofNat 32 ((bitstream s.block.code (sourcePrefix s j)).length / 8)
        errCode := .noCode
        errInfo := BitVec.ofNat 32 j
        engine := .idle
        err := true } ∧
      (∀ i, i < 8 * t.block.outLen.toNat → packedBit t.mem s.block.dstAddr.toNat i =
        (bitstream s.block.code (sourcePrefix s j)).getD i false) ∧
      MemSameOutside s.mem t.mem s.block.dstAddr.toNat t.block.outLen.toNat

/-- R186, R189, R190, R191: how ENCODE ends while it packs. With the first j source bytes packed: BUS_ERROR where byte j
cannot be read; BITS_OVERFLOW where its code would make the bit count pass 2^32 - 1, before any bit of that code is packed;
else, at a destination byte q that its code completes, DST_OVERFLOW at capacity or BUS_ERROR where the write fails. With
all of them packed, the same two for the trailing partial byte. Each time OUT_LEN counts the whole bytes written, which
hold the stream, and nothing else changes: TOTAL_BITS and the tables stay. -/
def Obligations.EncodeStopsWhilePacking : Prop :=
  ∀ (s : State) (j : Nat), s.mem.wf = true → s.block.codeValid = true → RegionsLegal s.block → PacksFirst s j →
    let ends := fun (c : ErrCode) (info : Nat) (whole : Nat) (bits : List Bool) => ∃ t, exec .encode s = .next t ∧
      t.block = { s.block with
        outLen := BitVec.ofNat 32 whole, errCode := c, errInfo := BitVec.ofNat 32 info, engine := .idle, err := true } ∧
      (∀ i, i < 8 * whole → packedBit t.mem s.block.dstAddr.toNat i = bits.getD i false) ∧
      MemSameOutside s.mem t.mem s.block.dstAddr.toNat whole ∧ SameAround s t
    let stopsAtByte := fun (q : Nat) (bits : List Bool) =>
      (q = s.block.dstCap.toNat → ends .dstOverflow q q bits) ∧
      (q < s.block.dstCap.toNat → s.platform.busOk (s.block.dstAddr.toNat + q) .write = false →
        ends .busError (s.block.dstAddr.toNat + q) q bits)
    let packed := packedBits s j
    let next := packedBits s (j + 1)
    (j < s.block.srcLen.toNat → s.platform.busOk (s.block.srcAddr.toNat + j) .read = false →
      ends .busError (s.block.srcAddr.toNat + j) (packed.length / 8) packed) ∧
    (j < s.block.srcLen.toNat → s.platform.busOk (s.block.srcAddr.toNat + j) .read = true →
      (entry s.block.code (sourceByte s j)).len ≠ 0 →
      (next.length > 4294967295 → ends .bitsOverflow j (packed.length / 8) packed) ∧
      (next.length ≤ 4294967295 → ∀ q, packed.length / 8 ≤ q → q < next.length / 8 → DestWritable s q →
        stopsAtByte q next)) ∧
    (j = s.block.srcLen.toNat → packed.length % 8 ≠ 0 → stopsAtByte (packed.length / 8) packed)

/-- R189, R191, and the frame of ENCODE on every outcome: only OUT_LEN, the completion registers and, on success,
TOTAL_BITS change; OUT_LEN never passes DST_CAP, and no byte outside the first OUT_LEN destination bytes changes. -/
def Obligations.EncodeFrame : Prop :=
  ∀ s : State, ∃ t, exec .encode s = .next t ∧
    t.block = { s.block with
      outLen := t.block.outLen
      totalBits := t.block.totalBits
      engine := .idle
      done := t.block.done
      err := t.block.err
      errCode := t.block.errCode
      errInfo := t.block.errInfo } ∧
    (s.block.err = false → t.block.err = true → t.block.totalBits = s.block.totalBits) ∧
    t.block.outLen.toNat ≤ s.block.dstCap.toNat ∧
    MemSameOutside s.mem t.mem s.block.dstAddr.toNat t.block.outLen.toNat ∧ SameAround s t

/-! ### DECODE -/

/-- R202, R203, R204, R205, R207, R208: where the tree is valid, the body present and the regions legal, DECODE does what
the automaton does. With every access completed and the destination large enough it writes what the automaton emits and
ends as it ends: DONE at the root, END_MID_CODE inside a code, BAD_CODE on a 1 bit in a single-leaf tree. With the first i
bits consumed, it ends with BUS_ERROR where the byte of bit i cannot be read, and, where bit i emits a byte, with
DST_OVERFLOW at capacity or BUS_ERROR where the write fails. -/
def Obligations.DecodeFollowsAutomaton : Prop :=
  ∀ s : State, s.mem.wf = true → s.block.treeValid = true → ceilDiv8 s.block.totalBits.toNat ≤ s.block.srcLen.toNat →
    RegionsLegal s.block →
    (SourceReadable s (ceilDiv8 s.block.totalBits.toNat) →
      let out := automaton s.block.node s.block.root (streamBits s) 0 s.block.root 0
      out.1.length ≤ s.block.dstCap.toNat → DestWritable s out.1.length →
      ∃ t, exec .decode s = .next t ∧
        t.block = { s.block with
          outLen := BitVec.ofNat 32 out.1.length
          decBits := match out.2 with
            | .atRoot => s.block.totalBits
            | .midCode _ _ => s.block.totalBits
            | .badBit i => BitVec.ofNat 32 (i + 1)
          decNode := out.2.cursor s.block.root
          engine := .idle
          done := match out.2 with
            | .atRoot => true
            | .midCode _ _ => s.block.done
            | .badBit _ => s.block.done
          err := match out.2 with
            | .atRoot => s.block.err
            | .midCode _ _ => true
            | .badBit _ => true
          errCode := match out.2 with
            | .atRoot => s.block.errCode
            | .midCode _ _ => .endMidCode
            | .badBit _ => .badCode
          errInfo := match out.2 with
            | .atRoot => s.block.errInfo
            | .midCode _ start => BitVec.ofNat 32 start
            | .badBit i => BitVec.ofNat 32 i } ∧
        t.mem.bytes s.block.dstAddr.toNat out.1.length = out.1 ∧
        MemSameOutside s.mem t.mem s.block.dstAddr.toNat out.1.length ∧ SameAround s t) ∧
    (∀ i, i < s.block.totalBits.toNat → Consumes s i →
      let out := (consumed s i).1
      let cursor := (consumed s i).2.cursor s.block.root
      let ends := fun (c : ErrCode) (info : Nat) (bits : Nat) (node : NodeIx) => ∃ t, exec .decode s = .next t ∧
        t.block = { s.block with
          outLen := BitVec.ofNat 32 out.length
          decBits := BitVec.ofNat 32 bits
          decNode := node
          errCode := c
          errInfo := BitVec.ofNat 32 info
          engine := .idle
          err := true } ∧
        t.mem.bytes s.block.dstAddr.toNat out.length = out ∧
        MemSameOutside s.mem t.mem s.block.dstAddr.toNat out.length ∧ SameAround s t
      (i % 8 = 0 → s.platform.busOk (s.block.srcAddr.toNat + i / 8) .read = false →
        ends .busError (s.block.srcAddr.toNat + i / 8) i cursor) ∧
      (SourceReadable s (i / 8 + 1) → (consumed s (i + 1)).1.length = out.length + 1 →
        let reached := if (nodeAt s.block.node s.block.root).leaf then s.block.root
          else child (nodeAt s.block.node cursor) (packedBit s.mem s.block.srcAddr.toNat i)
        (out.length = s.block.dstCap.toNat → ends .dstOverflow out.length (i + 1) reached) ∧
        (out.length < s.block.dstCap.toNat →
          s.platform.busOk (s.block.dstAddr.toNat + out.length) .write = false →
          ends .busError (s.block.dstAddr.toNat + out.length) (i + 1) reached)))

/-- R201, R240: the checks of DECODE before it reads, in order: NO_TREE, BODY_SHORT, ADDR_RANGE for the source, for the
destination, REGION_OVERLAP. Each leaves OUT_LEN = DEC_BITS = 0 and DEC_NODE = ROOT (0 without a tree) and makes no
access. -/
def Obligations.DecodeChecksInOrder : Prop :=
  ∀ s : State,
    let failed := fun (c : ErrCode) (info : Word) => { s with block := { s.block with
      outLen := 0, decBits := 0, decNode := if s.block.treeValid then s.block.root else 0
      errCode := c, errInfo := info, engine := .idle, err := true } }
    let need := (s.block.totalBits.toNat + 7) / 8
    (s.block.treeValid = false → exec .decode s = .next (failed .noTree 0)) ∧
    (s.block.treeValid = true →
      (need > s.block.srcLen.toNat → exec .decode s = .next (failed .bodyShort (BitVec.ofNat 32 need))) ∧
      (need ≤ s.block.srcLen.toNat →
        (s.block.srcAddr.toNat + s.block.srcLen.toNat > 4294967296 →
          exec .decode s = .next (failed .addrRange 0)) ∧
        (s.block.srcAddr.toNat + s.block.srcLen.toNat ≤ 4294967296 →
          (s.block.dstAddr.toNat + s.block.dstCap.toNat > 4294967296 →
            exec .decode s = .next (failed .addrRange 1)) ∧
          (s.block.dstAddr.toNat + s.block.dstCap.toNat ≤ 4294967296 → ¬RegionsLegal s.block →
            exec .decode s = .next (failed .regionOverlap 0)))))

/-- R204, R208, and the frame of DECODE on every outcome: only OUT_LEN, DEC_NODE, DEC_BITS and the completion registers
change; OUT_LEN never passes DST_CAP, and no byte outside the first OUT_LEN destination bytes changes. -/
def Obligations.DecodeFrame : Prop :=
  ∀ s : State, ∃ t, exec .decode s = .next t ∧
    t.block = { s.block with
      outLen := t.block.outLen
      decNode := t.block.decNode
      decBits := t.block.decBits
      engine := .idle
      done := t.block.done
      err := t.block.err
      errCode := t.block.errCode
      errInfo := t.block.errInfo } ∧
    t.block.decBits.toNat ≤ s.block.totalBits.toNat ∧
    t.block.outLen.toNat ≤ s.block.dstCap.toNat ∧
    MemSameOutside s.mem t.mem s.block.dstAddr.toNat t.block.outLen.toNat ∧ SameAround s t

/-- R204: an emission at OUT_LEN = DST_CAP raises DST_OVERFLOW with DST_CAP and writes nothing; one below it writes the
byte at DST_ADDR + OUT_LEN and adds one to OUT_LEN, or, where the platform does not complete the write, is BUS_ERROR with
the address and writes nothing. -/
def Obligations.EmissionIsBoundedByCapacity : Prop :=
  ∀ (b : Byte) (s : State), s.mem.wf = true →
    (s.block.outLen = s.block.dstCap → put b s = .raised ⟨.dstOverflow, s.block.dstCap⟩ s) ∧
    (s.block.outLen ≠ s.block.dstCap →
      (s.platform.busOk (s.block.dstAddr.toNat + s.block.outLen.toNat) .write = true →
        ∃ t, put b s = .ok () t ∧ t.block = { s.block with outLen := s.block.outLen + 1 } ∧
          t.mem.read (s.block.dstAddr.toNat + s.block.outLen.toNat) = b ∧
          MemSameOutside s.mem t.mem (s.block.dstAddr.toNat + s.block.outLen.toNat) 1 ∧ SameAround s t) ∧
      (s.platform.busOk (s.block.dstAddr.toNat + s.block.outLen.toNat) .write = false →
        ∃ t, put b s = .raised
            ⟨.busError, BitVec.ofNat 32 (s.block.dstAddr.toNat + s.block.outLen.toNat)⟩ t ∧
          t.block = s.block ∧ t.mem = s.mem ∧ SameAround s t))

/-- R209: DECODE of zero bits reads nothing, emits nothing and succeeds. -/
def Obligations.DecodeOfZeroBitsSucceeds : Prop :=
  ∀ s : State, s.block.treeValid = true → s.block.totalBits = 0 → RegionsLegal s.block →
    exec .decode s = .next { s with block := { s.block with
      outLen := 0, decBits := 0, decNode := s.block.root, engine := .idle, done := true } }

/-- R206: two memories that agree on the TOTAL_BITS bits of the stream give the same outcome and the same decoded bytes:
padding bits and later source bytes affect nothing. -/
def Obligations.PaddingNeverAffectsDecode : Prop :=
  ∀ (s : State) (m : Memory), s.mem.wf = true → m.wf = true →
    (∀ i, i < s.block.totalBits.toNat →
      packedBit m s.block.srcAddr.toNat i = packedBit s.mem s.block.srcAddr.toNat i) →
    ∃ t v, exec .decode s = .next t ∧ exec .decode { s with mem := m } = .next v ∧
      v.block = t.block ∧ v.bus = t.bus ∧
      ∀ k, k < t.block.outLen.toNat →
        v.mem.read (s.block.dstAddr.toNat + k) = t.mem.read (s.block.dstAddr.toNat + k)

/-- R210: with SRC_LEN one byte less than TOTAL_BITS needs, DECODE ends with BODY_SHORT before it reads any byte. -/
def Obligations.TruncatedBodyIsDetected : Prop :=
  ∀ s : State, s.block.treeValid = true → s.block.srcLen.toNat + 1 = ceilDiv8 s.block.totalBits.toNat →
    ∃ t, exec .decode s = .next t ∧ t.block.err = true ∧ t.block.errCode = .bodyShort ∧
      t.block.errInfo.toNat = ceilDiv8 s.block.totalBits.toNat ∧ t.block.outLen = 0 ∧ t.bus = s.bus ∧ t.mem = s.mem

/-- R192: after an ENCODE that succeeded, DECODE with the same tree, TOTAL_BITS as ENCODE left it, the packed bytes as
source and room for SRC_LEN bytes succeeds and writes exactly the bytes that were encoded. -/
def Obligations.DecodeInvertsEncode : Prop :=
  ∀ (s t : State) (dst cap : Word), s.mem.wf = true → treeInv s.block → codeInv s.block → s.block.err = false →
    exec .encode s = .next t → t.block.err = false →
    let u := { t with block := { t.block with
      srcAddr := s.block.dstAddr, srcLen := t.block.outLen, dstAddr := dst, dstCap := cap } }
    RegionsLegal u.block → s.block.srcLen.toNat ≤ cap.toNat →
    SourceReadable u t.block.outLen.toNat → DestWritable u s.block.srcLen.toNat →
    ∃ v, exec .decode u = .next v ∧ v.block.done = true ∧ v.block.err = false ∧
      v.block.outLen = s.block.srcLen ∧ v.mem.bytes dst.toNat s.block.srcLen.toNat = sourceBytes s

/-! ### The bus -/

/-- R134: two states with the same block and the same busOk, whose memories agree on the source region, give one outcome:
the same final block, the same accesses and, of ENCODE and DECODE, the same destination bytes. -/
def Obligations.OutcomeDependsOnSourceAlone : Prop :=
  ∀ (i : Instr) (s u : State), s.mem.wf = true → u.mem.wf = true → s.block = u.block →
    (∀ a k, s.platform.busOk a k = u.platform.busOk a k) →
    (∀ a, (srcRegion s.block).has a = true → s.mem.read a = u.mem.read a) →
    ∃ t v new, exec i s = .next t ∧ exec i u = .next v ∧ t.block = v.block ∧ t.bus = new ++ s.bus ∧
      v.bus = new ++ u.bus ∧
      (i = .encode ∨ i = .decode → ∀ k, k < t.block.outLen.toNat →
        t.mem.read (s.block.dstAddr.toNat + k) = v.mem.read (s.block.dstAddr.toNat + k))

/-- R79, R80: a command reads only source addresses and writes only destination addresses, each at most once and in
ascending order; FREQ_CLEAR, BUILD_TREE and GEN_CODES access nothing, and FREQ_COUNT writes nothing. -/
def Obligations.AccessesStayInRegionsAscending : Prop :=
  ∀ (i : Instr) (s : State), ∃ t new, exec i s = .next t ∧ t.bus = new ++ s.bus ∧
    (∀ x ∈ new, x.kind = .read → (srcRegion s.block).has x.addr = true ∧ x.addr < 4294967296) ∧
    (∀ x ∈ new, x.kind = .write → (dstRegion s.block).has x.addr = true ∧ x.addr < 4294967296) ∧
    ((new.filter fun x => x.kind = .read).map BusAccess.addr).Pairwise (· > ·) ∧
    ((new.filter fun x => x.kind = .write).map BusAccess.addr).Pairwise (· > ·) ∧
    (i = .freqClear ∨ i = .buildTree ∨ i = .genCodes → new = []) ∧
    (i = .freqCount → ∀ x ∈ new, x.kind = .read)

/-! ### The register window -/

/-- R75: a register read, of any offset and width, changes no state of the block, of memory or of the platform. -/
def Obligations.RegisterReadsChangeNothing : Prop :=
  ∀ (s : State) (o : Offset) (width : Nat) (v : Word),
    ∃ t, regAccess ⟨o, .read, width, v⟩ s = .next t ∧ t.block = s.block ∧ t.mem = s.mem ∧ t.platform = s.platform ∧
      t.hostDirty = s.hostDirty ∧ t.hostOvertaken = s.hostOvertaken ∧ t.hostStale = s.hostStale ∧
      t.pending = s.pending ∧ t.bus = s.bus

/-- R72: an access that is not 32 bits wide or not aligned to 4 gets the error response and has no effect. -/
def Obligations.IllegalAccessHasNoEffect : Prop :=
  ∀ (s : State) (a : RegAccess), a.width ≠ 32 ∨ a.offset.toNat % 4 ≠ 0 →
    regAccess a s = .next { s with replies := .fault :: s.replies }

/-- R270, R26, R27: while BUSY, a write to CMD, an operand register or the FREQ window is dropped and sets OVR; writes to
STATUS, IRQ_EN and CTRL take effect, to IRQ_EN at any time, BUSY or not; at all times, writes to read-only registers and
reserved offsets change nothing, without OVR. (That clearing ERR leaves ERR_CODE and ERR_INFO is the model's reading: log
12.) -/
def Obligations.BusyWritesAreDroppedWithOvr : Prop :=
  ∀ (s : State) (o : Offset) (v : Word), o.toNat % 4 = 0 →
    (busy s.block = true →
      o ∈ [0x008#15, 0x020#15, 0x024#15, 0x028#15, 0x02C#15, 0x030#15] ∨ (0x400 ≤ o.toNat ∧ o.toNat < 0x800) →
      regAccess ⟨o, .write, 32, v⟩ s =
        .next { s with block := { s.block with ovr := true }, replies := .done :: s.replies }) ∧
    (busy s.block = true → o = 0x00C#15 → regAccess ⟨o, .write, 32, v⟩ s =
      .next { s with
        block := { s.block with
          done := s.block.done && !v.getLsbD 1
          err := s.block.err && !v.getLsbD 2
          ovr := s.block.ovr && !v.getLsbD 3 }
        replies := .done :: s.replies }) ∧
    (o = 0x010#15 → regAccess ⟨o, .write, 32, v⟩ s =
      .next { s with
        block := { s.block with doneIe := v.getLsbD 0, errIe := v.getLsbD 1 }
        replies := .done :: s.replies }) ∧
    (busy s.block = true → o = 0x004#15 → ∃ t, regAccess ⟨o, .write, 32, v⟩ s = .next t ∧
      t.block = if v.getLsbD 0 then Block.reset else s.block) ∧
    (o ∈ [0x000#15, 0x014#15, 0x018#15, 0x01C#15] ∨ (0x034 ≤ o.toNat ∧ o.toNat < 0x400) ∨ 0x800 ≤ o.toNat →
      regAccess ⟨o, .write, 32, v⟩ s = .next { s with replies := .done :: s.replies })

/-- R22, R26, R27, R28, R226, R271: at all times, BUSY or not, reads of ID, CTRL, CMD, STATUS, IRQ_EN, ERR_CODE, ERR_INFO
and the four region registers return their defined values, an error name as its number; while BUSY, reads of the others
and of the three windows return an unspecified value, which the model draws. -/
def Obligations.ReadsOfDefinedRegisters : Prop :=
  ∀ s : State,
    let reads := fun (o : Offset) (v : Word) =>
      ∃ t, regAccess ⟨o, .read, 32, 0⟩ s = .next t ∧ t.replies = .data v :: s.replies
    reads 0x000 0x48554601#32 ∧ reads 0x004 0 ∧ reads 0x008 s.block.lastCmd ∧
    reads 0x00C (BitVec.ofNat 32 ((busy s.block).toNat + 2 * s.block.done.toNat + 4 * s.block.err.toNat +
      8 * s.block.ovr.toNat + 16 * s.block.treeValid.toNat + 32 * s.block.codeValid.toNat)) ∧
    reads 0x010 (BitVec.ofNat 32 (s.block.doneIe.toNat + 2 * s.block.errIe.toNat)) ∧
    reads 0x014 (match s.block.errCode with
      | .none => 0x00#32
      | .illegalCmd => 0x01#32
      | .emptyInput => 0x02#32
      | .freqRange => 0x03#32
      | .treeEmpty => 0x04#32
      | .noTree => 0x05#32
      | .noCodes => 0x06#32
      | .noCode => 0x07#32
      | .bitsOverflow => 0x08#32
      | .dstOverflow => 0x09#32
      | .bodyShort => 0x0A#32
      | .endMidCode => 0x0B#32
      | .badCode => 0x0C#32
      | .addrRange => 0x0D#32
      | .regionOverlap => 0x0E#32
      | .busError => 0x0F#32) ∧
    reads 0x018 s.block.errInfo ∧ reads 0x020 s.block.srcAddr ∧ reads 0x024 s.block.srcLen ∧
    reads 0x028 s.block.dstAddr ∧ reads 0x02C s.block.dstCap ∧
    (busy s.block = true → ∀ o : Offset, o.toNat % 4 = 0 →
      o ∈ [0x030#15, 0x034#15, 0x040#15, 0x044#15, 0x048#15, 0x04C#15, 0x050#15, 0x054#15] ∨
        (0x400 ≤ o.toNat ∧ o.toNat < 0x800) ∨ (0x2000 ≤ o.toNat ∧ o.toNat < 0x3FF0) ∨ 0x4000 ≤ o.toNat →
      ∃ t, regAccess ⟨o, .read, 32, 0⟩ s = .next t ∧ t.replies = .data (Config.freeWord s.draws) :: s.replies ∧
        t.draws = s.draws + 1)

/-- R26: the bits of STATUS, and what a write to it clears: only DONE, ERR and OVR, each by its own 1. That clearing ERR
leaves ERR_CODE and ERR_INFO is the model's reading of R28 beside R227 (log 12). -/
def Obligations.StatusBitsAndWriteOneToClear : Prop :=
  ∀ (s : State) (v : Word),
    ((statusWord s.block).getLsbD 0 = busy s.block ∧ (statusWord s.block).getLsbD 1 = s.block.done ∧
      (statusWord s.block).getLsbD 2 = s.block.err ∧ (statusWord s.block).getLsbD 3 = s.block.ovr ∧
      (statusWord s.block).getLsbD 4 = s.block.treeValid ∧ (statusWord s.block).getLsbD 5 = s.block.codeValid ∧
      (statusWord s.block).extractLsb' 6 26 = 0#26) ∧
    regAccess ⟨0x00C, .write, 32, v⟩ s =
      .next { s with
        block := { s.block with
          done := s.block.done && !v.getLsbD 1
          err := s.block.err && !v.getLsbD 2
          ovr := s.block.ovr && !v.getLsbD 3 }
        replies := .done :: s.replies }

/-- R235: the interrupt level, and that an acknowledge, a mask and a command start lower it; it is low after reset. -/
def Obligations.InterruptFollowsStatusAndEnable : Prop :=
  (∀ b : Block, irq b = ((b.done && b.doneIe) || (b.err && b.errIe))) ∧ irq Block.reset = false ∧
  (∀ (s : State) (v : Word), v.getLsbD 1 = true → v.getLsbD 2 = true →
    ∃ t, regAccess ⟨0x00C, .write, 32, v⟩ s = .next t ∧ irq t.block = false) ∧
  (∀ s : State, ∃ t, regAccess ⟨0x010, .write, 32, 0⟩ s = .next t ∧ irq t.block = false ∧
    t.block.done = s.block.done ∧ t.block.err = s.block.err) ∧
  (∀ (s t : State) (w : Word), s.block.engine = .idle → regAccess ⟨0x008, .write, 32, w⟩ s = .next t →
    irq t.block = false)

/-- R41: the FREQ window: a read returns FREQ[s] while Idle; an accepted write stores the value and clears both validity
flags; a write while BUSY is dropped and sets OVR. -/
def Obligations.FreqWindowReadsAndWrites : Prop :=
  ∀ (s : State) (k : Byte) (v : Word),
    let o : Offset := 0x400#15 + 4#15 * k.zeroExtend 15
    (s.block.engine = .idle →
      (∃ t, regAccess ⟨o, .read, 32, v⟩ s = .next t ∧ t.replies = .data (entry s.block.freq k) :: s.replies) ∧
      (∃ t, regAccess ⟨o, .write, 32, v⟩ s = .next t ∧ entry t.block.freq k = v ∧
        (∀ j : Byte, j ≠ k → entry t.block.freq j = entry s.block.freq j) ∧
        t.block = { s.block with freq := t.block.freq, treeValid := false, codeValid := false } ∧ t.mem = s.mem)) ∧
    (busy s.block = true → ∃ t, regAccess ⟨o, .write, 32, v⟩ s = .next t ∧
      t.block = { s.block with ovr := true })

/-- R30 to R35, R42, R43, R275: an operand register written while Idle reads back what was written at the next access,
and no other register changes; while Idle, TOTAL_BITS, OUT_LEN, DEC_NODE and DEC_BITS read what the commands left. -/
def Obligations.OperandsAndResultsReadBack : Prop :=
  ∀ s : State, s.block.engine = .idle →
    (∀ (o : Offset) (v : Word), o ∈ [0x020#15, 0x024#15, 0x028#15, 0x02C#15, 0x030#15] →
      ∃ t u, regAccess ⟨o, .write, 32, v⟩ s = .next t ∧ regAccess ⟨o, .read, 32, 0⟩ t = .next u ∧
        u.replies = .data v :: .done :: s.replies ∧ t.mem = s.mem ∧
        t.block = { s.block with
          srcAddr := if o = 0x020#15 then v else s.block.srcAddr
          srcLen := if o = 0x024#15 then v else s.block.srcLen
          dstAddr := if o = 0x028#15 then v else s.block.dstAddr
          dstCap := if o = 0x02C#15 then v else s.block.dstCap
          totalBits := if o = 0x030#15 then v else s.block.totalBits }) ∧
    (let reads := fun (o : Offset) (v : Nat) =>
      ∃ t w, regAccess ⟨o, .read, 32, 0⟩ s = .next t ∧ t.replies = .data w :: s.replies ∧ w.toNat = v
    reads 0x030 s.block.totalBits.toNat ∧ reads 0x034 s.block.outLen.toNat ∧
      reads 0x050 s.block.decNode.toNat ∧ reads 0x054 s.block.decBits.toNat)

/-- R46, R50 and the gates of R36 to R39: while Idle, without TREE_VALID the NODE window, NLEAF, NNODE and ROOT read 0,
and slots from NNODE on read 0 with it; without CODE_VALID the CODE window and MAX_LEN read 0. -/
def Obligations.InvalidTablesReadZero : Prop :=
  ∀ (s : State) (o : Offset), s.block.engine = .idle → o.toNat % 4 = 0 →
    let readsZero := ∃ t, regAccess ⟨o, .read, 32, 0⟩ s = .next t ∧ t.replies = .data 0 :: s.replies
    (s.block.treeValid = false →
      (0x2000 ≤ o.toNat ∧ o.toNat < 0x4000) ∨ o = 0x040#15 ∨ o = 0x044#15 ∨ o = 0x048#15 → readsZero) ∧
    (s.block.treeValid = true → 0x2000 ≤ o.toNat → o.toNat < 0x4000 →
      s.block.nnode.toNat ≤ (o.toNat - 0x2000) / 16 → readsZero) ∧
    (s.block.codeValid = false → 0x4000 ≤ o.toNat ∨ o = 0x04C#15 → readsZero)

/-- R45, R36, R37, R38: while Idle with TREE_VALID, NLEAF, NNODE and ROOT read their values and a slot i of the tree reads
its four words at 0x2000 + 16 i; the words of slot 511 read 0 at all times. That they do while BUSY too is the model's
reading of the word always of R45 beside R271 (log 25). -/
def Obligations.NodeWindowLayout : Prop :=
  ∀ s : State,
    let reads := fun (o : Nat) (v : Nat) =>
      ∃ t w, regAccess ⟨BitVec.ofNat 15 o, .read, 32, 0⟩ s = .next t ∧ t.replies = .data w :: s.replies ∧ w.toNat = v
    (s.block.engine = .idle → s.block.treeValid = true →
      reads 0x040 s.block.nleaf.toNat ∧ reads 0x044 s.block.nnode.toNat ∧ reads 0x048 s.block.root.toNat ∧
      ∀ i, i < s.block.nnode.toNat →
        reads (0x2000 + 16 * i) (2 ^ 31 * (slot s.block i).leaf.toNat + 2 ^ 16 * (slot s.block i).sym.toNat) ∧
        reads (0x2000 + 16 * i + 4) ((slot s.block i).left.toNat + 2 ^ 16 * (slot s.block i).right.toNat) ∧
        reads (0x2000 + 16 * i + 8) ((slot s.block i).freq.toNat % 2 ^ 32) ∧
        reads (0x2000 + 16 * i + 12) ((slot s.block i).freq.toNat / 2 ^ 32)) ∧
    (∀ k, k < 4 → reads (0x3FF0 + 4 * k) 0)

/-- R49, R39: while Idle with CODE_VALID, MAX_LEN reads its value and CODE[s] its sixteen words at 0x4000 + 64 s. -/
def Obligations.CodeWindowLayout : Prop :=
  ∀ (s : State) (b : Byte), s.block.engine = .idle → s.block.codeValid = true →
    let reads := fun (o : Nat) (v : Nat) =>
      ∃ t w, regAccess ⟨BitVec.ofNat 15 o, .read, 32, 0⟩ s = .next t ∧ t.replies = .data w :: s.replies ∧ w.toNat = v
    reads 0x04C s.block.maxLen.toNat ∧
    reads (0x4000 + 64 * b.toNat) (entry s.block.code b).len.toNat ∧
    (∀ k, 1 ≤ k → k ≤ 8 → reads (0x4000 + 64 * b.toNat + 4 * k)
      ((entry s.block.code b).val.toNat / 2 ^ (32 * (k - 1)) % 2 ^ 32)) ∧
    (∀ k, 9 ≤ k → k ≤ 15 → reads (0x4000 + 64 * b.toNat + 4 * k) 0)

/-- R58: the reserved offsets read 0 and ignore writes, at all times. -/
def Obligations.ReservedOffsetsReadZero : Prop :=
  ∀ (s : State) (o : Offset) (v : Word), o.toNat % 4 = 0 →
    o = 0x01C#15 ∨ o = 0x038#15 ∨ o = 0x03C#15 ∨ (0x058 ≤ o.toNat ∧ o.toNat < 0x400) ∨
      (0x800 ≤ o.toNat ∧ o.toNat < 0x2000) →
    regAccess ⟨o, .read, 32, v⟩ s = .next { s with replies := .data 0 :: s.replies } ∧
    regAccess ⟨o, .write, 32, v⟩ s = .next { s with replies := .done :: s.replies }

/-! ### Reset -/

/-- R22, R260: after reset ID reads 0x48554601 and every other offset of the window reads 0; the engine is Idle and the
interrupt is low. (The platform of `State.reset` is the model's choice: log 6, log 7.) -/
def Obligations.ResetValuesRead : Prop :=
  State.reset.block.engine = .idle ∧ irq State.reset.block = false ∧
  (∀ b : Byte, entry State.reset.block.freq b = 0) ∧
  ∀ o : Offset, o.toNat % 4 = 0 →
    ∃ t, regAccess ⟨o, .read, 32, 0⟩ State.reset = .next t ∧
      t.replies = [.data (if o = 0 then 0x48554601#32 else 0)]

/-- R24, R261: a write to CTRL with bit 0 = 1 resets the block at any time, as hard reset does; with bit 0 = 0 it does
nothing. -/
def Obligations.SoftResetAtAnyTime : Prop :=
  ∀ (s : State) (v : Word),
    (v.getLsbD 0 = true → ∃ t, regAccess ⟨0x004, .write, 32, v⟩ s = .next t ∧ t.block = State.reset.block) ∧
    (v.getLsbD 0 = false →
      regAccess ⟨0x004, .write, 32, v⟩ s = .next { s with replies := .done :: s.replies }) ∧
    (∃ t, runEvent .hardReset s = .next t ∧ t.block = State.reset.block)

/-- R262: a reset that aborts a command, hard or soft, ends it with neither DONE nor ERR, makes no access and leaves source
bytes and every byte outside the destination region unchanged; it changes no memory at all unless the command is ENCODE
or DECODE. (That the record of accesses shows none before the reset either is the model's choice: log 16.) -/
def Obligations.AbortSparesOtherMemory : Prop :=
  ∀ (s : State) (e : Event), e = .hardReset ∨ (∃ v : Word, v.getLsbD 0 = true ∧ e = .reg ⟨0x004#15, .write, 32, v⟩) →
    ∃ t, runEvent e s = .next t ∧ t.bus = s.bus ∧ t.block = Block.reset ∧
      (∀ a, (srcRegion s.block).has a = true → t.mem.read a = s.mem.read a) ∧
      MemSameOutside s.mem t.mem s.block.dstAddr.toNat s.block.dstCap.toNat ∧
      (s.block.engine ≠ .busy 0x00000005#32 → s.block.engine ≠ .busy 0x00000006#32 → t.mem = s.mem)

/-! ### Whole machine -/

/-- R26, R28, R29, R51, R54, R78, R227, R260: the reset state meets the invariant, and ERR_CODE and ERR are both 0. -/
def Obligations.ResetMeetsInvariant : Prop := Inv State.reset ∧ codeMatchesErr State.reset.block

/-- R26, R28, R29, R51, R54, R78, R82: every step keeps the invariant: the canonical form of memory, the STATUS and
ERR_CODE rules, and that TREE_VALID and CODE_VALID say what the tables hold. R227: every step but an acknowledge of ERR
keeps ERR_CODE = 0 exactly when ERR = 0 (that an acknowledge does not is the model's reading: log 12). -/
def Obligations.StepKeepsInvariant : Prop :=
  ∀ s t : State, Inv s → step s = .next t →
    Inv t ∧ (codeMatchesErr s.block → (∀ v : Word, NextWrites s 0x00C v → v.getLsbD 2 = false) → codeMatchesErr t.block)

/-- R128, R250: a running command is completed by the engine's turn: no command hangs. The turn of an Idle block changes
nothing. -/
def Obligations.RunningCommandCompletes : Prop :=
  ∀ s : State,
    (busy s.block = true →
      ∃ t, engineTurn s = .next t ∧ t.block.engine = .idle ∧ (t.block.done = true ∨ t.block.err = true)) ∧
    (s.block.engine = .idle → engineTurn s = .next s)

/-- R54: TREE_VALID is set only by BUILD_TREE and CODE_VALID only by GEN_CODES, on success; TREE_VALID is cleared only by a
reset, an accepted write to the FREQ window, and the start of FREQ_CLEAR, FREQ_COUNT or BUILD_TREE, and CODE_VALID by
those and the start of GEN_CODES; after any change of FREQ both are clear. -/
def Obligations.ValidityChangesOnlyAsRule54 : Prop :=
  ∀ s t : State, Inv s → step s = .next t →
    let cleared := fun (starts : List Word) => NextResets s ∨
      (s.block.engine = .idle ∧ ∃ (o : Offset) (v : Word), NextWrites s o v ∧
        ((0x400 ≤ o.toNat ∧ o.toNat < 0x800) ∨ (o = 0x008#15 ∧ v ∈ starts)))
    (s.block.treeValid = false → t.block.treeValid = true →
      s.block.engine = .busy 0x00000003#32 ∧ t.block.done = true) ∧
    (s.block.codeValid = false → t.block.codeValid = true →
      s.block.engine = .busy 0x00000004#32 ∧ t.block.done = true) ∧
    (s.block.treeValid = true → t.block.treeValid = false → cleared [1, 2, 3]) ∧
    (s.block.codeValid = true → t.block.codeValid = false → cleared [1, 2, 3, 4]) ∧
    (t.block.freq ≠ s.block.freq → t.block.treeValid = false ∧ t.block.codeValid = false) ∧
    (t.block.codeValid = true → t.block.treeValid = true)

/-- R125: the engine leaves Idle only by a CMD write, of the word it then runs, and leaves Busy only by the completion of
its command, in its own turn, or by a reset: no command preempts another. -/
def Obligations.EngineRunsOneCommandAtATime : Prop :=
  ∀ s t : State, step s = .next t →
    (s.block.engine = .idle → ∀ w, t.block.engine = .busy w → NextWrites s 0x008 w ∧ t.block.lastCmd = w) ∧
    (∀ w, s.block.engine = .busy w →
      t.block.engine = .busy w ∨
      (t.block.engine = .idle ∧
        ((NextIsEngineTurn s ∧ (t.block.done = true ∨ t.block.err = true)) ∨
          (NextResets s ∧ t.block = Block.reset))))

/-- R78, R87, R273: while a command runs, whichever it is (log 9), a host program that writes a source byte, or reads or
writes a destination byte, is refused. Any other host write lands: that byte reads what was written, and every other as
before. Any other host read returns the byte, where the host holds no stale copy of it, and is refused where, without
coherence, the host has not discarded its copy (R91, K1-13; log 10). No host access to memory
changes the block. (That the platform completes each is the model's choice: log 20.) -/
def Obligations.HostMemoryAccesses : Prop :=
  ∀ (s : State) (a : Word) (v : Byte),
    let inSource := (srcRegion s.block).has a.toNat
    let inDestination := (dstRegion s.block).has a.toNat
    (busy s.block = true → inSource = true ∨ inDestination = true →
      runEvent (.memWrite a v) s = .refused .hostTouchesRegionWhileBusy) ∧
    (busy s.block = true → inDestination = true → runEvent (.memRead a) s = .refused .hostTouchesRegionWhileBusy) ∧
    (busy s.block = false ∨ (inSource = false ∧ inDestination = false) →
      ∃ t, runEvent (.memWrite a v) s = .next t ∧ (s.mem.wf = true → t.mem.read a.toNat = v) ∧
        MemSameOutside s.mem t.mem a.toNat 1 ∧ t.block = s.block ∧ t.bus = s.bus ∧ t.platform = s.platform ∧
        t.replies = .done :: s.replies) ∧
    (busy s.block = false ∨ inDestination = false →
      s.platform.dmaCoherent = true ∨ (∀ r ∈ s.hostStale, r.has a.toNat = false) →
      runEvent (.memRead a) s = .next { s with replies := .memData (s.mem.read a.toNat) :: s.replies }) ∧
    (busy s.block = false ∨ inDestination = false →
      s.platform.dmaCoherent = false → (∃ r ∈ s.hostStale, r.has a.toNat = true) →
      runEvent (.memRead a) s = .refused .staleCopyRead)

/-- R22: with the window mapped at BLOCK_BASE, the host access at BLOCK_BASE + offset is the register access at that
offset, and an address outside the 32 KiB window is no access to the block (log 19). -/
def Obligations.WindowIsMappedAtBlockBase : Prop :=
  ∀ (s : State) (addr : Nat) (k : AccessKind) (width : Nat) (v : Word),
    (∀ o : Offset, addr = s.platform.blockBase + o.toNat →
      runEvent (.hostBus addr k width v) s = regAccess ⟨o, k, width, v⟩ s) ∧
    (addr < s.platform.blockBase ∨ s.platform.blockBase + 32768 ≤ addr →
      runEvent (.hostBus addr k width v) s = .fault .outsideWindow)

/-! ### The artifact -/

/-- R95, R98, R99, R101: parsing the bytes of a well-formed artifact gives it back. -/
def Obligations.ParseOfBuildArtifact : Prop :=
  ∀ a : Artifact, a.wf = true → parseArtifact a.bytes = .ok a

/-- R103: the size of an artifact. -/
def Obligations.ArtifactSize : Prop :=
  ∀ a : Artifact, a.wf = true →
    a.bytes.length = 4 + a.name.length + 4 + 5 * a.entries.length + 4 + (a.totalBits.toNat + 7) / 8

/-- R73, R96: a word and its bytes, little-endian. -/
def Obligations.WordsAreLittleEndian : Prop :=
  (∀ b0 b1 b2 b3 : Byte, (wordOfBytes b0 b1 b2 b3).toNat =
    b0.toNat + 256 * b1.toNat + 65536 * b2.toNat + 16777216 * b3.toNat) ∧
  ∀ (w : Word) (k j : Nat), k < 4 → j < 8 → ((wordBytes w).getD k 0).getLsbD j = w.getLsbD (8 * k + j)
end

