-- ==== Sys2Proof/Laws/Codec.lean ====
section
/-! SUPPORT. The laws of the command word: bytes and words, and what decodes. -/

namespace Sys2Proof

/-- The bytes of a word make the word again (R73). -/
@[simp] theorem wordOfBytes_wordBytes (w : Word) :
    wordOfBytes (wordByte w 0) (wordByte w 1) (wordByte w 2) (wordByte w 3) = w := by
  apply BitVec.eq_of_getLsbD_eq
  intro i hi
  simp only [wordOfBytes, wordByte, BitVec.getLsbD_append, BitVec.getLsbD_extractLsb']
  rcases Nat.lt_or_ge i 8 with h | h
  · simp [h]
  · rcases Nat.lt_or_ge i 16 with h' | h'
    · simp [show ¬ i < 8 by omega, show i - 8 < 8 by omega, show 8 + (i - 8) = i by omega]
    · rcases Nat.lt_or_ge i 24 with h'' | h''
      · simp [show ¬ i < 8 by omega, show ¬ i - 8 < 8 by omega, show i - 8 - 8 < 8 by omega,
          show 16 + (i - 8 - 8) = i by omega]
      · simp [show ¬ i < 8 by omega, show ¬ i - 8 < 8 by omega, show ¬ i - 8 - 8 < 8 by omega,
          show i - 8 - 8 - 8 < 8 by omega, show 24 + (i - 8 - 8 - 8) = i by omega]

/-- Decoding the bytes of a word is decoding the word. -/
theorem decode_wordBytes (w : Word) (rest : List Byte) :
    decode (wordBytes w ++ rest) =
      match decodeWord w with
      | .ok i => .ok (i, rest)
      | .error e => .error e := by
  simp only [wordBytes, List.cons_append, List.nil_append, decode, wordOfBytes_wordBytes]
  all_goals cases decodeWord w <;> rfl

/-- A word is its reserved field and its opcode (R110). -/
theorem word_eq_fields (w : Word) : w = reservedField w ++ opcodeField w := by
  apply BitVec.eq_of_getLsbD_eq
  intro i hi
  simp only [reservedField, opcodeField, BitVec.getLsbD_append, BitVec.getLsbD_extractLsb']
  rcases Nat.lt_or_ge i 8 with h | h
  · simp [h]
  · simp [show ¬ i < 8 by omega, show i - 8 < 24 by omega, show 8 + (i - 8) = i by omega]

/-- What an opcode selects, as the six cases of the opcode map (R111). -/
theorem opcodeSelects_eq_some {op : Byte} {i : Instr} :
    opcodeSelects op = some i ↔ 0#24 ++ op = encodeWord i := by
  revert op
  cases i <;> simp only [opcodeSelects, encodeWord] <;> decide +kernel

/-- A word decodes to a command exactly when it is the command's word (R111, R113, R114). -/
theorem decodeWord_eq_ok {w : Word} {i : Instr} : decodeWord w = .ok i ↔ w = encodeWord i := by
  have hw := word_eq_fields w
  constructor
  · intro h
    unfold decodeWord at h
    split at h
    · rename_i hres
      split at h
      · rename_i j hj
        obtain rfl : j = i := by simpa using h
        rw [hw, show reservedField w = 0#24 by simpa [reservedIsZero] using hres]
        exact opcodeSelects_eq_some.mp hj
      · cases h
    · cases h
  · rintro rfl
    cases i <;> rfl

@[simp] theorem decodeWord_encodeWord (i : Instr) : decodeWord (encodeWord i) = .ok i := decodeWord_eq_ok.mpr rfl

/-- The opcode is defined exactly when it selects a command (R111, R114). -/
theorem opcodeSelects_isSome (op : Byte) :
    (opcodeSelects op).isSome = (decide (1 ≤ op.toNat) && decide (op.toNat ≤ 6)) := by
  revert op; decide +kernel

/-- The two checks of R111, on the fields of the word. -/
theorem wordWellFormed_iff {w : Word} : wordWellFormed w = true ↔
    w.extractLsb' 8 24 = 0#24 ∧ 1 ≤ (w.extractLsb' 0 8).toNat ∧ (w.extractLsb' 0 8).toNat ≤ 6 := by
  unfold wordWellFormed reservedIsZero opcodeIsDefined reservedField opcodeField
  rw [Bool.and_eq_true, Bool.and_eq_true, beq_iff_eq, decide_eq_true_iff, decide_eq_true_iff]

/-- A word decodes exactly when it passes the two checks of R111. -/
theorem decodeWord_isOk (w : Word) : (∃ i, decodeWord w = .ok i) ↔ wordWellFormed w = true := by
  have h := opcodeSelects_isSome (opcodeField w)
  unfold decodeWord wordWellFormed
  by_cases hres : reservedIsZero w = true
  · cases hop : opcodeSelects (opcodeField w) <;> simp_all [opcodeIsDefined]
  · simp [hres]

/-- R126's test for FREQ_CLEAR, FREQ_COUNT and BUILD_TREE, on the fields and on the word. -/
theorem startClears_test {w : Word} :
    (w.extractLsb' 8 24 = 0#24 ∧
      (w.extractLsb' 0 8 = 1#8 ∨ w.extractLsb' 0 8 = 2#8 ∨ w.extractLsb' 0 8 = 3#8)) ↔
    (w = 0x00000001#32 ∨ w = 0x00000002#32 ∨ w = 0x00000003#32) := by
  constructor
  · rintro ⟨h, h'⟩
    have hw := word_eq_fields w
    unfold reservedField opcodeField at hw
    rw [h] at hw
    rcases h' with h' | h' | h' <;> rw [h'] at hw <;> subst hw <;> decide
  · rintro (rfl | rfl | rfl) <;> decide

end Sys2Proof
end

