-- ==== Sys2Proof/Laws/Memory.lean ====
section
/-! SUPPORT. The laws of system memory: reading after writing, the canonical form, and that equal reads are equal data. -/

namespace Sys2Proof.Machine

@[simp] theorem Memory.read_nil (a : Nat) : Memory.read [] a = Memory.unlisted := rfl

theorem Memory.above_iff {a : Nat} {m : Memory} : m.above a = true ↔ ∀ c ∈ m, a < c.1 := by
  simp [Memory.above]

theorem Memory.above_trans {a b : Nat} {m : Memory} (h : m.above b = true) (hab : a ≤ b) : m.above a = true := by
  rw [above_iff] at *
  intro c hc
  exact lt_of_le_of_lt hab (h c hc)

/-- An address that every listed address exceeds is not listed. -/
theorem Memory.read_of_above {m : Memory} {a b : Nat} (h : m.above b = true) (hab : a ≤ b) :
    m.read a = Memory.unlisted := by
  induction m with
  | nil => rfl
  | cons c t ih =>
    obtain ⟨x, w⟩ := c
    rw [above_iff] at h
    have hx : b < x := h (x, w) (by simp)
    rw [Memory.read, if_neg (by omega)]
    exact ih (above_iff.mpr fun c hc => h c (by simp [hc]))

theorem Memory.wf_cons {b : Nat} {w : Byte} {t : Memory} :
    Memory.wf ((b, w) :: t) = true ↔ w ≠ Memory.unlisted ∧ t.above b = true ∧ t.wf = true := by
  simp [Memory.wf, and_assoc]

theorem Memory.read_putHead {m : Memory} {a : Nat} {v : Byte} (h : m.above a = true) (x : Nat) :
    (Memory.putHead a v m).read x = if x = a then v else m.read x := by
  unfold Memory.putHead
  by_cases hv : v = Memory.unlisted
  · rw [if_pos hv]
    by_cases hx : x = a
    · rw [if_pos hx, hx, read_of_above h (le_refl a), hv]
    · rw [if_neg hx]
  · rw [if_neg hv, Memory.read]

theorem Memory.wf_putHead {m : Memory} {a : Nat} {v : Byte} (h : m.above a = true) (hm : m.wf = true) :
    (Memory.putHead a v m).wf = true := by
  unfold Memory.putHead
  by_cases hv : v = Memory.unlisted
  · rwa [if_pos hv]
  · rw [if_neg hv, wf_cons]; exact ⟨hv, h, hm⟩

/-- Reading after a write, in a memory in canonical form. -/
theorem Memory.read_write {m : Memory} (hm : m.wf = true) (a : Nat) (v : Byte) (x : Nat) :
    (m.write a v).read x = if x = a then v else m.read x := by
  induction m with
  | nil => exact read_putHead (by simp [Memory.above]) x
  | cons c t ih =>
    obtain ⟨b, w⟩ := c
    obtain ⟨_, habove, ht⟩ := wf_cons.mp hm
    rw [Memory.write]
    by_cases hab : a < b
    · rw [if_pos hab]
      refine read_putHead (above_iff.mpr fun c hc => ?_) x
      rcases List.mem_cons.mp hc with rfl | hc
      · exact hab
      · exact lt_trans hab (above_iff.mp habove c hc)
    · rw [if_neg hab]
      by_cases hab' : a = b
      · subst hab'
        rw [if_pos rfl, read_putHead habove, Memory.read]
        split_ifs <;> rfl
      · rw [if_neg hab', Memory.read, ih ht, Memory.read]
        by_cases hx : x = b
        · rw [if_pos hx, if_pos hx, if_neg (by omega)]
        · rw [if_neg hx, if_neg hx]

theorem Memory.read_write_same {m : Memory} (hm : m.wf = true) (a : Nat) (v : Byte) : (m.write a v).read a = v := by
  rw [read_write hm, if_pos rfl]

/-- A write leaves every other address alone, in any memory. -/
theorem Memory.read_write_other (m : Memory) {a x : Nat} (v : Byte) (hx : x ≠ a) : (m.write a v).read x = m.read x := by
  induction m with
  | nil =>
    unfold Memory.write Memory.putHead
    split_ifs <;> simp [Memory.read, hx]
  | cons c t ih =>
    obtain ⟨b, w⟩ := c
    unfold Memory.write Memory.putHead
    split_ifs with h₁ h₂ h₃ h₄
    · rfl
    · rw [Memory.read, if_neg hx]
    · rw [Memory.read, if_neg (by omega)]
    · rw [Memory.read, if_neg hx, Memory.read, if_neg (by omega)]
    · rw [Memory.read, ih, Memory.read]

/-- A write lists nothing but the byte written and what was listed. -/
theorem Memory.mem_write {m : Memory} {a : Nat} {v : Byte} {c : Host.Cell} (h : c ∈ m.write a v) :
    c = (a, v) ∨ c ∈ m := by
  induction m with
  | nil =>
    unfold Memory.write Memory.putHead at h
    split_ifs at h <;> simp_all
  | cons d t ih =>
    obtain ⟨b, w⟩ := d
    unfold Memory.write Memory.putHead at h
    split_ifs at h
    · exact .inr h
    · exact List.mem_cons.mp h
    · exact .inr (List.mem_cons_of_mem _ h)
    · exact (List.mem_cons.mp h).imp_right (List.mem_cons_of_mem _)
    · rcases List.mem_cons.mp h with rfl | h
      · exact .inr (by simp)
      · exact (ih h).imp_right (List.mem_cons_of_mem _)

theorem Memory.above_write {m : Memory} {a b : Nat} {v : Byte} (h : m.above b = true) (hab : b < a) :
    (m.write a v).above b = true := by
  rw [above_iff] at *
  intro c hc
  rcases mem_write hc with rfl | hc
  · exact hab
  · exact h c hc

/-- A write keeps the canonical form. -/
theorem Memory.wf_write {m : Memory} (hm : m.wf = true) (a : Nat) (v : Byte) : (m.write a v).wf = true := by
  induction m with
  | nil => exact wf_putHead (by simp [Memory.above]) rfl
  | cons c t ih =>
    obtain ⟨b, w⟩ := c
    obtain ⟨hw, habove, ht⟩ := wf_cons.mp hm
    rw [Memory.write]
    by_cases hab : a < b
    · rw [if_pos hab]
      refine wf_putHead (above_iff.mpr fun c hc => ?_) hm
      rcases List.mem_cons.mp hc with rfl | hc
      · exact hab
      · exact lt_trans hab (above_iff.mp habove c hc)
    · rw [if_neg hab]
      by_cases hab' : a = b
      · subst hab'
        rw [if_pos rfl]
        exact wf_putHead habove ht
      · rw [if_neg hab', wf_cons]
        exact ⟨hw, above_write habove (by omega), ih ht⟩

theorem Memory.inSpace_iff {m : Memory} : m.inSpace = true ↔ ∀ c ∈ m, c.1 < Config.spaceEnd := by
  simp [Memory.inSpace]

/-- A write below 2^32 lists no address outside system memory. -/
theorem Memory.inSpace_write {m : Memory} {a : Nat} (hm : m.inSpace = true) (ha : a < Config.spaceEnd) (v : Byte) :
    (m.write a v).inSpace = true := by
  rw [inSpace_iff] at *
  intro c hc
  rcases mem_write hc with rfl | hc
  · exact ha
  · exact hm c hc

/-- Reading after `drawRange`: a drawn address reads its draw, any other as before. -/
theorem Memory.read_drawRange {base : Nat} {may : Nat → Bool} {draw : Nat → Byte} (size : Nat) {m : Memory}
    (hm : m.wf = true) (x : Nat) :
    (m.drawRange base may draw size).wf = true ∧
      (m.drawRange base may draw size).read x =
        if base ≤ x ∧ x < base + size ∧ may x = true then draw x else m.read x := by
  induction size with
  | zero => exact ⟨hm, by rw [if_neg (by omega)]; rfl⟩
  | succ k ih =>
    obtain ⟨hwf, hread⟩ := ih
    rw [Memory.drawRange]
    by_cases hmay : may (base + k) = true
    · simp only [hmay, if_true]
      refine ⟨wf_write hwf _ _, ?_⟩
      rw [read_write hwf, hread]
      by_cases hx : x = base + k
      · subst hx
        simp [hmay]
      · rw [if_neg hx]
        congr 1
        apply propext
        constructor <;> rintro ⟨h₁, h₂, h₃⟩ <;> exact ⟨h₁, by omega, h₃⟩
    · simp only [Bool.not_eq_true] at hmay
      simp only [hmay, Bool.false_eq_true, if_false]
      refine ⟨hwf, ?_⟩
      rw [hread]
      congr 1
      apply propext
      constructor
      · rintro ⟨h₁, h₂, h₃⟩; exact ⟨h₁, by omega, h₃⟩
      · rintro ⟨h₁, h₂, h₃⟩
        refine ⟨h₁, ?_, h₃⟩
        rcases Nat.lt_or_ge x (base + k) with h | h
        · exact h
        · have : x = base + k := by omega
          subst this; simp [hmay] at h₃

theorem Memory.wf_drawRange {base : Nat} {may : Nat → Bool} {draw : Nat → Byte} (size : Nat) {m : Memory}
    (hm : m.wf = true) : (m.drawRange base may draw size).wf = true :=
  (read_drawRange size hm 0).1

theorem Memory.inSpace_drawRange {base : Nat} {may : Nat → Bool} {draw : Nat → Byte} (size : Nat) {m : Memory}
    (hm : m.inSpace = true) (h : ∀ a, may a = true → a < Config.spaceEnd) :
    (m.drawRange base may draw size).inSpace = true := by
  induction size with
  | zero => exact hm
  | succ k ih =>
    rw [Memory.drawRange]
    by_cases hmay : may (base + k) = true
    · simp only [hmay, if_true]; exact inSpace_write ih (h _ hmay) _
    · simp only [hmay]; exact ih

/-- `drawRange` leaves every address alone that is outside its range or not admitted, in any memory. -/
theorem Memory.read_drawRange_other {base : Nat} {may : Nat → Bool} {draw : Nat → Byte} (size : Nat) (m : Memory)
    {x : Nat} (hx : ¬(base ≤ x ∧ x < base + size ∧ may x = true)) :
    (m.drawRange base may draw size).read x = m.read x := by
  induction size with
  | zero => rfl
  | succ k ih =>
    have ih := ih fun h => hx ⟨h.1, by omega, h.2.2⟩
    rw [Memory.drawRange]
    by_cases hmay : may (base + k) = true
    · simp only [hmay, if_true]
      rw [read_write_other _ _ (by rintro rfl; exact hx ⟨by omega, by omega, hmay⟩), ih]
    · simp only [hmay]; exact ih

/-- Reading after `drawList`: a listed address of system memory reads its draw, any other as before. -/
theorem Memory.read_drawList {draw : Nat → Byte} (l : List Nat) {m : Memory} (hm : m.wf = true) (x : Nat) :
    (m.drawList draw l).wf = true ∧
      (m.drawList draw l).read x = if x ∈ l ∧ x < Config.spaceEnd then draw x else m.read x := by
  induction l with
  | nil => exact ⟨hm, by simp [Memory.drawList]⟩
  | cons a rest ih =>
    obtain ⟨hwf, hread⟩ := ih
    rw [Memory.drawList]
    by_cases ha : a < Config.spaceEnd
    · rw [if_pos ha]
      refine ⟨wf_write hwf _ _, ?_⟩
      rw [read_write hwf, hread]
      by_cases hx : x = a
      · subst hx; simp [ha]
      · simp [hx]
    · rw [if_neg ha]
      refine ⟨hwf, ?_⟩
      rw [hread]
      by_cases hx : x = a
      · subst hx; simp [ha]
      · simp [hx]

theorem Memory.wf_drawList {draw : Nat → Byte} (l : List Nat) {m : Memory} (hm : m.wf = true) :
    (m.drawList draw l).wf = true := (read_drawList l hm 0).1

theorem Memory.inSpace_drawList {draw : Nat → Byte} (l : List Nat) {m : Memory} (hm : m.inSpace = true) :
    (m.drawList draw l).inSpace = true := by
  induction l with
  | nil => exact hm
  | cons a rest ih =>
    rw [Memory.drawList]
    split
    · rename_i ha; exact inSpace_write ih ha _
    · exact ih

/-- `drawList` leaves every address alone that it does not list, in any memory. -/
theorem Memory.read_drawList_other {draw : Nat → Byte} (l : List Nat) (m : Memory) {x : Nat} (hx : x ∉ l) :
    (m.drawList draw l).read x = m.read x := by
  induction l with
  | nil => rfl
  | cons a rest ih =>
    rw [List.mem_cons, not_or] at hx
    rw [Memory.drawList]
    split
    · rw [read_write_other _ _ hx.1, ih hx.2]
    · exact ih hx.2

/-- Two memories in canonical form that read alike are the same data. -/
theorem Memory.ext_read {m n : Memory} (hm : m.wf = true) (hn : n.wf = true) (h : ∀ a, m.read a = n.read a) : m = n := by
  induction m generalizing n with
  | nil =>
    cases n with
    | nil => rfl
    | cons c t =>
      obtain ⟨b, w⟩ := c
      have := h b
      simp only [Memory.read, if_true] at this
      exact absurd this.symm (wf_cons.mp hn).1
  | cons c t ih =>
    obtain ⟨b, w⟩ := c
    obtain ⟨hw, ha, ht⟩ := wf_cons.mp hm
    cases n with
    | nil =>
      have := h b
      simp only [Memory.read, if_true] at this
      exact absurd this hw
    | cons d u =>
      obtain ⟨b', w'⟩ := d
      obtain ⟨hw', ha', hu⟩ := wf_cons.mp hn
      have hb : b = b' := by
        rcases Nat.lt_trichotomy b b' with hlt | heq | hgt
        · have := h b
          rw [Memory.read, if_pos rfl, Memory.read, if_neg (by omega),
            read_of_above ha' (by omega)] at this
          exact absurd this hw
        · exact heq
        · have := h b'
          rw [Memory.read, if_neg (by omega), read_of_above ha (by omega), Memory.read, if_pos rfl] at this
          exact absurd this.symm hw'
      subst hb
      have hww : w = w' := by simpa [Memory.read] using h b
      subst hww
      congr 1
      refine ih ht hu fun a => ?_
      by_cases hab : a = b
      · subst hab
        rw [read_of_above ha (le_refl a), read_of_above ha' (le_refl a)]
      · have := h a
        rwa [Memory.read, if_neg hab, Memory.read, if_neg hab] at this

/-- `n + 1` bytes are `n` bytes and the next one. -/
theorem Memory.bytes_succ (m : Memory) (a n : Nat) : m.bytes a (n + 1) = m.bytes a n ++ [m.read (a + n)] := by
  simp [Memory.bytes, List.range_succ]

@[simp] theorem Memory.length_bytes (m : Memory) (a n : Nat) : (m.bytes a n).length = n := by simp [Memory.bytes]

end Sys2Proof.Machine
end

