-- ==== Sys2Proof/Laws/State.lean ====
section
/-! SUPPORT. One lemma per field of State for each named update, and the fields a start and a reset leave. The block's
own fields follow from the `_block` lemmas, which name what the update writes. -/

namespace Sys2Proof.Machine

@[simp] theorem completeOk_block (s : State) : (completeOk s).block = { s.block with engine := .idle, done := true } := rfl
@[simp] theorem completeOk_mem (s : State) : (completeOk s).mem = s.mem := rfl
@[simp] theorem completeOk_platform (s : State) : (completeOk s).platform = s.platform := rfl
@[simp] theorem completeOk_hostDirty (s : State) : (completeOk s).hostDirty = s.hostDirty := rfl
@[simp] theorem completeOk_hostOvertaken (s : State) : (completeOk s).hostOvertaken = s.hostOvertaken := rfl
@[simp] theorem completeOk_hostStale (s : State) : (completeOk s).hostStale = s.hostStale := rfl
@[simp] theorem completeOk_pending (s : State) : (completeOk s).pending = s.pending := rfl
@[simp] theorem completeOk_replies (s : State) : (completeOk s).replies = s.replies := rfl
@[simp] theorem completeOk_bus (s : State) : (completeOk s).bus = s.bus := rfl
@[simp] theorem completeOk_draws (s : State) : (completeOk s).draws = s.draws := rfl

@[simp] theorem raise_block (e : Err) (s : State) : (raise e s).block =
    { s.block with errCode := e.code, errInfo := e.info, engine := .idle, err := true } := rfl
@[simp] theorem raise_mem (e : Err) (s : State) : (raise e s).mem = s.mem := rfl
@[simp] theorem raise_platform (e : Err) (s : State) : (raise e s).platform = s.platform := rfl
@[simp] theorem raise_hostDirty (e : Err) (s : State) : (raise e s).hostDirty = s.hostDirty := rfl
@[simp] theorem raise_hostOvertaken (e : Err) (s : State) : (raise e s).hostOvertaken = s.hostOvertaken := rfl
@[simp] theorem raise_hostStale (e : Err) (s : State) : (raise e s).hostStale = s.hostStale := rfl
@[simp] theorem raise_pending (e : Err) (s : State) : (raise e s).pending = s.pending := rfl
@[simp] theorem raise_replies (e : Err) (s : State) : (raise e s).replies = s.replies := rfl
@[simp] theorem raise_bus (e : Err) (s : State) : (raise e s).bus = s.bus := rfl
@[simp] theorem raise_draws (e : Err) (s : State) : (raise e s).draws = s.draws := rfl

@[simp] theorem setOutLen_block (v : Word) (s : State) : (setOutLen v s).block = { s.block with outLen := v } := rfl
@[simp] theorem setOutLen_mem (v : Word) (s : State) : (setOutLen v s).mem = s.mem := rfl
@[simp] theorem setOutLen_platform (v : Word) (s : State) : (setOutLen v s).platform = s.platform := rfl
@[simp] theorem setOutLen_hostDirty (v : Word) (s : State) : (setOutLen v s).hostDirty = s.hostDirty := rfl
@[simp] theorem setOutLen_hostOvertaken (v : Word) (s : State) : (setOutLen v s).hostOvertaken = s.hostOvertaken := rfl
@[simp] theorem setOutLen_hostStale (v : Word) (s : State) : (setOutLen v s).hostStale = s.hostStale := rfl
@[simp] theorem setOutLen_pending (v : Word) (s : State) : (setOutLen v s).pending = s.pending := rfl
@[simp] theorem setOutLen_replies (v : Word) (s : State) : (setOutLen v s).replies = s.replies := rfl
@[simp] theorem setOutLen_bus (v : Word) (s : State) : (setOutLen v s).bus = s.bus := rfl
@[simp] theorem setOutLen_draws (v : Word) (s : State) : (setOutLen v s).draws = s.draws := rfl

@[simp] theorem setTotalBits_block (v : Word) (s : State) : (setTotalBits v s).block = { s.block with totalBits := v } := rfl
@[simp] theorem setTotalBits_mem (v : Word) (s : State) : (setTotalBits v s).mem = s.mem := rfl
@[simp] theorem setTotalBits_platform (v : Word) (s : State) : (setTotalBits v s).platform = s.platform := rfl
@[simp] theorem setTotalBits_hostDirty (v : Word) (s : State) : (setTotalBits v s).hostDirty = s.hostDirty := rfl
@[simp] theorem setTotalBits_hostOvertaken (v : Word) (s : State) : (setTotalBits v s).hostOvertaken = s.hostOvertaken := rfl
@[simp] theorem setTotalBits_hostStale (v : Word) (s : State) : (setTotalBits v s).hostStale = s.hostStale := rfl
@[simp] theorem setTotalBits_pending (v : Word) (s : State) : (setTotalBits v s).pending = s.pending := rfl
@[simp] theorem setTotalBits_replies (v : Word) (s : State) : (setTotalBits v s).replies = s.replies := rfl
@[simp] theorem setTotalBits_bus (v : Word) (s : State) : (setTotalBits v s).bus = s.bus := rfl
@[simp] theorem setTotalBits_draws (v : Word) (s : State) : (setTotalBits v s).draws = s.draws := rfl

@[simp] theorem setDecNode_block (v : NodeIx) (s : State) : (setDecNode v s).block = { s.block with decNode := v } := rfl
@[simp] theorem setDecNode_mem (v : NodeIx) (s : State) : (setDecNode v s).mem = s.mem := rfl
@[simp] theorem setDecNode_platform (v : NodeIx) (s : State) : (setDecNode v s).platform = s.platform := rfl
@[simp] theorem setDecNode_hostDirty (v : NodeIx) (s : State) : (setDecNode v s).hostDirty = s.hostDirty := rfl
@[simp] theorem setDecNode_hostOvertaken (v : NodeIx) (s : State) : (setDecNode v s).hostOvertaken = s.hostOvertaken := rfl
@[simp] theorem setDecNode_hostStale (v : NodeIx) (s : State) : (setDecNode v s).hostStale = s.hostStale := rfl
@[simp] theorem setDecNode_pending (v : NodeIx) (s : State) : (setDecNode v s).pending = s.pending := rfl
@[simp] theorem setDecNode_replies (v : NodeIx) (s : State) : (setDecNode v s).replies = s.replies := rfl
@[simp] theorem setDecNode_bus (v : NodeIx) (s : State) : (setDecNode v s).bus = s.bus := rfl
@[simp] theorem setDecNode_draws (v : NodeIx) (s : State) : (setDecNode v s).draws = s.draws := rfl

@[simp] theorem setDecBits_block (v : Word) (s : State) : (setDecBits v s).block = { s.block with decBits := v } := rfl
@[simp] theorem setDecBits_mem (v : Word) (s : State) : (setDecBits v s).mem = s.mem := rfl
@[simp] theorem setDecBits_platform (v : Word) (s : State) : (setDecBits v s).platform = s.platform := rfl
@[simp] theorem setDecBits_hostDirty (v : Word) (s : State) : (setDecBits v s).hostDirty = s.hostDirty := rfl
@[simp] theorem setDecBits_hostOvertaken (v : Word) (s : State) : (setDecBits v s).hostOvertaken = s.hostOvertaken := rfl
@[simp] theorem setDecBits_hostStale (v : Word) (s : State) : (setDecBits v s).hostStale = s.hostStale := rfl
@[simp] theorem setDecBits_pending (v : Word) (s : State) : (setDecBits v s).pending = s.pending := rfl
@[simp] theorem setDecBits_replies (v : Word) (s : State) : (setDecBits v s).replies = s.replies := rfl
@[simp] theorem setDecBits_bus (v : Word) (s : State) : (setDecBits v s).bus = s.bus := rfl
@[simp] theorem setDecBits_draws (v : Word) (s : State) : (setDecBits v s).draws = s.draws := rfl

@[simp] theorem setFreq_block (f : Vector Word 256) (s : State) : (setFreq f s).block = { s.block with freq := f } := rfl
@[simp] theorem setFreq_mem (f : Vector Word 256) (s : State) : (setFreq f s).mem = s.mem := rfl
@[simp] theorem setFreq_platform (f : Vector Word 256) (s : State) : (setFreq f s).platform = s.platform := rfl
@[simp] theorem setFreq_hostDirty (f : Vector Word 256) (s : State) : (setFreq f s).hostDirty = s.hostDirty := rfl
@[simp] theorem setFreq_hostOvertaken (f : Vector Word 256) (s : State) : (setFreq f s).hostOvertaken = s.hostOvertaken := rfl
@[simp] theorem setFreq_hostStale (f : Vector Word 256) (s : State) : (setFreq f s).hostStale = s.hostStale := rfl
@[simp] theorem setFreq_pending (f : Vector Word 256) (s : State) : (setFreq f s).pending = s.pending := rfl
@[simp] theorem setFreq_replies (f : Vector Word 256) (s : State) : (setFreq f s).replies = s.replies := rfl
@[simp] theorem setFreq_bus (f : Vector Word 256) (s : State) : (setFreq f s).bus = s.bus := rfl
@[simp] theorem setFreq_draws (f : Vector Word 256) (s : State) : (setFreq f s).draws = s.draws := rfl

@[simp] theorem noteBus_block (k : AccessKind) (a : Nat) (s : State) : (noteBus k a s).block = s.block := rfl
@[simp] theorem noteBus_mem (k : AccessKind) (a : Nat) (s : State) : (noteBus k a s).mem = s.mem := rfl
@[simp] theorem noteBus_platform (k : AccessKind) (a : Nat) (s : State) : (noteBus k a s).platform = s.platform := rfl
@[simp] theorem noteBus_hostDirty (k : AccessKind) (a : Nat) (s : State) : (noteBus k a s).hostDirty =
    s.hostDirty := rfl
@[simp] theorem noteBus_hostOvertaken (k : AccessKind) (a : Nat) (s : State) : (noteBus k a s).hostOvertaken =
    s.hostOvertaken := rfl
@[simp] theorem noteBus_hostStale (k : AccessKind) (a : Nat) (s : State) : (noteBus k a s).hostStale =
    s.hostStale := rfl
@[simp] theorem noteBus_pending (k : AccessKind) (a : Nat) (s : State) : (noteBus k a s).pending = s.pending := rfl
@[simp] theorem noteBus_replies (k : AccessKind) (a : Nat) (s : State) : (noteBus k a s).replies = s.replies := rfl
@[simp] theorem noteBus_bus (k : AccessKind) (a : Nat) (s : State) : (noteBus k a s).bus = ⟨k, a⟩ :: s.bus := rfl
@[simp] theorem noteBus_draws (k : AccessKind) (a : Nat) (s : State) : (noteBus k a s).draws = s.draws := rfl

@[simp] theorem decodeStart_block (s : State) : (decodeStart s).block =
    { s.block with outLen := 0, decBits := 0, decNode := rootReg s.block } := rfl
@[simp] theorem decodeStart_mem (s : State) : (decodeStart s).mem = s.mem := rfl
@[simp] theorem decodeStart_platform (s : State) : (decodeStart s).platform = s.platform := rfl
@[simp] theorem decodeStart_hostDirty (s : State) : (decodeStart s).hostDirty = s.hostDirty := rfl
@[simp] theorem decodeStart_hostOvertaken (s : State) : (decodeStart s).hostOvertaken = s.hostOvertaken := rfl
@[simp] theorem decodeStart_hostStale (s : State) : (decodeStart s).hostStale = s.hostStale := rfl
@[simp] theorem decodeStart_pending (s : State) : (decodeStart s).pending = s.pending := rfl
@[simp] theorem decodeStart_replies (s : State) : (decodeStart s).replies = s.replies := rfl
@[simp] theorem decodeStart_bus (s : State) : (decodeStart s).bus = s.bus := rfl
@[simp] theorem decodeStart_draws (s : State) : (decodeStart s).draws = s.draws := rfl

@[simp] theorem writeTree_block (ns : List Node) (n : Nat) (s : State) : (writeTree ns n s).block =
    { s.block with node := overlay ns s.block.node, nleaf := BitVec.ofNat 9 n, nnode := BitVec.ofNat 9 ns.length, root := BitVec.ofNat 9 (ns.length - 1), treeValid := true } := rfl
@[simp] theorem writeTree_mem (ns : List Node) (n : Nat) (s : State) : (writeTree ns n s).mem = s.mem := rfl
@[simp] theorem writeTree_platform (ns : List Node) (n : Nat) (s : State) : (writeTree ns n s).platform =
    s.platform := rfl
@[simp] theorem writeTree_hostDirty (ns : List Node) (n : Nat) (s : State) : (writeTree ns n s).hostDirty =
    s.hostDirty := rfl
@[simp] theorem writeTree_hostOvertaken (ns : List Node) (n : Nat) (s : State) : (writeTree ns n s).hostOvertaken =
    s.hostOvertaken := rfl
@[simp] theorem writeTree_hostStale (ns : List Node) (n : Nat) (s : State) : (writeTree ns n s).hostStale =
    s.hostStale := rfl
@[simp] theorem writeTree_pending (ns : List Node) (n : Nat) (s : State) : (writeTree ns n s).pending =
    s.pending := rfl
@[simp] theorem writeTree_replies (ns : List Node) (n : Nat) (s : State) : (writeTree ns n s).replies =
    s.replies := rfl
@[simp] theorem writeTree_bus (ns : List Node) (n : Nat) (s : State) : (writeTree ns n s).bus = s.bus := rfl
@[simp] theorem writeTree_draws (ns : List Node) (n : Nat) (s : State) : (writeTree ns n s).draws = s.draws := rfl

@[simp] theorem writeCodes_block (c : Vector Code 256) (s : State) : (writeCodes c s).block =
    { s.block with code := c, maxLen := maxLenOf c, codeValid := true } := rfl
@[simp] theorem writeCodes_mem (c : Vector Code 256) (s : State) : (writeCodes c s).mem = s.mem := rfl
@[simp] theorem writeCodes_platform (c : Vector Code 256) (s : State) : (writeCodes c s).platform = s.platform := rfl
@[simp] theorem writeCodes_hostDirty (c : Vector Code 256) (s : State) : (writeCodes c s).hostDirty =
    s.hostDirty := rfl
@[simp] theorem writeCodes_hostOvertaken (c : Vector Code 256) (s : State) : (writeCodes c s).hostOvertaken =
    s.hostOvertaken := rfl
@[simp] theorem writeCodes_hostStale (c : Vector Code 256) (s : State) : (writeCodes c s).hostStale =
    s.hostStale := rfl
@[simp] theorem writeCodes_pending (c : Vector Code 256) (s : State) : (writeCodes c s).pending = s.pending := rfl
@[simp] theorem writeCodes_replies (c : Vector Code 256) (s : State) : (writeCodes c s).replies = s.replies := rfl
@[simp] theorem writeCodes_bus (c : Vector Code 256) (s : State) : (writeCodes c s).bus = s.bus := rfl
@[simp] theorem writeCodes_draws (c : Vector Code 256) (s : State) : (writeCodes c s).draws = s.draws := rfl

@[simp] theorem answer_block (r : Reply) (s : State) : (answer r s).block = s.block := rfl
@[simp] theorem answer_mem (r : Reply) (s : State) : (answer r s).mem = s.mem := rfl
@[simp] theorem answer_platform (r : Reply) (s : State) : (answer r s).platform = s.platform := rfl
@[simp] theorem answer_hostDirty (r : Reply) (s : State) : (answer r s).hostDirty = s.hostDirty := rfl
@[simp] theorem answer_hostOvertaken (r : Reply) (s : State) : (answer r s).hostOvertaken = s.hostOvertaken := rfl
@[simp] theorem answer_hostStale (r : Reply) (s : State) : (answer r s).hostStale = s.hostStale := rfl
@[simp] theorem answer_pending (r : Reply) (s : State) : (answer r s).pending = s.pending := rfl
@[simp] theorem answer_replies (r : Reply) (s : State) : (answer r s).replies = r :: s.replies := rfl
@[simp] theorem answer_bus (r : Reply) (s : State) : (answer r s).bus = s.bus := rfl
@[simp] theorem answer_draws (r : Reply) (s : State) : (answer r s).draws = s.draws := rfl

@[simp] theorem drawBytes_nil (s : State) : drawBytes [] s = s := rfl
@[simp] theorem drawBytes_block (l : List Nat) (s : State) : (drawBytes l s).block = s.block := by cases l <;> rfl
@[simp] theorem drawBytes_mem (l : List Nat) (s : State) : (drawBytes l s).mem =
    s.mem.drawList (Config.freeByte s.draws) l := by cases l <;> rfl
@[simp] theorem drawBytes_platform (l : List Nat) (s : State) : (drawBytes l s).platform = s.platform := by cases l <;> rfl
@[simp] theorem drawBytes_hostDirty (l : List Nat) (s : State) : (drawBytes l s).hostDirty = s.hostDirty := by
  cases l <;> rfl
@[simp] theorem drawBytes_hostOvertaken (l : List Nat) (s : State) : (drawBytes l s).hostOvertaken =
    s.hostOvertaken := by cases l <;> rfl
@[simp] theorem drawBytes_hostStale (l : List Nat) (s : State) : (drawBytes l s).hostStale = s.hostStale := by
  cases l <;> rfl
@[simp] theorem drawBytes_pending (l : List Nat) (s : State) : (drawBytes l s).pending = s.pending := by cases l <;> rfl
@[simp] theorem drawBytes_replies (l : List Nat) (s : State) : (drawBytes l s).replies = s.replies := by cases l <;> rfl
@[simp] theorem drawBytes_bus (l : List Nat) (s : State) : (drawBytes l s).bus = s.bus := by cases l <;> rfl

/-- With coherence a start leaves the host's copies and memory alone. -/
theorem overtakeCopies_coherent {s : State} (h : s.platform.dmaCoherent = true) (w : Word) : overtakeCopies w s = s := by
  simp [overtakeCopies, h]

/-- A start that overtakes no dirty copy leaves memory alone. -/
theorem overtakeCopies_mem (w : Word) (s : State) : (overtakeCopies w s).mem =
    if !s.platform.dmaCoherent && writesMemory w then s.mem.drawList (Config.freeByte s.draws) (dirtyDestination s)
    else s.mem := by
  unfold overtakeCopies; split <;> simp

@[simp] theorem startCommand_block (w : Word) (s : State) : (startCommand w s).block = startBlock w s.block := rfl
@[simp] theorem startCommand_mem (w : Word) (s : State) : (startCommand w s).mem = (overtakeCopies w s).mem := rfl
@[simp] theorem startCommand_platform (w : Word) (s : State) : (startCommand w s).platform = s.platform := by
  simp only [startCommand, overtakeCopies]; split <;> simp
@[simp] theorem startCommand_pending (w : Word) (s : State) : (startCommand w s).pending = s.pending := by
  simp only [startCommand, overtakeCopies]; split <;> simp
@[simp] theorem startCommand_replies (w : Word) (s : State) : (startCommand w s).replies = s.replies := by
  simp only [startCommand, overtakeCopies]; split <;> simp
@[simp] theorem startCommand_bus (w : Word) (s : State) : (startCommand w s).bus = s.bus := by
  simp only [startCommand, overtakeCopies]; split <;> simp

/-! ### What a start leaves (R126) -/

@[simp] theorem startBlock_engine (w : Word) (b : Block) : (startBlock w b).engine = .busy w := rfl
@[simp] theorem startBlock_lastCmd (w : Word) (b : Block) : (startBlock w b).lastCmd = w := rfl
@[simp] theorem startBlock_done (w : Word) (b : Block) : (startBlock w b).done = false := rfl
@[simp] theorem startBlock_err (w : Word) (b : Block) : (startBlock w b).err = false := rfl
@[simp] theorem startBlock_ovr (w : Word) (b : Block) : (startBlock w b).ovr = b.ovr := by
  simp only [startBlock, startClears, clearValid]; split_ifs <;> rfl
@[simp] theorem startBlock_doneIe (w : Word) (b : Block) : (startBlock w b).doneIe = b.doneIe := by
  simp only [startBlock, startClears, clearValid]; split_ifs <;> rfl
@[simp] theorem startBlock_errIe (w : Word) (b : Block) : (startBlock w b).errIe = b.errIe := by
  simp only [startBlock, startClears, clearValid]; split_ifs <;> rfl
@[simp] theorem startBlock_errCode (w : Word) (b : Block) : (startBlock w b).errCode = .none := rfl
@[simp] theorem startBlock_errInfo (w : Word) (b : Block) : (startBlock w b).errInfo = 0 := rfl
@[simp] theorem startBlock_srcAddr (w : Word) (b : Block) : (startBlock w b).srcAddr = b.srcAddr := by
  simp only [startBlock, startClears, clearValid]; split_ifs <;> rfl
@[simp] theorem startBlock_srcLen (w : Word) (b : Block) : (startBlock w b).srcLen = b.srcLen := by
  simp only [startBlock, startClears, clearValid]; split_ifs <;> rfl
@[simp] theorem startBlock_dstAddr (w : Word) (b : Block) : (startBlock w b).dstAddr = b.dstAddr := by
  simp only [startBlock, startClears, clearValid]; split_ifs <;> rfl
@[simp] theorem startBlock_dstCap (w : Word) (b : Block) : (startBlock w b).dstCap = b.dstCap := by
  simp only [startBlock, startClears, clearValid]; split_ifs <;> rfl
@[simp] theorem startBlock_totalBits (w : Word) (b : Block) : (startBlock w b).totalBits = b.totalBits := by
  simp only [startBlock, startClears, clearValid]; split_ifs <;> rfl
@[simp] theorem startBlock_outLen (w : Word) (b : Block) : (startBlock w b).outLen = b.outLen := by
  simp only [startBlock, startClears, clearValid]; split_ifs <;> rfl
@[simp] theorem startBlock_nleaf (w : Word) (b : Block) : (startBlock w b).nleaf = b.nleaf := by
  simp only [startBlock, startClears, clearValid]; split_ifs <;> rfl
@[simp] theorem startBlock_nnode (w : Word) (b : Block) : (startBlock w b).nnode = b.nnode := by
  simp only [startBlock, startClears, clearValid]; split_ifs <;> rfl
@[simp] theorem startBlock_root (w : Word) (b : Block) : (startBlock w b).root = b.root := by
  simp only [startBlock, startClears, clearValid]; split_ifs <;> rfl
@[simp] theorem startBlock_maxLen (w : Word) (b : Block) : (startBlock w b).maxLen = b.maxLen := by
  simp only [startBlock, startClears, clearValid]; split_ifs <;> rfl
@[simp] theorem startBlock_decNode (w : Word) (b : Block) : (startBlock w b).decNode = b.decNode := by
  simp only [startBlock, startClears, clearValid]; split_ifs <;> rfl
@[simp] theorem startBlock_decBits (w : Word) (b : Block) : (startBlock w b).decBits = b.decBits := by
  simp only [startBlock, startClears, clearValid]; split_ifs <;> rfl
@[simp] theorem startBlock_freq (w : Word) (b : Block) : (startBlock w b).freq = b.freq := by
  simp only [startBlock, startClears, clearValid]; split_ifs <;> rfl
@[simp] theorem startBlock_node (w : Word) (b : Block) : (startBlock w b).node = b.node := by
  simp only [startBlock, startClears, clearValid]; split_ifs <;> rfl
@[simp] theorem startBlock_code (w : Word) (b : Block) : (startBlock w b).code = b.code := by
  simp only [startBlock, startClears, clearValid]; split_ifs <;> rfl

theorem startBlock_treeValid (w : Word) (b : Block) : (startBlock w b).treeValid =
    if w = 0x00000001#32 ∨ w = 0x00000002#32 ∨ w = 0x00000003#32 then false else b.treeValid := by
  simp only [startBlock, startClears, clearValid]; split_ifs <;> rfl

theorem startBlock_codeValid (w : Word) (b : Block) : (startBlock w b).codeValid =
    if w = 0x00000001#32 ∨ w = 0x00000002#32 ∨ w = 0x00000003#32 then false
    else if w = 0x00000004#32 then false else b.codeValid := by
  simp only [startBlock, startClears, clearValid]; split_ifs <;> rfl

/-! ### What a reset leaves (R260, R262) -/

@[simp] theorem resetBlock_block (s : State) : (resetBlock s).block = Block.reset := rfl

@[simp] theorem resetBlock_platform (s : State) : (resetBlock s).platform = s.platform := by
  simp only [resetBlock, abortRunning]; split
  · rfl
  · split <;> rfl
@[simp] theorem resetBlock_hostDirty (s : State) : (resetBlock s).hostDirty = s.hostDirty := by
  simp only [resetBlock, abortRunning]; split
  · rfl
  · split <;> rfl
@[simp] theorem resetBlock_hostOvertaken (s : State) : (resetBlock s).hostOvertaken = s.hostOvertaken := by
  simp only [resetBlock, abortRunning]; split
  · rfl
  · split <;> rfl
@[simp] theorem resetBlock_hostStale (s : State) : (resetBlock s).hostStale = s.hostStale := by
  simp only [resetBlock, abortRunning]; split
  · rfl
  · split <;> rfl
@[simp] theorem resetBlock_pending (s : State) : (resetBlock s).pending = s.pending := by
  simp only [resetBlock, abortRunning]; split
  · rfl
  · split <;> rfl
@[simp] theorem resetBlock_replies (s : State) : (resetBlock s).replies = s.replies := by
  simp only [resetBlock, abortRunning]; split
  · rfl
  · split <;> rfl
@[simp] theorem resetBlock_bus (s : State) : (resetBlock s).bus = s.bus := by
  simp only [resetBlock, abortRunning]; split
  · rfl
  · split <;> rfl

/-! ### BUSY (R51) -/

@[simp] theorem busy_idle {b : Block} (h : b.engine = .idle) : busy b = false := by simp [busy, h]

@[simp] theorem busy_busy {b : Block} {w : Word} (h : b.engine = .busy w) : busy b = true := by simp [busy, h]

theorem busy_iff {b : Block} : busy b = true ↔ ∃ w, b.engine = .busy w := by
  cases h : b.engine <;> simp [busy, h]

theorem not_busy_iff {b : Block} : busy b = false ↔ b.engine = .idle := by
  cases h : b.engine <;> simp [busy, h]

end Sys2Proof.Machine
end

