-- ==== Sys2Proof/Laws/Results.lean ====
section
/-! SUPPORT. One lemma for each shared operation of Machine/Ops.lean: what it can answer, said once. -/

namespace Sys2Proof.Machine

@[simp] theorem Res.andThen_ok {α β : Type} (a : α) (s : State) (f : α → State → Res β) :
    (Res.ok a s).andThen f = f a s := rfl

@[simp] theorem Res.andThen_raised {α β : Type} (e : Err) (s : State) (f : α → State → Res β) :
    (Res.raised e s : Res α).andThen f = .raised e s := rfl

@[simp] theorem Res.state_ok {α : Type} (a : α) (s : State) : (Res.ok a s).state = s := rfl

@[simp] theorem Res.state_raised {α : Type} (e : Err) (s : State) : (Res.raised e s : Res α).state = s := rfl

@[simp] theorem finish_ok (a : Unit) (s : State) : finish (.ok a s) = completeOk s := rfl

@[simp] theorem finish_raised (e : Err) (s : State) : finish (.raised e s) = raise e s := rfl

@[simp] theorem require_none (s : State) : require none s = .ok () s := rfl

@[simp] theorem require_some (e : Err) (s : State) : require (some e) s = .raised e s := rfl

/-- A property of states that holds after a piece and, from there, after what follows, holds after both. -/
theorem Res.andThen_state {α β : Type} {P : State → Prop} {r : Res α} {f : α → State → Res β} (hr : P r.state)
    (hf : ∀ a s, r = .ok a s → P (f a s).state) : P (r.andThen f).state := by
  cases r with
  | ok a s => exact hf a s rfl
  | raised e s => exact hr

/-- An entry after a replacement. -/
theorem entry_setEntry {α : Type} (t : Vector α 256) (s r : Byte) (v : α) :
    entry (setEntry t s v) r = if r = s then v else entry t r := by
  unfold entry setEntry
  rw [Vector.getElem_set]
  by_cases h : r = s
  · subst h; simp
  · rw [if_neg h, if_neg fun h' => h (BitVec.eq_of_toNat_eq h'.symm)]

@[simp] theorem entry_setEntry_same {α : Type} (t : Vector α 256) (s : Byte) (v : α) :
    entry (setEntry t s v) s = v := by rw [entry_setEntry, if_pos rfl]

@[simp] theorem entry_replicate {α : Type} (v : α) (s : Byte) : entry (Vector.replicate 256 v) s = v := by
  simp [entry]

@[simp] theorem entry_zeroFreq (s : Byte) : entry zeroFreq s = 0#32 := entry_replicate _ _

/-- Every byte value is listed. -/
theorem mem_allBytes (s : Byte) : s ∈ allBytes := by
  simp only [allBytes, List.mem_map, List.mem_range]
  exact ⟨s.toNat, s.isLt, by simp⟩

theorem length_allBytes : allBytes.length = 256 := by simp [allBytes]

/-- Two tables with the same entries are the same. -/
theorem table_ext {α : Type} {t u : Vector α 256} (h : ∀ s : Byte, entry t s = entry u s) : t = u := by
  apply Vector.ext
  intro i hi
  have := h (BitVec.ofNat 8 i)
  have hi' : (BitVec.ofNat 8 i).toNat = i := by simp; omega
  simpa [entry, hi'] using this

/-- MemRead (R9, R83): the byte, with the access noted; or BUS_ERROR with the address. -/
theorem busRead_eq (a : Nat) (s : State) : busRead a s =
    if s.platform.busOk a .read = true then .ok (s.mem.read a) (noteBus .read a s)
    else .raised ⟨.busError, BitVec.ofNat 32 a⟩ (noteBus .read a s) := rfl

@[simp] theorem busRead_state (a : Nat) (s : State) : (busRead a s).state = noteBus .read a s := by
  rw [busRead_eq]; split <;> rfl

/-- `put` (R133): DST_OVERFLOW at capacity; else the byte is written and OUT_LEN grows; or BUS_ERROR, nothing written. -/
theorem put_eq (b : Byte) (s : State) : put b s =
    if s.block.outLen = s.block.dstCap then .raised ⟨.dstOverflow, s.block.dstCap⟩ s
    else if s.platform.busOk (s.block.dstAddr.toNat + s.block.outLen.toNat) .write = true then
      .ok () (setOutLen (s.block.outLen + 1)
        { noteBus .write (s.block.dstAddr.toNat + s.block.outLen.toNat) s with
          mem := s.mem.write (s.block.dstAddr.toNat + s.block.outLen.toNat) b })
    else .raised ⟨.busError, BitVec.ofNat 32 (s.block.dstAddr.toNat + s.block.outLen.toNat)⟩
      (noteBus .write (s.block.dstAddr.toNat + s.block.outLen.toNat) s) := by
  unfold put busWrite
  split
  · rfl
  · split <;> simp_all

theorem checkSrc_eq_none {b : Block} : checkSrc b = none ↔ b.srcAddr.toNat + b.srcLen.toNat ≤ Config.spaceEnd := by
  unfold checkSrc; split <;> simp <;> omega

theorem checkDst_eq_none {b : Block} : checkDst b = none ↔ b.dstAddr.toNat + b.dstCap.toNat ≤ Config.spaceEnd := by
  unfold checkDst; split <;> simp <;> omega

/-- The region checks look only at the four region registers. -/
theorem checkRegions_congr {b c : Block} (h₁ : c.srcAddr = b.srcAddr) (h₂ : c.srcLen = b.srcLen)
    (h₃ : c.dstAddr = b.dstAddr) (h₄ : c.dstCap = b.dstCap) : checkRegions c = checkRegions b := by
  simp only [checkRegions, checkSrc, checkDst, checkOverlap, h₁, h₂, h₃, h₄]

/-- The three region checks pass exactly on legal regions (R132). -/
theorem checkRegions_eq_none {b : Block} : checkRegions b = none ↔
    b.srcAddr.toNat + b.srcLen.toNat ≤ Config.spaceEnd ∧ b.dstAddr.toNat + b.dstCap.toNat ≤ Config.spaceEnd ∧
      (b.srcLen = 0 ∨ b.dstCap = 0 ∨ b.dstAddr.toNat + b.dstCap.toNat ≤ b.srcAddr.toNat ∨
        b.srcAddr.toNat + b.srcLen.toNat ≤ b.dstAddr.toNat) := by
  unfold checkRegions
  cases hs : checkSrc b with
  | some e =>
    have : ¬ b.srcAddr.toNat + b.srcLen.toNat ≤ Config.spaceEnd := by rw [← checkSrc_eq_none, hs]; simp
    simp [this]
  | none =>
    have h₁ := checkSrc_eq_none.mp hs
    cases hd : checkDst b with
    | some e =>
      have : ¬ b.dstAddr.toNat + b.dstCap.toNat ≤ Config.spaceEnd := by rw [← checkDst_eq_none, hd]; simp
      simp [this]
    | none =>
      have h₂ := checkDst_eq_none.mp hd
      simp only [h₁, h₂, true_and, checkOverlap]
      split
      · rename_i h
        simp only [reduceCtorEq, false_iff]
        rintro (h' | h' | h' | h')
        · exact h.1 h'
        · exact h.2.1 h'
        · omega
        · omega
      · rename_i h
        simp only [true_iff]
        by_cases h₃ : b.srcLen = 0
        · exact .inl h₃
        · by_cases h₄ : b.dstCap = 0
          · exact .inr (.inl h₄)
          · refine .inr (.inr ?_)
            by_contra hc
            exact h ⟨h₃, h₄, by omega, by omega⟩

/-- Every error the region checks raise has a code. -/
theorem checkRegions_code {b : Block} {e : Err} (h : checkRegions b = some e) : e.code ≠ .none := by
  unfold checkRegions checkSrc checkDst checkOverlap at h
  split at h
  · rename_i h'; split at h' <;> simp_all <;> subst h' <;> simp
  · split at h
    · rename_i h'; split at h' <;> simp_all <;> subst h' <;> simp
    · split at h <;> simp_all; subst h; simp

end Sys2Proof.Machine
end

