-- ==== Sys2Proof/Laws/Frames.lean ====
section
/-! SUPPORT. What a command may change while it runs, said once for each loop and each rule: which block fields move,
that memory changes only in the destination bytes OUT_LEN counts, and that every raise carries a code. -/

namespace Sys2Proof

open Sys2Proof.Machine

theorem SameAround.refl (s : State) : SameAround s s := ⟨rfl, rfl, rfl, rfl, rfl, rfl, rfl⟩

theorem SameAround.trans {s t u : State} (h : SameAround s t) (k : SameAround t u) : SameAround s u := by
  obtain ⟨h₁, h₂, h₃, h₄, h₅, h₆, h₇⟩ := h
  obtain ⟨k₁, k₂, k₃, k₄, k₅, k₆, k₇⟩ := k
  exact ⟨k₁.trans h₁, k₂.trans h₂, k₃.trans h₃, k₄.trans h₄, k₅.trans h₅, k₆.trans h₆, k₇.trans h₇⟩

end Sys2Proof

namespace Sys2Proof.Machine

/-- Memory, bus and the counted output between two states of one running command. -/
structure Emits (s t : State) : Prop where
  around : SameAround s t
  dstAddr : t.block.dstAddr = s.block.dstAddr
  dstCap : t.block.dstCap = s.block.dstCap
  grows : s.block.outLen.toNat ≤ t.block.outLen.toNat
  bound : s.block.outLen.toNat ≤ s.block.dstCap.toNat → t.block.outLen.toNat ≤ s.block.dstCap.toNat
  mem : ∀ a, ¬(s.block.dstAddr.toNat + s.block.outLen.toNat ≤ a ∧
    a < s.block.dstAddr.toNat + t.block.outLen.toNat) → t.mem.read a = s.mem.read a
  wf : s.mem.wf = true → t.mem.wf = true
  inSpace : s.block.dstAddr.toNat + s.block.dstCap.toNat ≤ Config.spaceEnd →
    s.block.outLen.toNat ≤ s.block.dstCap.toNat → s.mem.inSpace = true → t.mem.inSpace = true

/-- A change that leaves memory, OUT_LEN and the destination registers alone emits nothing. -/
theorem Emits.of_same {s t : State} (h : SameAround s t) (hm : t.mem = s.mem) (h₁ : t.block.dstAddr = s.block.dstAddr)
    (h₂ : t.block.dstCap = s.block.dstCap) (h₃ : t.block.outLen = s.block.outLen) : Emits s t where
  around := h
  dstAddr := h₁
  dstCap := h₂
  grows := by rw [h₃]
  bound := by rw [h₃]; exact id
  mem := fun a _ => by rw [hm]
  wf := by rw [hm]; exact id
  inSpace := fun _ _ => by rw [hm]; exact id

theorem Emits.refl (s : State) : Emits s s := .of_same (.refl s) rfl rfl rfl rfl

theorem Emits.trans {s t u : State} (h : Emits s t) (k : Emits t u) : Emits s u where
  around := h.around.trans k.around
  dstAddr := k.dstAddr.trans h.dstAddr
  dstCap := k.dstCap.trans h.dstCap
  grows := h.grows.trans k.grows
  bound := fun hb => by have := k.bound (by rw [h.dstCap]; exact h.bound hb); rwa [h.dstCap] at this
  mem := fun a ha => by
    have h₁ := h.grows
    have h₂ := k.grows
    rw [k.mem a (by rw [h.dstAddr]; omega), h.mem a (by omega)]
  wf := fun hw => k.wf (h.wf hw)
  inSpace := fun he hb hs =>
    k.inSpace (by rw [h.dstAddr, h.dstCap]; exact he) (by rw [h.dstCap]; exact h.bound hb) (h.inSpace he hb hs)

/-- Only OUT_LEN of the block differs. -/
def OnlyOutLen (s t : State) : Prop := t.block = { s.block with outLen := t.block.outLen }

/-- Only OUT_LEN, DEC_NODE and DEC_BITS of the block differ. -/
def OnlyCursor (s t : State) : Prop :=
  t.block = { s.block with outLen := t.block.outLen, decNode := t.block.decNode, decBits := t.block.decBits }

theorem OnlyOutLen.refl (s : State) : OnlyOutLen s s := rfl

theorem OnlyOutLen.trans {s t u : State} (h : OnlyOutLen s t) (k : OnlyOutLen t u) : OnlyOutLen s u := by
  unfold OnlyOutLen at *; rw [h] at k; exact k

theorem OnlyOutLen.cursor {s t : State} (h : OnlyOutLen s t) : OnlyCursor s t := by
  unfold OnlyOutLen OnlyCursor at *; rw [h]

theorem OnlyCursor.refl (s : State) : OnlyCursor s s := rfl

theorem OnlyCursor.trans {s t u : State} (h : OnlyCursor s t) (k : OnlyCursor t u) : OnlyCursor s u := by
  unfold OnlyCursor at *; rw [h] at k; exact k

/-- How the end of a piece relates to its start, and that a raise carries a code. -/
structure Ends {α : Type} (R : State → State → Prop) (s : State) (r : Res α) : Prop where
  emits : Emits s r.state
  only : R s r.state
  code : ∀ e t, r = .raised e t → e.code ≠ .none

theorem Ends.ok {α : Type} {R : State → State → Prop} {s t : State} {a : α} (h : Emits s t) (hR : R s t) :
    Ends R s (.ok a t) := ⟨h, hR, by intro e u h; cases h⟩

theorem Ends.raised {α : Type} {R : State → State → Prop} {s t : State} {e : Err} (h : Emits s t) (hR : R s t)
    (he : e.code ≠ .none) : Ends R s (.raised e t : Res α) :=
  ⟨h, hR, by intro e' u h; cases h; exact he⟩

/-- A piece followed by what goes on from its end. -/
theorem Ends.andThen {α β : Type} {R : State → State → Prop} (tr : ∀ {s t u}, R s t → R t u → R s u) {s : State}
    {r : Res α} {f : α → State → Res β} (h : Ends R s r) (k : ∀ a t, r = .ok a t → Ends R t (f a t)) :
    Ends R s (r.andThen f) := by
  cases r with
  | ok a t =>
    have k := k a t rfl
    exact ⟨h.emits.trans k.emits, tr h.only k.only, k.code⟩
  | raised e t => exact ⟨h.emits, h.only, by intro e' u h'; cases h'; exact h.code e t rfl⟩

/-- The same for the loops, which start elsewhere than the piece before them ended. -/
theorem Ends.from {α : Type} {R : State → State → Prop} (tr : ∀ {s t u}, R s t → R t u → R s u) {s t : State}
    {r : Res α} (h : Emits s t) (hR : R s t) (k : Ends R t r) : Ends R s r :=
  ⟨h.trans k.emits, tr hR k.only, k.code⟩

theorem busRead_ends (a : Nat) (s : State) : Ends OnlyOutLen s (busRead a s) := by
  rw [busRead_eq]
  split
  · exact .ok (.of_same (.refl _) rfl rfl rfl rfl) rfl
  · exact .raised (.of_same (.refl _) rfl rfl rfl rfl) rfl (by simp)

/-- A byte put at OUT_LEN is the one new destination byte. -/
theorem put_ends (b : Byte) (s : State) (hb : s.block.outLen.toNat ≤ s.block.dstCap.toNat) :
    Ends OnlyOutLen s (put b s) := by
  rw [put_eq]
  split
  · exact .raised (.refl _) rfl (by simp)
  · rename_i hne
    split
    · refine .ok ?_ rfl
      have hlt : s.block.outLen.toNat ≠ s.block.dstCap.toNat := fun h => hne (BitVec.eq_of_toNat_eq h)
      have hmax := s.block.dstCap.isLt
      have hone : (s.block.outLen + 1#32).toNat = s.block.outLen.toNat + 1 := by
        rw [BitVec.toNat_add]; simp; omega
      exact
        { around := .refl _
          dstAddr := rfl
          dstCap := rfl
          grows := by simp [hone]
          bound := fun h => by simp [hone]; omega
          mem := fun a ha => by
            simp only [setOutLen_mem]
            refine Memory.read_write_other _ _ ?_
            rintro rfl
            simp [hone] at ha
          wf := fun h => by simpa using Memory.wf_write h _ _
          inSpace := fun he hb h => by
            simpa using Memory.inSpace_write h (by omega) _ }
    · exact .raised (.of_same (.refl _) rfl rfl rfl rfl) rfl (by simp)

/-! ### ENCODE -/

theorem packBit_ends (bit : Bool) (p : Packer) (s : State) (hb : s.block.outLen.toNat ≤ s.block.dstCap.toNat) :
    Ends OnlyOutLen s (packBit bit p s) := by
  unfold packBit
  split
  · exact (put_ends _ _ hb).andThen .trans fun _ t _ => .ok (.refl t) rfl
  · exact .ok (.refl _) rfl

theorem packBits_ends (bits : List Bool) (p : Packer) (s : State)
    (hb : s.block.outLen.toNat ≤ s.block.dstCap.toNat) : Ends OnlyOutLen s (packBits bits p s) := by
  induction bits generalizing p s with
  | nil => exact .ok (.refl _) rfl
  | cons b rest ih =>
    have h := packBit_ends b p s hb
    refine h.andThen .trans fun q t ht => ih q t ?_
    rw [ht] at h
    have := h.emits.bound hb
    rwa [← h.emits.dstCap] at this

theorem packSymbol_ends (j : Nat) (sym : Byte) (p : Packer) (s : State)
    (hb : s.block.outLen.toNat ≤ s.block.dstCap.toNat) : Ends OnlyOutLen s (packSymbol j sym p s) := by
  unfold packSymbol
  split
  · exact .raised (.refl _) rfl (by simp)
  · split
    · exact .raised (.refl _) rfl (by simp)
    · exact packBits_ends _ _ _ hb

theorem packLoop_ends (base remaining j : Nat) (p : Packer) (s : State)
    (hb : s.block.outLen.toNat ≤ s.block.dstCap.toNat) : Ends OnlyOutLen s (packLoop base remaining j p s) := by
  induction remaining generalizing j p s with
  | zero => exact .ok (.refl _) rfl
  | succ n ih =>
    rw [packLoop]
    have h := busRead_ends (base + j) s
    cases hr : busRead (base + j) s with
    | raised e t => rw [hr] at h; exact .raised h.emits h.only (h.code e t rfl)
    | ok sym t =>
      rw [hr] at h
      have hbt : t.block.outLen.toNat ≤ t.block.dstCap.toNat := by
        have := h.emits.bound hb; rwa [← h.emits.dstCap] at this
      have k := packSymbol_ends j sym p t hbt
      cases hk : packSymbol j sym p t with
      | raised e u =>
        rw [hk] at k
        simp only
        rw [hk]
        exact .from .trans h.emits h.only k
      | ok q u =>
        rw [hk] at k
        simp only
        rw [hk]
        refine .from .trans (h.emits.trans k.emits) (h.only.trans k.only) (ih (j + 1) q u ?_)
        have := k.emits.bound hbt
        rwa [← k.emits.dstCap] at this

theorem packTail_ends (p : Packer) (s : State) (hb : s.block.outLen.toNat ≤ s.block.dstCap.toNat) :
    Ends OnlyOutLen s (packTail p s) := by
  unfold packTail
  split
  · exact put_ends _ _ hb
  · exact .ok (.refl _) rfl

/-! ### DECODE -/

/-- A move of the cursor registers emits nothing. -/
theorem cursor_moves {s t : State} (h : SameAround s t) (hm : t.mem = s.mem)
    (hb : t.block = { s.block with decNode := t.block.decNode, decBits := t.block.decBits }) :
    Emits s t ∧ OnlyCursor s t :=
  ⟨.of_same h hm (by rw [hb]) (by rw [hb]) (by rw [hb]), by unfold OnlyCursor; rw [hb]⟩

theorem Ends.cursor {α : Type} {s : State} {r : Res α} (h : Ends OnlyOutLen s r) : Ends OnlyCursor s r :=
  ⟨h.emits, h.only.cursor, h.code⟩

theorem fetchByte_ends (base i : Nat) (kept : Byte) (s : State) : Ends OnlyOutLen s (fetchByte base i kept s) := by
  unfold fetchByte
  split
  · exact busRead_ends _ _
  · exact .ok (.refl _) rfl

theorem singleLeafBit_ends (r : NodeIx) (i : Nat) (bit : Bool) (c : Cursor) (s : State)
    (hb : s.block.outLen.toNat ≤ s.block.dstCap.toNat) : Ends OnlyCursor s (singleLeafBit r i bit c s) := by
  unfold singleLeafBit
  split
  · exact .raised (.refl _) rfl (by simp)
  · exact (put_ends _ _ hb).cursor.andThen .trans fun _ t _ => .ok (.refl t) rfl

theorem treeBit_ends (r : NodeIx) (i : Nat) (bit : Bool) (c : Cursor) (s : State)
    (hb : s.block.outLen.toNat ≤ s.block.dstCap.toNat) : Ends OnlyCursor s (treeBit r i bit c s) := by
  have hm : ∀ v t, Emits t (setDecNode v t) ∧ OnlyCursor t (setDecNode v t) := fun v t =>
    cursor_moves (.refl t) rfl rfl
  unfold treeBit
  simp only
  split
  · have hs := hm (child (nodeAt s.block.node c.cur) bit) s
    refine .from .trans hs.1 hs.2 ?_
    refine (put_ends _ (setDecNode (child (nodeAt s.block.node c.cur) bit) s) hb).cursor.andThen .trans fun _ t _ => ?_
    exact .ok (hm _ t).1 (hm _ t).2
  · exact .ok (hm _ s).1 (hm _ s).2

theorem decodeBit_ends (base : Nat) (r : NodeIx) (i : Nat) (c : Cursor) (s : State)
    (hb : s.block.outLen.toNat ≤ s.block.dstCap.toNat) : Ends OnlyCursor s (decodeBit base r i c s) := by
  have h := fetchByte_ends base i c.byte s
  refine h.cursor.andThen .trans fun byte t ht => ?_
  have hbt : t.block.outLen.toNat ≤ t.block.dstCap.toNat := by
    rw [ht] at h
    have := h.emits.bound hb; rwa [← h.emits.dstCap] at this
  have hm : Emits t (setDecBits (BitVec.ofNat 32 (i + 1)) t) ∧ OnlyCursor t (setDecBits (BitVec.ofNat 32 (i + 1)) t) :=
    cursor_moves (.refl t) rfl rfl
  simp only
  refine .from .trans hm.1 hm.2 ?_
  split
  · exact singleLeafBit_ends _ _ _ _ _ hbt
  · exact treeBit_ends _ _ _ _ _ hbt

theorem decodeLoop_ends (base : Nat) (r : NodeIx) (remaining i : Nat) (c : Cursor) (s : State)
    (hb : s.block.outLen.toNat ≤ s.block.dstCap.toNat) :
    Ends OnlyCursor s (decodeLoop base r remaining i c s) := by
  induction remaining generalizing i c s with
  | zero => exact .ok (.refl _) rfl
  | succ n ih =>
    have h := decodeBit_ends base r i c s hb
    refine h.andThen .trans fun d t ht => ih (i + 1) d t ?_
    rw [ht] at h
    have := h.emits.bound hb
    rwa [← h.emits.dstCap] at this

theorem walkBits_ends (base : Nat) (r : NodeIx) (tb : Nat) (s : State)
    (hb : s.block.outLen.toNat ≤ s.block.dstCap.toNat) : Ends OnlyCursor s (walkBits base r tb s) := by
  refine (decodeLoop_ends base r tb 0 ⟨r, 0, 0⟩ s hb).andThen .trans fun c t _ => ?_
  split
  · exact .ok (.refl _) rfl
  · exact .raised (.refl _) rfl (by simp)

/-! ### FREQ_COUNT -/

/-- Counting changes nothing but the record of bus accesses. -/
theorem countLoop_ends (base remaining j : Nat) (h : Vector Word 256) (s : State) :
    (countLoop base remaining j h s).state.block = s.block ∧ (countLoop base remaining j h s).state.mem = s.mem ∧
      SameAround s (countLoop base remaining j h s).state ∧
      ∀ e t, countLoop base remaining j h s = .raised e t → e.code ≠ .none := by
  induction remaining generalizing j h s with
  | zero => exact ⟨rfl, rfl, .refl s, by intro e t h; cases h⟩
  | succ n ih =>
    rw [countLoop, busRead_eq]
    split
    · rename_i e t hr
      split at hr
      · cases hr
      · cases hr; exact ⟨rfl, rfl, .refl s, by intro e' t' h; cases h; simp⟩
    · rename_i b t hr
      split at hr
      · cases hr
        split
        · exact ⟨rfl, rfl, .refl s, by intro e' t' h; cases h; simp⟩
        · exact ih _ _ _
      · cases hr

end Sys2Proof.Machine
end

