-- ==== Sys2Proof/Laws/PerInstr.lean ====
section
/-! SUPPORT. What is said of every instruction as syntax, one lemma per constructor. -/

namespace Sys2Proof.Laws

/-- R110, R111, R117: the encoding of the command is one word with a zero reserved field and a defined opcode, it decodes
to that command, and no other word does. -/
def EncodedWord.Statement (i : Instr) : Prop :=
  i.wellFormed = true ∧ encode i = [encodeWord i] ∧ wordWellFormed (encodeWord i) = true ∧
    (encodeBytes i).length = 4 ∧ ∀ w : Word, decodeWord w = .ok i ↔ w = encodeWord i

theorem EncodedWord.freqClear : EncodedWord.Statement .freqClear := ⟨rfl, rfl, rfl, rfl, fun _ => decodeWord_eq_ok⟩

theorem EncodedWord.freqCount : EncodedWord.Statement .freqCount := ⟨rfl, rfl, rfl, rfl, fun _ => decodeWord_eq_ok⟩

theorem EncodedWord.buildTree : EncodedWord.Statement .buildTree := ⟨rfl, rfl, rfl, rfl, fun _ => decodeWord_eq_ok⟩

theorem EncodedWord.genCodes : EncodedWord.Statement .genCodes := ⟨rfl, rfl, rfl, rfl, fun _ => decodeWord_eq_ok⟩

theorem EncodedWord.encode : EncodedWord.Statement .encode := ⟨rfl, rfl, rfl, rfl, fun _ => decodeWord_eq_ok⟩

theorem EncodedWord.decode : EncodedWord.Statement .decode := ⟨rfl, rfl, rfl, rfl, fun _ => decodeWord_eq_ok⟩

end Sys2Proof.Laws
end

