-- ==== Sys2Proof/Laws/Window.lean ====
section
/-! SUPPORT. The register port: which place each offset names, and what a legal read or write does. -/

namespace Sys2Proof.Machine

/-- A read at an aligned offset (R71). -/
theorem regAccess_read {o : Offset} (h : o.toNat % 4 = 0) (v : Word) (s : State) :
    regAccess ⟨o, .read, 32, v⟩ s = .next (readLoc (locate o) s) := by
  simp [regAccess, RegAccess.legal, h]

/-- A write at an aligned offset that is not CMD (R71). -/
theorem regAccess_write {o : Offset} (h : o.toNat % 4 = 0) (hc : locate o ≠ .cmd) (v : Word) (s : State) :
    regAccess ⟨o, .write, 32, v⟩ s = .next (answer .done (writeLoc (locate o) v s)) := by
  simp [regAccess, RegAccess.legal, h, hc]

/-- A write to CMD while Idle starts the command, or is refused for the host's caches (R25, R126; log 10). -/
theorem regAccess_cmd_idle {s : State} (hi : s.block.engine = .idle) (w : Word) :
    regAccess ⟨0x008#15, .write, 32, w⟩ s =
      if sourceUnwritten w s = true then .refused .regionNotWrittenBack
      else .next (answer .done (startCommand w s)) := by
  have hl : locate 0x008#15 = .cmd := by decide
  unfold regAccess
  rw [if_pos (by simp [RegAccess.legal])]
  simp only [hl, busy_idle hi, true_and]
  split_ifs
  · rfl
  · simp [writeLoc, busy_idle hi]

/-- A write to CMD while BUSY is dropped (R270). -/
theorem regAccess_cmd_busy {s : State} (hb : busy s.block = true) (w : Word) :
    regAccess ⟨0x008#15, .write, 32, w⟩ s =
      .next (answer .done { s with block := { s.block with ovr := true } }) := by
  have hl : locate 0x008#15 = .cmd := by decide
  unfold regAccess
  rw [if_pos (by simp [RegAccess.legal])]
  simp [hl, hb, writeLoc, Loc.busyDrop]

/-- An illegal access is answered with a fault and changes nothing (R72). -/
theorem regAccess_illegal {a : RegAccess} (h : a.width ≠ 32 ∨ a.offset.toNat % 4 ≠ 0) (s : State) :
    regAccess a s = .next (answer .fault s) := by
  unfold regAccess
  rw [if_neg]
  rcases h with h | h <;> simp [RegAccess.legal, h]

/-- A read of a place whose value is defined (R22, R271). -/
theorem readLoc_defined {l : Loc} {s : State} (h : busy s.block = false ∨ l.busyAny = false) :
    readLoc l s = answer (.data (locValue s.block l)) s := by
  unfold readLoc
  rw [if_neg]
  rcases h with h | h <;> simp [h]

/-- A busy-any read while BUSY answers a fresh free value (R51, R271). -/
theorem readLoc_free {l : Loc} {s : State} (h : busy s.block = true) (hl : l.busyAny = true) :
    readLoc l s = answer (.data (Config.freeWord s.draws)) { s with draws := s.draws + 1 } := by
  unfold readLoc; rw [if_pos (by simp [h, hl])]

/-- A busy-drop write while BUSY sets OVR and changes nothing else (R270). -/
theorem writeLoc_dropped {l : Loc} {s : State} (h : busy s.block = true) (hl : l.busyDrop = true) (v : Word) :
    writeLoc l v s = { s with block := { s.block with ovr := true } } := by
  unfold writeLoc; rw [if_pos (by simp [h, hl])]

/-- A write of CTRL: bit 0 is the soft reset (R24). -/
theorem writeLoc_ctrl (v : Word) (s : State) :
    writeLoc .ctrl v s = if v.getLsbD 0 = true then resetBlock s else s := by
  simp [writeLoc, Loc.busyDrop]

/-- A write of STATUS (R26). -/
theorem writeLoc_status (v : Word) (s : State) :
    writeLoc .status v s = { s with block := writeStatus v s.block } := by
  simp [writeLoc, Loc.busyDrop]

/-- A write of IRQ_EN (R27). -/
theorem writeLoc_irqEn (v : Word) (s : State) :
    writeLoc .irqEn v s = { s with block := writeIrqEn v s.block } := by
  simp [writeLoc, Loc.busyDrop]

/-! ### Which place an offset names (R22) -/

theorem locate_low {o : Offset} (h : o.toNat < 0x400) : locate o = locateLow o.toNat := by
  unfold locate; rw [if_pos h]

theorem locate_freq {o : Offset} (h₁ : 0x400 ≤ o.toNat) (h₂ : o.toNat < 0x800) :
    locate o = .freq (o.extractLsb' 2 8) := by
  unfold locate; rw [if_neg (by omega), if_pos h₂]

theorem locate_hole {o : Offset} (h₁ : 0x800 ≤ o.toNat) (h₂ : o.toNat < 0x2000) : locate o = .reserved := by
  unfold locate; rw [if_neg (by omega), if_neg (by omega), if_pos h₂]

theorem locate_node {o : Offset} (h₁ : 0x2000 ≤ o.toNat) (h₂ : o.toNat < 0x4000) :
    locate o = .node (o.extractLsb' 4 9) (o.extractLsb' 2 2) := by
  unfold locate; rw [if_neg (by omega), if_neg (by omega), if_neg (by omega), if_pos h₂]

theorem locate_code {o : Offset} (h : 0x4000 ≤ o.toNat) :
    locate o = .code (o.extractLsb' 6 8) (o.extractLsb' 2 4) := by
  unfold locate; rw [if_neg (by omega), if_neg (by omega), if_neg (by omega), if_neg (by omega)]

/-- Only 0x008 names CMD (R25). -/
theorem locate_eq_cmd {o : Offset} (h : locate o = .cmd) : o = 0x008#15 := by
  unfold locate locateLow at h
  split_ifs at h
  split at h <;> first | (rename_i ho; exact BitVec.eq_of_toNat_eq ho) | cases h

/-- Only 0x004 names CTRL (R24). -/
theorem locate_eq_ctrl {o : Offset} (h : locate o = .ctrl) : o = 0x004#15 := by
  unfold locate locateLow at h
  split_ifs at h
  split at h <;> first | (rename_i ho; exact BitVec.eq_of_toNat_eq ho) | cases h

/-- Only 0x00C names STATUS (R26). -/
theorem locate_eq_status {o : Offset} (h : locate o = .status) : o = 0x00C#15 := by
  unfold locate locateLow at h
  split_ifs at h
  split at h <;> first | (rename_i ho; exact BitVec.eq_of_toNat_eq ho) | cases h

/-- Only 0x010 names IRQ_EN (R27). -/
theorem locate_eq_irqEn {o : Offset} (h : locate o = .irqEn) : o = 0x010#15 := by
  unfold locate locateLow at h
  split_ifs at h
  split at h <;> first | (rename_i ho; exact BitVec.eq_of_toNat_eq ho) | cases h

/-- Only the offsets of the FREQ window name a FREQ entry (R41). -/
theorem locate_eq_freq {o : Offset} {s : Byte} (h : locate o = .freq s) : 0x400 ≤ o.toNat ∧ o.toNat < 0x800 := by
  unfold locate locateLow at h
  split_ifs at h
  · split at h <;> cases h
  · omega

/-- The offset of FREQ[s] names FREQ[s] (R41). -/
theorem locate_freq_offset (s : Byte) : locate (0x400#15 + 4#15 * s.zeroExtend 15) = .freq s := by
  revert s; decide +kernel

/-- The offset of word `k` of NODE[i] names it (R45). -/
theorem locate_node_offset {i k : Nat} (hi : i < 512) (hk : k < 4) :
    locate (BitVec.ofNat 15 (0x2000 + 16 * i + 4 * k)) = .node (BitVec.ofNat 9 i) (BitVec.ofNat 2 k) := by
  have ho : (BitVec.ofNat 15 (0x2000 + 16 * i + 4 * k)).toNat = 0x2000 + 16 * i + 4 * k := by simp; omega
  rw [locate_node (by omega) (by omega)]
  congr 1 <;> apply BitVec.eq_of_toNat_eq <;> simp only [BitVec.extractLsb'_toNat, ho, BitVec.toNat_ofNat,
    Nat.shiftRight_eq_div_pow] <;> omega

/-- The offset of word `k` of CODE[s] names it (R49). -/
theorem locate_code_offset {s k : Nat} (hs : s < 256) (hk : k < 16) :
    locate (BitVec.ofNat 15 (0x4000 + 64 * s + 4 * k)) = .code (BitVec.ofNat 8 s) (BitVec.ofNat 4 k) := by
  have ho : (BitVec.ofNat 15 (0x4000 + 64 * s + 4 * k)).toNat = 0x4000 + 64 * s + 4 * k := by simp; omega
  rw [locate_code (by omega)]
  congr 1 <;> apply BitVec.eq_of_toNat_eq <;> simp only [BitVec.extractLsb'_toNat, ho, BitVec.toNat_ofNat,
    Nat.shiftRight_eq_div_pow] <;> omega

end Sys2Proof.Machine
end

