-- ==== Sys2Proof/Laws/Turn.lean ====
section
/-! SUPPORT. The engine's turn and the step: what Exec of a word is, and what each input leads to. -/

namespace Sys2Proof.Machine

/-- Exec of a word that selects a command (R127). -/
theorem execWord_ok {w : Word} {i : Instr} (h : decodeWord w = .ok i) (s : State) : execWord w s = exec i s := by
  have := decode_wordBytes w []
  rw [List.append_nil] at this
  unfold execWord; rw [this, h]

/-- Exec of a word that selects none (R131). -/
theorem execWord_illegal {w : Word} (h : ∀ i, decodeWord w ≠ .ok i) (s : State) :
    execWord w s = .next (illegalCommand w s) := by
  have := decode_wordBytes w []
  rw [List.append_nil] at this
  unfold execWord; rw [this]
  cases hd : decodeWord w with
  | ok i => exact absurd hd (h i)
  | error e => rfl

/-- The rule of a command (R140, R142, R150, R170, R185, R200). -/
def rule : Instr → State → Res Unit
  | .freqClear => freqClearRule
  | .freqCount => freqCountRule
  | .buildTree => buildTreeRule
  | .genCodes => genCodesRule
  | .encode => encodeRule
  | .decode => decodeRule

/-- A command always goes on: it completes as its rule ended (R128 to R130). -/
theorem exec_eq (i : Instr) (s : State) : exec i s = .next (finish (rule i s)) := by cases i <;> rfl

/-- A word selects a command or none. -/
theorem word_cases (w : Word) : (∃ i, decodeWord w = .ok i ∧ w = encodeWord i) ∨ ∀ i, decodeWord w ≠ .ok i := by
  cases h : decodeWord w with
  | ok i => exact .inl ⟨i, rfl, decodeWord_eq_ok.mp h⟩
  | error e => right; intro i hi; cases hi

/-- The engine's turn while Busy (R127): a command by its rule, or ILLEGAL_CMD. -/
theorem engineTurn_cases {s t : State} (h : engineTurn s = .next t) :
    (s.block.engine = .idle ∧ t = s) ∨
    (∃ i, s.block.engine = .busy (encodeWord i) ∧ t = finish (rule i s)) ∨
    (∃ w, s.block.engine = .busy w ∧ (∀ i, decodeWord w ≠ .ok i) ∧ t = illegalCommand w s) := by
  unfold engineTurn at h
  cases he : s.block.engine with
  | idle => rw [he] at h; injection h with h; exact .inl ⟨rfl, h.symm⟩
  | busy w =>
    rw [he] at h
    simp only at h
    rcases word_cases w with ⟨i, hi, rfl⟩ | hw
    · rw [execWord_ok hi, exec_eq] at h
      injection h with h
      exact .inr (.inl ⟨i, rfl, h.symm⟩)
    · rw [execWord_illegal hw] at h
      injection h with h
      exact .inr (.inr ⟨w, rfl, hw, h.symm⟩)

@[simp] theorem writeLoc_idle_cmd {s : State} (hi : s.block.engine = .idle) (w : Word) :
    writeLoc .cmd w s = startCommand w s := by
  simp [writeLoc, busy_idle hi]

/-- A write that is neither dropped nor of CMD, CTRL, STATUS or IRQ_EN goes to the block's own operands. -/
theorem writeLoc_operand {l : Loc} (h₁ : l ≠ .ctrl) (h₂ : l ≠ .status) (h₃ : l ≠ .irqEn) (h₄ : l ≠ .cmd) {s : State}
    (h : (busy s.block && l.busyDrop) = false) (v : Word) :
    writeLoc l v s = { s with block := writeOperand l v s.block } := by
  unfold writeLoc
  rw [if_neg (by simp [h])]
  cases l <;> first | rfl | contradiction

/-- Everything a register transaction can do when it goes on: it is answered and nothing else, or is a legal write that
is dropped, resets the block, or writes STATUS, IRQ_EN, CMD or an operand. -/
theorem regAccess_cases {a : RegAccess} {s t : State} (h : regAccess a s = .next t) :
    (∃ r, t = answer r s) ∨
    (∃ r, t = answer r { s with draws := s.draws + 1 }) ∨
    (busy s.block = true ∧ t = answer .done { s with block := { s.block with ovr := true } }) ∨
    (∃ v, v.getLsbD 0 = true ∧ writtenAt a = some (0x004#15, v) ∧ t = answer .done (resetBlock s)) ∨
    (∃ v, writtenAt a = some (0x00C#15, v) ∧ t = answer .done { s with block := writeStatus v s.block }) ∨
    (∃ v, writtenAt a = some (0x010#15, v) ∧ t = answer .done { s with block := writeIrqEn v s.block }) ∨
    (∃ w, s.block.engine = .idle ∧ writtenAt a = some (0x008#15, w) ∧ t = answer .done (startCommand w s)) ∨
    (∃ l v, locate a.offset = l ∧ writtenAt a = some (a.offset, v) ∧ (busy s.block && l.busyDrop) = false ∧
      t = answer .done { s with block := writeOperand l v s.block }) := by
  obtain ⟨o, k, width, v⟩ := a
  unfold regAccess at h
  split at h
  · rename_i hlegal
    cases k with
    | read =>
      simp only at h
      injection h with h
      unfold readLoc at h
      split at h
      · exact .inr (.inl ⟨_, h.symm⟩)
      · exact .inl ⟨_, h.symm⟩
    | write =>
      have hw : writtenAt ⟨o, .write, width, v⟩ = some (o, v) := by simp [writtenAt, hlegal]
      simp only at h
      split at h
      · cases h
      · injection h with h
        unfold writeLoc at h
        split at h
        · rename_i hb
          simp only [Bool.and_eq_true] at hb
          exact .inr (.inr (.inl ⟨hb.1, h.symm⟩))
        · rename_i hb
          simp only [Bool.not_eq_true] at hb
          cases hl : locate o with
          | ctrl =>
            rw [hl] at h
            simp only at h
            obtain rfl := locate_eq_ctrl hl
            split at h
            · rename_i hv; exact .inr (.inr (.inr (.inl ⟨v, hv, hw, h.symm⟩)))
            · exact .inl ⟨_, h.symm⟩
          | status =>
            rw [hl] at h
            obtain rfl := locate_eq_status hl
            exact .inr (.inr (.inr (.inr (.inl ⟨v, hw, h.symm⟩))))
          | irqEn =>
            rw [hl] at h
            obtain rfl := locate_eq_irqEn hl
            exact .inr (.inr (.inr (.inr (.inr (.inl ⟨v, hw, h.symm⟩)))))
          | cmd =>
            rw [hl] at h hb
            have hi : s.block.engine = .idle := by
              rw [← not_busy_iff]; simpa [Loc.busyDrop] using hb
            obtain rfl := locate_eq_cmd hl
            exact .inr (.inr (.inr (.inr (.inr (.inr (.inl ⟨v, hi, hw, h.symm⟩))))))
          | _ =>
            rw [hl] at h hb
            exact .inr (.inr (.inr (.inr (.inr (.inr (.inr ⟨_, v, rfl, hw, hb, h.symm⟩))))))
  · injection h with h
    exact .inl ⟨_, h.symm⟩

/-- What an access of the host to memory, or of its caches, can do: it changes no block state, and keeps memory's form. -/
def HostOnly (s t : State) : Prop :=
  t.block = s.block ∧ t.platform = s.platform ∧ t.bus = s.bus ∧ t.pending = s.pending ∧
    (s.mem.wf = true → t.mem.wf = true) ∧ (s.mem.inSpace = true → t.mem.inSpace = true)

theorem hostMemWrite_cases {a : Nat} {v : Byte} {s t : State} (ha : a < Config.spaceEnd)
    (h : hostMemWrite a v s = .next t) : HostOnly s t := by
  unfold hostMemWrite at h
  split at h
  · cases h
  · injection h with h
    subst h
    simp only
    split <;> exact ⟨rfl, rfl, rfl, rfl, fun h => Memory.wf_write h _ _, fun h => Memory.inSpace_write h ha _⟩

theorem hostMemRead_cases {a : Nat} {s t : State} (h : hostMemRead a s = .next t) :
    t = answer (.memData (s.mem.read a)) s := by
  unfold hostMemRead at h
  split_ifs at h
  injection h with h
  exact h.symm

theorem hostWriteBack_cases {r : Region} {s t : State} (h : hostWriteBack r s = .next t) :
    t = answer .done { s with hostDirty := s.hostDirty.filter fun a => !r.has a } := by
  unfold hostWriteBack at h
  split_ifs at h
  injection h with h
  exact h.symm

theorem hostDiscard_cases {r : Region} {s t : State} (h : hostDiscard r s = .next t) : HostOnly s t := by
  unfold hostDiscard at h
  injection h with h
  subst h
  exact ⟨by simp, by simp, by simp, by simp, fun h => by simpa using Memory.wf_drawList _ h,
    fun h => by simpa using Memory.inSpace_drawList _ h⟩

/-- Everything a step can do when it goes on (R135): the engine's turn, a register transaction, a hard reset, or what the
host does to memory and its caches. -/
theorem step_cases {s t : State} (h : step s = .next t) :
    (NextIsEngineTurn s ∧ engineTurn { s with pending := s.pending.tail } = .next t) ∨
    (∃ a e, s.pending.head? = some e ∧ registerWrite s.platform e = writtenAt a ∧
      regAccess a { s with pending := s.pending.tail } = .next t) ∨
    (s.pending.head? = some .hardReset ∧ t = resetBlock { s with pending := s.pending.tail }) ∨
    HostOnly { s with pending := s.pending.tail } t := by
  unfold step at h
  cases hp : s.pending with
  | nil =>
    rw [hp] at h
    refine .inl ⟨.inl hp, ?_⟩
    have hs : { s with pending := ([] : List Event).tail } = s := by cases s; simp only at hp; subst hp; rfl
    rw [hs]; exact h
  | cons e rest =>
    rw [hp] at h
    simp only [List.head?_cons, List.tail_cons]
    cases e with
    | reg a => exact .inr (.inl ⟨a, _, rfl, rfl, h⟩)
    | hostBus addr kind width data =>
      simp only [runEvent] at h
      split at h
      · rename_i o ho
        exact .inr (.inl ⟨_, _, rfl, by simp [registerWrite, show windowOffset s.platform addr = some o from ho], h⟩)
      · cases h
    | memWrite a v => exact .inr (.inr (.inr (hostMemWrite_cases a.isLt h)))
    | memRead a =>
      have := hostMemRead_cases h
      subst this
      exact .inr (.inr (.inr ⟨rfl, rfl, rfl, rfl, id, id⟩))
    | writeBack r =>
      have := hostWriteBack_cases h
      subst this
      exact .inr (.inr (.inr ⟨rfl, rfl, rfl, rfl, id, id⟩))
    | discard r => exact .inr (.inr (.inr (hostDiscard_cases h)))
    | hardReset => injection h with h; exact .inr (.inr (.inl ⟨rfl, h.symm⟩))
    | engineTurn => exact .inl ⟨.inr (by rw [hp]; rfl), h⟩

end Sys2Proof.Machine
end

