-- ==== Sys2Proof/Laws/Rules.lean ====
section
/-! SUPPORT. How the rule of each command ends: what of the block it may have changed, and its effect on memory. -/

namespace Sys2Proof.Machine

/-- Only OUT_LEN and TOTAL_BITS of the block differ. -/
def OnlyOutput (s t : State) : Prop :=
  t.block = { s.block with outLen := t.block.outLen, totalBits := t.block.totalBits }

theorem OnlyOutput.trans {s t u : State} (h : OnlyOutput s t) (k : OnlyOutput t u) : OnlyOutput s u := by
  unfold OnlyOutput at *; rw [h] at k; exact k

theorem OnlyOutLen.output {s t : State} (h : OnlyOutLen s t) : OnlyOutput s t := by
  unfold OnlyOutLen OnlyOutput at *; rw [h]

/-- Everything ENCODE can do to memory and the block before it completes (R185, R186, R191): it ends from OUT_LEN = 0, and
TOTAL_BITS is written only on success. -/
theorem encodeRule_ends (s : State) :
    Ends OnlyOutput (setOutLen 0 s) (encodeRule s) ∧
      ∀ e t, encodeRule s = .raised e t → t.block.totalBits = s.block.totalBits := by
  have same : OnlyOutput (setOutLen 0 s) (setOutLen 0 s) := rfl
  unfold encodeRule
  split
  · exact ⟨.raised (.refl _) same (by simp), by rintro e t ⟨⟩; rfl⟩
  · split
    · exact ⟨.raised (.refl _) same (by simp), by rintro e t ⟨⟩; rfl⟩
    · cases hc : checkRegions s.block with
      | some e =>
        refine ⟨.raised (.refl _) same (checkRegions_code hc), ?_⟩
        rintro e t ⟨⟩; rfl
      | none =>
        simp only [require_none, Res.andThen_ok]
        unfold pack
        have h := packLoop_ends s.block.srcAddr.toNat s.block.srcLen.toNat 0 Packer.empty (setOutLen 0 s) (by simp)
        cases hr : packLoop s.block.srcAddr.toNat s.block.srcLen.toNat 0 Packer.empty (setOutLen 0 s) with
        | raised e t =>
          rw [hr] at h
          refine ⟨.raised h.emits h.only.output (h.code e t rfl), ?_⟩
          rintro e' t' ⟨⟩
          have := h.only
          simp only [Res.state_raised, OnlyOutLen] at this
          rw [this]; rfl
        | ok p t =>
          rw [hr] at h
          simp only [Res.andThen_ok]
          have k := packTail_ends p t (by
            have := h.emits.bound (by simp); rw [← h.emits.dstCap] at this; exact this)
          cases hk : packTail p t with
          | raised e u =>
            rw [hk] at k
            refine ⟨.raised (h.emits.trans k.emits) (h.only.trans k.only).output (k.code e u rfl), ?_⟩
            rintro e' t' ⟨⟩
            have := h.only.trans k.only
            simp only [Res.state_raised, OnlyOutLen] at this
            rw [this]; rfl
          | ok q u =>
            rw [hk] at k
            refine ⟨.ok ?_ ?_, by rintro e t ⟨⟩⟩
            · exact (h.emits.trans k.emits).trans (.of_same (.refl _) rfl rfl rfl rfl)
            · exact OnlyOutput.trans (h.only.trans k.only).output rfl

/-- Everything DECODE can do to memory and the block before it completes (R201, R202). -/
theorem decodeRule_ends (s : State) : Ends OnlyCursor (decodeStart s) (decodeRule s) := by
  unfold decodeRule
  split
  · exact .raised (.refl _) rfl (by simp)
  · split
    · exact .raised (.refl _) rfl (by simp)
    · cases hc : checkRegions s.block with
      | some e => exact .raised (.refl _) rfl (checkRegions_code hc)
      | none => exact walkBits_ends _ _ _ _ (by simp)

/-- The start of DECODE changes only OUT_LEN, DEC_NODE and DEC_BITS. -/
theorem decodeStart_only (s : State) : OnlyCursor s (decodeStart s) := rfl

end Sys2Proof.Machine
end

