-- ==== Sys2Proof/Laws/Tree.lean ====
section
/-! SUPPORT. Laws of the tree builder and the code generator: extraction, the size of the arena, and that the two commands
leave the tables as `treeInv` and `codeInv` say. -/

namespace Sys2Proof.Machine

/-! ### Extraction (42_tree_builder.md R152, R153) -/

theorem minKey_mem (arena : List Node) (i : Nat) (l : List Nat) : minKey arena i l ∈ i :: l := by
  induction l generalizing i with
  | nil => simp [minKey]
  | cons j rest ih =>
    rw [minKey]
    have := ih (if keyLt arena j i then j else i)
    simp only [List.mem_cons] at this ⊢
    split at this <;> rename_i hk <;> simp only [hk, if_true, if_false, Bool.false_eq_true] <;> tauto

/-- What `takeMin` takes is active, and the rest is active without it. -/
theorem takeMin_some {arena : List Node} {active rest : List Nat} {a : Nat} (h : takeMin arena active = some (a, rest)) :
    a ∈ active ∧ rest = active.erase a := by
  cases active with
  | nil => cases h
  | cons i l =>
    simp only [takeMin, Option.some.injEq, Prod.mk.injEq] at h
    obtain ⟨rfl, rfl⟩ := h
    exact ⟨minKey_mem _ _ _, rfl⟩

theorem takeMin_none {arena : List Node} {active : List Nat} : takeMin arena active = none ↔ active = [] := by
  cases active <;> simp [takeMin]

theorem takeMin_length {arena : List Node} {active rest : List Nat} {a : Nat}
    (h : takeMin arena active = some (a, rest)) : rest.length + 1 = active.length := by
  obtain ⟨ha, rfl⟩ := takeMin_some h
  have := List.length_erase_of_mem ha
  have := List.length_pos_of_mem ha
  omega

/-! ### The arena -/

theorem length_leaves_le (freq : Vector Word 256) : (leaves freq).length ≤ 256 := by
  have := List.length_filterMap_le (fun s => if entry freq s = 0 then none else some (leafNode s (entry freq s))) allBytes
  rwa [length_allBytes] at this

/-- The merge loop adds one node less than there are active ones. -/
theorem length_mergeLoop (fuel : Nat) (active : List Nat) (arena : List Node) (h : active.length ≤ fuel + 1)
    (hne : active ≠ []) : (mergeLoop fuel active arena).length + 1 = arena.length + active.length := by
  induction fuel generalizing active arena with
  | zero =>
    have : active.length ≠ 0 := by simpa using hne
    simp only [mergeLoop]; omega
  | succ n ih =>
    rw [mergeLoop]
    cases h₁ : takeMin arena active with
    | none => exact absurd (takeMin_none.mp h₁) hne
    | some p =>
      obtain ⟨a, active₁⟩ := p
      have l₁ := takeMin_length h₁
      simp only
      cases h₂ : takeMin arena active₁ with
      | none =>
        have := takeMin_none.mp h₂
        subst this
        simp at l₁ ⊢; omega
      | some q =>
        obtain ⟨b, active₂⟩ := q
        have l₂ := takeMin_length h₂
        simp only
        rw [ih _ _ (by simp; omega) (by simp)]
        simp; omega

/-- The merge loop keeps the nodes it started from. -/
theorem mergeLoop_prefix (fuel : Nat) (active : List Nat) (arena : List Node) :
    arena <+: mergeLoop fuel active arena := by
  induction fuel generalizing active arena with
  | zero => exact List.prefix_refl _
  | succ n ih =>
    rw [mergeLoop]
    split
    · exact List.prefix_refl _
    · split
      · exact List.prefix_refl _
      · exact (List.prefix_append _ _).trans (ih _ _)

/-- n leaves make 2n - 1 nodes (R152). -/
theorem length_buildArena {freq : Vector Word 256} (h : leaves freq ≠ []) :
    (buildArena freq).length + 1 = 2 * (leaves freq).length := by
  unfold buildArena
  rw [length_mergeLoop _ _ _ (by simp) (by simpa using h)]
  simp; omega

theorem length_buildArena_le {freq : Vector Word 256} (h : leaves freq ≠ []) : (buildArena freq).length ≤ 511 := by
  have := length_buildArena h
  have := length_leaves_le freq
  omega

/-! ### The NODE table -/

/-- Slot `i` of the table: the tree's node where it has one, else what was there (R150). -/
theorem slot_overlay (arena : List Node) (old : Vector Node 511) {i : Nat} (hi : i < 511) :
    nodeAt (overlay arena old) (BitVec.ofNat 9 i) = if i < arena.length then arenaAt arena i else old[i] := by
  have h : (BitVec.ofNat 9 i).toNat = i := by simp; omega
  unfold nodeAt overlay arenaAt
  rw [dif_pos (by omega)]
  simp only [h, Vector.getElem_ofFn]
  split
  · rename_i hl; simp [List.getD, hl]
  · rename_i hl; simp [List.getD, List.getElem?_eq_none (Nat.le_of_not_lt hl)]

/-! ### Completion does not touch the tables (R129, R130) -/

theorem treeInv_completeOk {s : State} : treeInv (completeOk s).block ↔ treeInv s.block := Iff.rfl

theorem treeInv_raise {e : Err} {s : State} : treeInv (raise e s).block ↔ treeInv s.block := Iff.rfl

theorem codeInv_completeOk {s : State} : codeInv (completeOk s).block ↔ codeInv s.block := Iff.rfl

theorem codeInv_raise {e : Err} {s : State} : codeInv (raise e s).block ↔ codeInv s.block := Iff.rfl

/-- A start only ever clears TREE_VALID (R126). -/
theorem treeInv_start {w : Word} {b : Block} (h : treeInv b) : treeInv (startBlock w b) := by
  intro hv
  rw [startBlock_treeValid] at hv
  split at hv
  · cases hv
  · have := h hv
    simp only [startBlock_freq, startBlock_nleaf, startBlock_nnode, startBlock_root, slot, startBlock_node] at this ⊢
    exact this

/-- A start that leaves CODE_VALID leaves TREE_VALID (R126). -/
theorem codeInv_start {w : Word} {b : Block} (h : codeInv b) : codeInv (startBlock w b) := by
  intro hv
  rw [startBlock_codeValid] at hv
  split at hv
  · cases hv
  · rename_i hw
    split at hv
    · cases hv
    · have := h hv
      rw [startBlock_treeValid, if_neg hw]
      simpa using this

/-- A start meets what is said of a Busy block (R126). -/
theorem startInv_start (w : Word) (b : Block) : startInv (startBlock w b) := by
  intro v hv
  rw [startBlock_engine] at hv
  cases hv
  refine ⟨rfl, fun h => ?_, fun h => ?_⟩
  · have h' : w = 0x00000001#32 ∨ w = 0x00000002#32 ∨ w = 0x00000003#32 := h
    rw [startBlock_treeValid, startBlock_codeValid, if_pos h', if_pos h']; exact ⟨rfl, rfl⟩
  · rw [startBlock_codeValid]; subst h; rfl

/-- BUILD_TREE on success leaves the tables as TREE_VALID says (R26, R54). -/
theorem treeInv_writeTree {s : State} (h₁ : checkFreqRange s.block.freq = none) (h₂ : leaves s.block.freq ≠ []) :
    treeInv (writeTree (buildArena s.block.freq) (leaves s.block.freq).length s).block := by
  intro _
  refine ⟨h₁, h₂, rfl, rfl, rfl, fun i hi => ?_⟩
  have := length_buildArena_le h₂
  change nodeAt (overlay (buildArena s.block.freq) s.block.node) _ = arenaAt (buildArena s.block.freq) i
  change i < (buildArena s.block.freq).length at hi
  rw [slot_overlay _ _ (by omega), if_pos hi]

/-- GEN_CODES on success leaves the tables as CODE_VALID says (R26, R54). -/
theorem codeInv_writeCodes {s : State} (h : s.block.treeValid = true) :
    codeInv (writeCodes (genTable s.block.node s.block.root) s).block := fun _ => ⟨h, rfl, rfl⟩

/-- The rule of BUILD_TREE: an error with nothing changed, or the tree written (R150). -/
theorem buildTreeRule_cases (s : State) :
    (∃ e, e.code ≠ .none ∧ buildTreeRule s = .raised e s) ∨
    (checkFreqRange s.block.freq = none ∧ leaves s.block.freq ≠ [] ∧
      buildTreeRule s = .ok () (writeTree (buildArena s.block.freq) (leaves s.block.freq).length s)) := by
  unfold buildTreeRule
  cases hc : checkFreqRange s.block.freq with
  | some e =>
    refine .inl ⟨e, ?_, rfl⟩
    unfold checkFreqRange at hc
    split at hc <;> simp_all
    subst hc; simp
  | none =>
    simp only [require_none, Res.andThen_ok]
    split
    · exact .inl ⟨_, by simp, rfl⟩
    · rename_i h; exact .inr ⟨trivial, h, rfl⟩

/-- The rule of GEN_CODES: NO_TREE with nothing changed, or the codes written (R170). -/
theorem genCodesRule_cases (s : State) :
    (s.block.treeValid = false ∧ genCodesRule s = .raised ⟨.noTree, 0⟩ s) ∨
    (s.block.treeValid = true ∧ genCodesRule s = .ok () (writeCodes (genTable s.block.node s.block.root) s)) := by
  unfold genCodesRule
  cases h : s.block.treeValid <;> simp

/-- The rule of FREQ_COUNT changes only FREQ of the block, and no memory (R142). -/
theorem freqCountRule_ends (s : State) :
    (freqCountRule s).state.block = { s.block with freq := (freqCountRule s).state.block.freq } ∧
      (freqCountRule s).state.mem = s.mem ∧ SameAround s (freqCountRule s).state ∧
      ∀ e t, freqCountRule s = .raised e t → e.code ≠ .none ∧ t.block.freq = zeroFreq := by
  unfold freqCountRule
  split
  · exact ⟨rfl, rfl, .refl s, by rintro e t ⟨⟩; exact ⟨by simp, rfl⟩⟩
  · unfold checkSrc
    split
    · exact ⟨rfl, rfl, .refl s, by rintro e t ⟨⟩; exact ⟨by simp, rfl⟩⟩
    · simp only [require_none, Res.andThen_ok]
      obtain ⟨h₁, h₂, h₃, h₄⟩ :=
        countLoop_ends s.block.srcAddr.toNat s.block.srcLen.toNat 0 zeroFreq (setFreq zeroFreq s)
      cases hr : countLoop s.block.srcAddr.toNat s.block.srcLen.toNat 0 zeroFreq (setFreq zeroFreq s) with
      | raised e t =>
        rw [hr] at h₁ h₂ h₃ h₄
        simp only [Res.state_raised] at h₁ h₂ h₃
        refine ⟨by simp [h₁], h₂, h₃, ?_⟩
        rintro e' t' ⟨⟩
        exact ⟨h₄ e t rfl, by rw [h₁]; rfl⟩
      | ok f t =>
        rw [hr] at h₁ h₂ h₃
        simp only [Res.state_ok] at h₁ h₂ h₃
        exact ⟨by simp [h₁], h₂, h₃, by rintro e t ⟨⟩⟩

end Sys2Proof.Machine
end

