-- ==== Sys2Proof/Tests/Slice0.lean ====
section
/-! SUPPORT. Small tests: which words decode, one step of each command on the vectors of 95_test_vectors.md, the register
port and its hazards; every expected value is the spec's. After them, a witness for every statement with hypotheses. -/

namespace Sys2Proof.Tests

-- Each test is checked before the next begins, so that no long queue of kernel checks holds memory.
set_option Elab.async false

open Sys2Proof.Machine

/-! ### Helpers -/

/-- The next state of an outcome, if it is one. -/
def next? (o : Host.Outcome State Fault Refusal) : Option State :=
  match o with
  | .next s => some s
  | .fault _ => none
  | .refused _ => none

/-- The next state of an outcome that is one. -/
def after (o : Host.Outcome State Fault Refusal) : State := (next? o).getD State.reset

/-- A count table with the listed counts and no other. -/
def table (counts : List (Byte × Word)) : Vector Word 256 :=
  counts.foldl (fun t e => setEntry t e.1 e.2) (Vector.replicate 256 0)

/-- The reset machine, Busy with a word. -/
def started (w : Word) : State := { State.reset with block := { Block.reset with engine := .busy w, lastCmd := w } }

/-- Bytes in memory from an address on, none of them 0. -/
def bytesAt (a : Nat) (l : List Byte) : Memory := l.mapIdx fun k b => (a + k, b)

/-- A machine with a table of counts, bytes at 0x10000 as source, and a destination of 16 bytes at 0x20000. -/
def bench (counts : List (Byte × Word)) (source : List Byte) : State :=
  { State.reset with
    block := { Block.reset with
      freq := table counts
      srcAddr := 0x10000
      srcLen := BitVec.ofNat 32 source.length
      dstAddr := 0x20000
      dstCap := 16 }
    mem := bytesAt 0x10000 source }

/-- The bench with the tree of its counts. -/
def withTree (counts : List (Byte × Word)) (source : List Byte) : State := after (exec .buildTree (bench counts source))

/-- The bench with the codes of its counts. -/
def withCodes (counts : List (Byte × Word)) (source : List Byte) : State :=
  after (exec .genCodes (withTree counts source))

/-- The error a state reports, with what the command left in OUT_LEN. -/
def outcome (s : State) : ErrCode × Word × Word := (s.block.errCode, s.block.errInfo, s.block.outLen)

/-- The counts of "AAABBC". -/
def abc : List (Byte × Word) := [(0x41, 3), (0x42, 2), (0x43, 1)]

/-- Busy with a word from a state. -/
def busyWith (w : Word) (s : State) : State := { s with block := { s.block with engine := .busy w, lastCmd := w } }

/-- A machine Idle on a platform where the accesses of one kind to one address do not complete. -/
def holed (k : AccessKind) (a : Nat) (s : State) : State := { s with platform := ⟨0, [⟨k, ⟨a, 1⟩⟩], true⟩ }

/-- The reset machine with other operand registers. -/
def regions (sa sl da dc : Word) : State :=
  { State.reset with block := { Block.reset with srcAddr := sa, srcLen := sl, dstAddr := da, dstCap := dc } }

/-- The bench with a code table set by hand. -/
def coded (codes : List (Byte × Code)) (source : List Byte) : State :=
  { bench [] source with block := { (bench [] source).block with
      codeValid := true
      code := codes.foldl (fun t e => setEntry t e.1 e.2) (Vector.replicate 256 ⟨0, 0⟩) } }

/-- The bench with a NODE table set by hand, its last node the root, and a number of bits to decode. -/
def planted (nodes : List Node) (bits : Word) (source : List Byte) : State :=
  { bench [] source with block := { (bench [] source).block with
      treeValid := true
      totalBits := bits
      nnode := BitVec.ofNat 9 nodes.length
      root := BitVec.ofNat 9 (nodes.length - 1)
      node := nodes.zipIdx.foldl (fun t e => t.setIfInBounds e.2 e.1) (Vector.replicate 511 Node.zero) } }

/-- The nodes of "AAABBC" (TB-1). -/
def abcNodes : List Node := [⟨true, 0x41, 3, 511, 511⟩, ⟨true, 0x42, 2, 511, 511⟩, ⟨true, 0x43, 1, 511, 511⟩,
  ⟨false, 0, 3, 2, 1⟩, ⟨false, 0, 6, 0, 3⟩]

/-- A single leaf (TB-8). -/
def oneNode : List Node := [⟨true, 0x41, 5, 511, 511⟩]

/-- The codes of CG-1 and the source "AAABBC". -/
def abcCoded : State :=
  coded [(0x41, ⟨1, 0⟩), (0x42, ⟨2, 3⟩), (0x43, ⟨2, 2⟩)] [0x41, 0x41, 0x41, 0x42, 0x42, 0x43]

/-- The answer to the newest read. -/
def answered (o : Host.Outcome State Fault Refusal) : Option Reply := (after o).replies.head?

/-! ### Words and bytes (30_encoding.md R110 to R117; 95_test_vectors.md 2.6) -/

/-- R111: opcode 0x01 in bits 7 to 0 and zeros above. -/
theorem test_decodes_freqClear : decodeWord (0b000000000000000000000000#24 ++ 0b00000001#8) = .ok .freqClear := by decide
theorem test_decodes_freqCount : decodeWord (0b000000000000000000000000#24 ++ 0b00000010#8) = .ok .freqCount := by decide
theorem test_decodes_buildTree : decodeWord (0b000000000000000000000000#24 ++ 0b00000011#8) = .ok .buildTree := by decide
theorem test_decodes_genCodes : decodeWord (0b000000000000000000000000#24 ++ 0b00000100#8) = .ok .genCodes := by decide
theorem test_decodes_encode : decodeWord (0b000000000000000000000000#24 ++ 0b00000101#8) = .ok .encode := by decide
theorem test_decodes_decode : decodeWord (0b000000000000000000000000#24 ++ 0b00000110#8) = .ok .decode := by decide

/-- The same through the table's numbering of bits. -/
theorem test_decodeTableWord : (List.range 8).map (decodeTableWord 32) =
    [none, some .freqClear, some .freqCount, some .buildTree, some .genCodes, some .encode, some .decode, none] := by
  decide

/-- R113 (DX-3, DX-4): a set reserved bit makes a word ill formed, whatever its opcode. -/
theorem test_illFormed_reserved : wordWellFormed 0x00000102#32 = false ∧ wordWellFormed 0x80000005#32 = false := by decide

/-- R114 (DX-1, DX-2, DX-5): opcodes 0x00, 0x07 and 0xFF are ill formed. -/
theorem test_illFormed_opcode : wordWellFormed 0x00000000#32 = false ∧ wordWellFormed 0x00000007#32 = false ∧
    wordWellFormed 0x000000FF#32 = false := by decide

/-- The decoder rejects each by name, and a short word too. -/
theorem test_rejects_by_name :
    decode [0x02#8, 0x01#8, 0x00#8, 0x00#8] = .error .reservedBitsSet ∧
    decode [0x07#8, 0x00#8, 0x00#8, 0x00#8] = .error .opcodeUndefined ∧
    decode [0x01#8, 0x00#8, 0x00#8] = .error .truncated := by decide

/-! ### Commands (95_test_vectors.md 2.1 to 2.5) -/

/-- FC-1. -/
theorem test_freqClear :
    let b := (after (exec .freqClear (bench abc []))).block
    ([0x40, 0x41, 0x42, 0x43].map (entry b.freq), statusWord b) = ([0, 0, 0, 0], 0x02) := by decide +kernel

/-- FC-3: the counts replace what was there. -/
theorem test_freqCount :
    let b := (after (exec .freqCount (bench [(0x00, 9)] [0x41, 0x41, 0x41, 0x42, 0x42, 0x43]))).block
    [0x00, 0x41, 0x42, 0x43, 0x44].map (entry b.freq) = [0, 3, 2, 1, 0] := by decide +kernel

/-- FC-7: the read of byte 2 fails; bytes 0 and 1 were read, and no later one. -/
theorem test_freqCount_busError :
    let s := after (exec .freqCount { bench [] [0x41, 0x41, 0x41, 0x42, 0x42, 0x43] with
      platform := ⟨0, [⟨.read, ⟨0x10002, 1⟩⟩], true⟩ })
    outcome s = (.busError, 0x00010002, 0) ∧ entry s.block.freq 0x41 = 0 ∧
      s.bus = [⟨.read, 0x10002⟩, ⟨.read, 0x10001⟩, ⟨.read, 0x10000⟩] := by decide +kernel

/-- TB-1: nodes, NLEAF, NNODE, ROOT and STATUS. -/
theorem test_buildTree :
    let b := (withTree abc []).block
    (List.range 5).map (slot b) = [⟨true, 0x41, 3, 511, 511⟩, ⟨true, 0x42, 2, 511, 511⟩, ⟨true, 0x43, 1, 511, 511⟩,
      ⟨false, 0, 3, 2, 1⟩, ⟨false, 0, 6, 0, 3⟩] ∧
    (b.nleaf, b.nnode, b.root, statusWord b) = (3, 5, 4, 0x12) := by decide +kernel

/-- TB-10: the largest counts; the root's frequency needs more than 32 bits. -/
theorem test_buildTree_wide :
    slot (withTree [(0, 0x7FFFFFFF), (1, 0x7FFFFFFF), (2, 0x7FFFFFFF)] []).block 4 = ⟨false, 0, 0x17FFFFFFD, 2, 3⟩ := by
  decide +kernel

/-- CG-8: the codes of "mississippi". -/
theorem test_genCodes :
    let c := (withCodes [(0x69, 4), (0x6D, 1), (0x70, 2), (0x73, 4)] []).block.code
    (entry c 0x73, entry c 0x6D, entry c 0x70, entry c 0x69, entry c 0x41) =
      (⟨1, 0⟩, ⟨3, 4⟩, ⟨3, 5⟩, ⟨2, 3⟩, ⟨0, 0⟩) := by decide +kernel

/-- CG-9: a single leaf gets the 1-bit code 0. -/
theorem test_genCodes_single :
    let b := (withCodes [(0x41, 5)] []).block
    (entry b.code 0x41, b.maxLen, statusWord b) = (⟨1, 0⟩, 1, 0x32) := by decide +kernel

/-- EN-1. -/
theorem test_encode :
    let s := after (exec .encode abcCoded)
    s.mem.bytes 0x20000 2 = [0x1F, 0x00] ∧ (s.block.totalBits, outcome s) = (9, (.none, 0, 2)) := by decide +kernel

/-- EN-15: a byte without a code; the pending bit is not written. -/
theorem test_encode_noCode :
    let s := after (exec .encode (coded [(0x41, ⟨1, 0⟩)] [0x41, 0x44]))
    s.mem = bytesAt 0x10000 [0x41, 0x44] ∧ (s.block.totalBits, outcome s) = (0, (.noCode, 1, 0)) := by decide +kernel

/-- DE-5: the stream ends inside a code. -/
theorem test_decode_endMidCode :
    let s := after (exec .decode (planted abcNodes 8 [0x1F]))
    s.mem.bytes 0x20000 5 = [0x41, 0x41, 0x41, 0x42, 0x42] ∧
      (s.block.decBits, s.block.decNode, outcome s) = (8, 3, (.endMidCode, 7, 5)) := by decide +kernel

/-- DE-13: a 1 bit in a single-leaf tree. -/
theorem test_decode_badCode :
    let s := after (exec .decode (planted oneNode 2 [0x40]))
    (s.block.decBits, s.block.decNode, outcome s) = (2, 0, (.badCode, 1, 1)) := by decide +kernel

/-! ### Dispatch, registers and hazards (95_test_vectors.md 2.6, 2.7) -/

/-- withFetchWord places a word so that the next step runs it: each of the six ends Idle, with LAST_CMD the word. -/
theorem test_withFetchWord : ∀ w ∈ [1, 2, 3, 4, 5, 6],
    let s := after (step (State.reset.withFetchWord 32 w))
    (s.block.engine, s.block.lastCmd, s.block.errCode) =
      (.idle, BitVec.ofNat 32 w, [ErrCode.none, .emptyInput, .treeEmpty, .noTree, .noCodes, .noTree].getD (w - 1) .none) := by
  decide +kernel

/-- DX-3: an illegal word reports itself. -/
theorem test_illegalCommand :
    let s := after (step (State.reset.withFetchWord 32 0x102))
    (statusWord s.block, outcome s) = (0x04, (.illegalCmd, 0x102, 0)) := by decide +kernel

/-- DX-11: write-one-to-clear, with writes to bits 0, 4 and 5 ignored. -/
theorem test_statusWrite :
    let b := { Block.reset with done := true, ovr := true, treeValid := true, codeValid := true }
    (statusWord b, statusWord (writeStatus 0x3F b), statusWord (writeStatus 0x37 b)) = (0x3A, 0x30, 0x38) := by decide +kernel

/-- DX-10: an access of 16 bits, and one at offset 0x002, get the error response. -/
theorem test_illegalAccess : answered (regAccess ⟨0x000, .read, 16, 0⟩ State.reset) = some .fault ∧
    answered (regAccess ⟨0x002, .read, 32, 0⟩ State.reset) = some .fault := by decide +kernel

/-- R28, R243: an acknowledge of ERR leaves ERR_CODE and ERR_INFO, which the next start clears. -/
theorem test_acknowledge :
    let s := illegalCommand 7 (started 7)
    let b := (after (regAccess ⟨0x00C, .write, 32, 4⟩ s)).block
    (b.err, b.errCode, b.errInfo, (startBlock 1 b).errCode, (startBlock 1 b).errInfo) =
      (false, .illegalCmd, 7, .none, 0) := by decide +kernel

/-- FC-11: a FREQ write clears both validity flags. -/
theorem test_freqWrite :
    let t := planted abcNodes 0 []
    let s := after (regAccess ⟨0x504, .write, 32, 7⟩ { t with block := { t.block with codeValid := true } })
    (entry s.block.freq 0x41, s.block.treeValid, s.block.codeValid) = (7, false, false) := by decide +kernel

/-- HZ-1, HZ-3: writes while BUSY are dropped and set OVR. -/
theorem test_busyWrites : ([0x008, 0x504].map fun o =>
    let s := after (regAccess ⟨o, .write, 32, 1⟩ (started 4))
    (statusWord s.block, s.block.lastCmd, entry s.block.freq 0x41)) = [(0x09, 4, 0), (0x09, 4, 0)] := by decide +kernel

/-- HZ-11, HZ-13: the soft reset needs bit 0. -/
theorem test_softReset : ([1, 2].map fun v =>
    let s := after (regAccess ⟨0x004, .write, 32, v⟩ abcCoded)
    (statusWord s.block, s.block.srcAddr, (entry s.block.code 0x41).len)) = [(0, 0, 0), (0x20, 0x10000, 1)] := by
  decide +kernel

/-- TB-1, CG-1: words of the NODE and CODE windows. -/
theorem test_windows :
    ([0x2000, 0x2004, 0x2034, 0x2038, 0x2044, 0x2050].map
      fun o => answered (regAccess ⟨o, .read, 32, 0⟩ (planted abcNodes 0 []))) =
      ([0x80410000, 0x01FF01FF, 0x00010002, 3, 0x00030000, 0].map fun w => some (.data w)) ∧
    ([0x5040, 0x5080, 0x5084, 0x5000].map fun o => answered (regAccess ⟨o, .read, 32, 0⟩ abcCoded)) =
      ([1, 2, 3, 0].map fun w => some (.data w)) := by decide +kernel

/-- R45: the words of slot 511 read 0 while BUSY too. -/
theorem test_slot511 : ([0x3FF0, 0x3FFC].map fun o => answered (regAccess ⟨o, .read, 32, 0⟩ (started 4))) =
    [some (.data 0), some (.data 0)] := by decide +kernel

/-- R87 item 3: BUILD_TREE too keeps the host out of both regions; the host may read a source byte. -/
theorem test_regionsWhileBusy : let b := (busyWith 3 (regions 0x10000 6 0x20000 2)).block
    (hostMayNot .write 0x10005 b, hostMayNot .read 0x10005 b, hostMayNot .read 0x20001 b, hostMayNot .write 0x20002 b) =
      (true, false, true, false) := by decide +kernel

/-- R91: a dirty destination byte stops no ENCODE; its old copy may be discarded and not written back. -/
theorem test_dirtyDestination :
    let s := startCommand 5 { regions 0x10000 6 0x20000 2 with platform := ⟨0, [], false⟩, hostDirty := [0x20001] }
    (s.hostDirty, s.hostOvertaken, (next? (hostWriteBack ⟨0x20000, 2⟩ s)).isNone) = ([], [0x20001], true) ∧
    (let t := after (hostDiscard ⟨0x20000, 2⟩ { s with block := Block.reset })
     (t.hostOvertaken, t.hostStale)) = ([], []) := by decide +kernel

/-- AR-1: the artifact of "AAABBC". -/
theorem test_artifact :
    let s := after (exec .encode { abcCoded with block := { abcCoded.block with freq := table abc } })
    (artifactOf [0x74] s).bytes =
      [0x01, 0x00, 0x00, 0x00, 0x74, 0x03, 0x00, 0x00, 0x00, 0x41, 0x03, 0x00, 0x00, 0x00, 0x42, 0x02, 0x00, 0x00, 0x00,
        0x43, 0x01, 0x00, 0x00, 0x00, 0x09, 0x00, 0x00, 0x00, 0x1F, 0x00] := by decide +kernel

/-! ### Every statement with hypotheses is about something: a state, and operands, that meet them together

The witnesses of a statement are named after it; one with several clauses has a witness for each, at the ends of its
ranges. -/

theorem after_exec (i : Instr) (s : State) : after (exec i s) = finish (rule i s) := by rw [exec_eq]; rfl

theorem exec_after (i : Instr) (s : State) : exec i s = .next (after (exec i s)) := by rw [after_exec, exec_eq]

theorem treeInv_buildTree {s : State} (h : s.block.treeValid = false) : treeInv (after (exec .buildTree s)).block := by
  rw [after_exec]
  rcases buildTreeRule_cases s with ⟨e, _, he⟩ | ⟨h₁, h₂, he⟩
  · simp only [rule, he, finish_raised]
    intro hv
    exact absurd (h.symm.trans hv) (by simp)
  · simp only [rule, he, finish_ok]
    exact treeInv_completeOk.mpr (treeInv_writeTree h₁ h₂)

theorem codeInv_genCodes {s : State} (h : s.block.codeValid = false) : codeInv (after (exec .genCodes s)).block := by
  rw [after_exec]
  rcases genCodesRule_cases s with ⟨_, he⟩ | ⟨h₁, he⟩
  · simp only [rule, he, finish_raised]
    intro hv
    exact absurd (h.symm.trans hv) (by simp)
  · simp only [rule, he, finish_ok]
    exact codeInv_completeOk.mpr (codeInv_writeCodes h₁)

theorem treeInv_genCodes {s : State} (h : treeInv s.block) : treeInv (after (exec .genCodes s)).block := by
  rw [after_exec]
  rcases genCodesRule_cases s with ⟨_, he⟩ | ⟨_, he⟩
  · simp only [rule, he, finish_raised]
    exact h
  · simp only [rule, he, finish_ok]
    exact h

theorem bench_treeInv (c : List (Byte × Word)) (l : List Byte) : treeInv (withTree c l).block := treeInv_buildTree rfl

theorem bench_codesTree (c : List (Byte × Word)) (l : List Byte) : treeInv (withCodes c l).block :=
  treeInv_genCodes (bench_treeInv c l)

theorem buildTree_codeValid (s : State) : (after (exec .buildTree s)).block.codeValid = s.block.codeValid := by
  rw [after_exec]
  rcases buildTreeRule_cases s with ⟨e, _, he⟩ | ⟨_, _, he⟩ <;> simp only [rule, he] <;> rfl

theorem bench_codeInv (c : List (Byte × Word)) (l : List Byte) : codeInv (withCodes c l).block :=
  codeInv_genCodes (buildTree_codeValid _)

theorem readable_all {s : State} (h : s.platform.holes = []) (n : Nat) : SourceReadable s n := by
  intro j _; simp [Platform.busOk, h]

theorem writable_all {s : State} (h : s.platform.holes = []) (n : Nat) : DestWritable s n := by
  intro j _; simp [Platform.busOk, h]

theorem count_source {s : State} {n : Nat} (h : s.block.srcLen.toNat ≤ n) (b : Byte) : (sourceBytes s).count b ≤ n :=
  List.count_le_length.trans (by simpa [sourceBytes, sourcePrefix] using h)

theorem count_le {l : List Byte} {n : Nat} (h : l.length ≤ n) (b : Byte) : l.count b ≤ n :=
  List.count_le_length.trans h

/-! #### Dispatch -/

theorem witness_StepRunsDecodedCommand : ∃ (s : State) (w : Word) (i : Instr), s.block.engine = .busy w ∧
    decodeWord w = .ok i ∧ s.pending = [] := ⟨started 4, 4, .genCodes, rfl, by decide, rfl⟩

theorem witness_StepRunsDecodedCommand_queued : ∃ (s : State) (w : Word) (i : Instr) (rest : List Event),
    s.block.engine = .busy w ∧ decodeWord w = .ok i ∧ s.pending = .engineTurn :: rest :=
  ⟨{ started 4 with pending := [.engineTurn, .hardReset] }, 4, .genCodes, [.hardReset], rfl, by decide, rfl⟩

theorem witness_DecodeOfEncode : ∀ i : Instr, i.wellFormed = true := by intro i; cases i <;> rfl

theorem witness_IllegalWordOnlyReportsItself : ∃ (s : State) (w : Word), s.block.engine = .busy w ∧
    ∀ i, decodeWord w ≠ .ok i := ⟨started 7, 7, rfl, by intro i; cases i <;> decide⟩

/-- The smallest and largest undefined opcodes, opcode 0, and the lowest and highest reserved bit. -/
theorem witness_IllegalWordOnlyReportsItself_words : ∀ w ∈ [0x07#32, 0xFF#32, 0x00#32, 0x102#32, 0x80000005#32],
    w.extractLsb' 8 24 ≠ 0#24 ∨ w.extractLsb' 0 8 = 0#8 ∨ 7 ≤ (w.extractLsb' 0 8).toNat := by simp

theorem witness_CommandStartEffects : State.reset.block.engine = .idle ∧ sourceUnwritten 5 State.reset = false ∧
    State.reset.platform.dmaCoherent = true := ⟨rfl, rfl, rfl⟩

/-- A machine on a platform without coherence. -/
def uncached (s : State) : State := { s with platform := { s.platform with dmaCoherent := false } }

/-- Without coherence, a dirty byte before the destination and one in it; and a word that is not ENCODE or DECODE. -/
theorem witness_CommandStartEffects_dirty : let s := { uncached (regions 0x10000 6 0x20000 2) with
      hostDirty := [0x1FFFF, 0x20001] }
    s.block.engine = .idle ∧ sourceUnwritten 5 s = false ∧ (dstRegion s.block).has 0x1FFFF = false ∧
      (dstRegion s.block).has 0x20001 = true ∧ (0x20000 ∉ s.hostDirty) ∧ sourceUnwritten 3 s = false ∧
      (0x3#32 ≠ 0x5 ∧ 0x3#32 ≠ 0x6) := by decide +kernel

/-- Without coherence, the last source byte dirty: refused for FREQ_COUNT, ENCODE and DECODE. -/
theorem witness_CommandStartEffects_unwritten : let s := { uncached (regions 0x10000 6 0x20000 2) with hostDirty := [0x10005] }
    s.block.engine = .idle ∧ s.platform.dmaCoherent = false ∧ (∃ a ∈ s.hostDirty, (srcRegion s.block).has a = true) ∧
      ([2, 5, 6].map fun w => sourceUnwritten w s) = [true, true, true] := by decide +kernel

theorem witness_CommandHasExactlyOneOutcome : busy (started 6).block = true ∧ (started 6).block.done = false ∧
    (started 6).block.err = false ∧ (started 6).block.errCode = .none ∧ (started 6).block.errInfo = 0 := by decide

/-! #### FREQ_CLEAR and FREQ_COUNT -/

theorem witness_FreqClearZeroesTable : (bench abc []).block.engine = .idle := rfl

theorem witness_FreqCountIsHistogram : let s := bench [] [0x41, 0x42, 0x41]
    s.block.srcLen ≠ 0 ∧ s.block.srcAddr.toNat + s.block.srcLen.toNat ≤ 4294967296 ∧
      SourceReadable s s.block.srcLen.toNat ∧ ∀ b : Byte, (sourceBytes s).count b ≤ 2147483647 :=
  ⟨by decide, by decide, readable_all rfl _, count_source (by decide)⟩

/-- FC-5: a region that ends at 2^32. -/
theorem witness_FreqCountIsHistogram_end : let s := regions 0xFFFFFFFF 1 0 0
    s.block.srcLen ≠ 0 ∧ s.block.srcAddr.toNat + s.block.srcLen.toNat ≤ 4294967296 ∧
      SourceReadable s s.block.srcLen.toNat ∧ ∀ b : Byte, (sourceBytes s).count b ≤ 2147483647 :=
  ⟨by decide, by decide, readable_all rfl _, count_source (by decide)⟩

theorem witness_FreqCountErrorsLeaveZeroTable_empty : (regions 0 0 0 0).block.srcLen = 0 := rfl

/-- FC-6: one byte past 2^32. -/
theorem witness_FreqCountErrorsLeaveZeroTable_range : (regions 0xFFFFFFFF 2 0 0).block.srcLen ≠ 0 ∧
    (regions 0xFFFFFFFF 2 0 0).block.srcAddr.toNat + (regions 0xFFFFFFFF 2 0 0).block.srcLen.toNat > 4294967296 := by decide

/-- FC-7: byte 2 cannot be read, the two before it can. -/
theorem witness_FreqCountErrorsLeaveZeroTable_bus : let s := holed .read 0x10002 (bench [] [0x41, 0x41, 0x41])
    s.block.srcAddr.toNat + s.block.srcLen.toNat ≤ 4294967296 ∧ 2 < s.block.srcLen.toNat ∧ SourceReadable s 2 ∧
      (∀ b : Byte, (sourcePrefix s 2).count b ≤ 2147483647) ∧
      s.platform.busOk (s.block.srcAddr.toNat + 2) .read = false :=
  ⟨by decide, by decide, by unfold SourceReadable; decide, count_le (by simp [sourcePrefix]), by decide⟩

/-- FC-9: 2^31 source bytes, all 0x00; the last one passes COUNT_MAX. -/
theorem witness_FreqCountErrorsLeaveZeroTable_count : let s := regions 0 0x80000000 0 0
    s.block.srcAddr.toNat + s.block.srcLen.toNat ≤ 4294967296 ∧ 2147483647 < s.block.srcLen.toNat ∧
      SourceReadable s 2147483647 ∧ (∀ b : Byte, (sourcePrefix s 2147483647).count b ≤ 2147483647) ∧
      s.platform.busOk (s.block.srcAddr.toNat + 2147483647) .read = true ∧
      (sourcePrefix s 2147483647).count (sourceByte s 2147483647) = 2147483647 := by
  refine ⟨by decide, by decide, readable_all rfl _, count_le (by simp [sourcePrefix]), rfl, ?_⟩
  change (((List.range 2147483647).map fun _ => 0x00#8).count 0x00#8) = 2147483647
  rw [List.map_const', List.count_replicate_self, List.length_range]

/-! #### BUILD_TREE -/

theorem table_single (c : Word) (b : Byte) :
    entry (table [(0x41, c)]) b = if b = 0x41 then c else 0 := by
  change entry (setEntry (Vector.replicate 256 0#32) 0x41 c) b = _
  rw [entry_setEntry, entry_replicate]; rfl

theorem mem_distinct {f : Vector Word 256} {b : Byte} (h : entry f b ≠ 0) : 1 ≤ distinctSymbols f :=
  List.length_pos_of_mem (List.mem_filter.mpr ⟨mem_allBytes b, by simpa using h⟩)

/-- A count at COUNT_MAX. -/
theorem witness_BuildTreeCompletes : let s := bench [(0x41, 0x7FFFFFFF)] []
    (∀ b : Byte, (entry s.block.freq b).toNat ≤ 2147483647) ∧ 1 ≤ distinctSymbols s.block.freq := by
  refine ⟨fun b => ?_, mem_distinct (b := 0x41) ?_⟩
  · change (entry (table _) b).toNat ≤ _
    rw [table_single]; split <;> decide
  · change entry (table _) 0x41 ≠ 0
    rw [table_single]; decide

/-- A count one past COUNT_MAX. -/
theorem witness_BuildTreeRefusesBadTables_range : let s := bench [(0x41, 0x80000000)] []
    (entry s.block.freq 0x41).toNat > 2147483647 ∧
      ∀ c : Byte, c.toNat < (0x41#8).toNat → (entry s.block.freq c).toNat ≤ 2147483647 := by
  refine ⟨?_, fun c hc => ?_⟩
  · change (entry (table _) 0x41).toNat > _
    rw [table_single]; decide
  · change (entry (table _) c).toNat ≤ _
    rw [table_single, if_neg (by rintro rfl; exact absurd hc (by decide))]; decide

theorem witness_BuildTreeRefusesBadTables_empty : ∀ b : Byte, entry State.reset.block.freq b = 0 :=
  fun b => entry_replicate _ b

theorem witness_ValidTreeHasHuffmanShape : (withTree abc []).block.treeValid = true ∧ treeInv (withTree abc []).block :=
  ⟨by decide +kernel, bench_treeInv _ _⟩

theorem witness_ExtractionFollowsPriority : ∃ active : List Nat, active ≠ [] := ⟨[0], by decide⟩

/-- TB-1: the first and the last internal slot, with a slot that is neither child of the first. -/
theorem witness_ExtractionFollowsPriority_tree : let b := (withTree abc []).block
    treeInv b ∧ b.treeValid = true ∧ (b.nleaf.toNat ≤ 3 ∧ 4 < b.nnode.toNat) ∧
      ((slot b 3).left, (slot b 3).right) = (2, 1) := ⟨bench_treeInv _ _, by decide +kernel⟩

theorem witness_TreeDependsOnFreqAlone : (bench abc []).block.freq = (bench abc [0x41]).block.freq ∧
    (bench abc []).block.treeValid = false ∧ (bench abc [0x41]).block.treeValid = false := ⟨rfl, rfl, rfl⟩

theorem witness_SingleSymbolGivesSingleLeaf : let s := bench [(0x41, 0x7FFFFFFF)] []
    entry s.block.freq 0x41 ≠ 0 ∧ (entry s.block.freq 0x41).toNat ≤ 2147483647 ∧
      ∀ c : Byte, c ≠ 0x41 → entry s.block.freq c = 0 := by
  refine ⟨?_, ?_, fun c hc => ?_⟩
  · change entry (table _) 0x41 ≠ 0
    rw [table_single]; decide
  · change (entry (table _) 0x41).toNat ≤ _
    rw [table_single]; decide
  · change entry (table _) c = 0
    rw [table_single, if_neg hc]

/-! #### GEN_CODES -/

/-- Two leaves or more, with the path of a leaf; a byte that occurs and one that does not. -/
theorem witness_GenCodesRecordsPaths : let b := (withTree abc []).block
    treeInv b ∧ b.treeValid = true ∧ (slot b b.root.toNat).leaf = false ∧
      descend b.node b.root [true, false] = some 2 ∧ (nodeAt b.node 2).leaf = true ∧
      entry b.freq 0x44 = 0 ∧ entry b.freq 0x43 ≠ 0 := ⟨bench_treeInv _ _, by decide +kernel⟩

theorem witness_GenCodesRecordsPaths_single : let b := (withTree [(0x41, 5)] []).block
    treeInv b ∧ b.treeValid = true ∧ (slot b b.root.toNat).leaf = true := ⟨bench_treeInv _ _, by decide +kernel⟩

theorem witness_GenCodesNeedsTree : State.reset.block.treeValid = false := rfl

theorem witness_CodesArePrefixFree : let b := (withCodes abc []).block
    treeInv b ∧ codeInv b ∧ b.codeValid = true ∧ (entry b.code 0x41).len ≠ 0 ∧ (entry b.code 0x42).len ≠ 0 :=
  ⟨bench_codesTree _ _, bench_codeInv _ _, by decide +kernel⟩

theorem witness_CodeLengthsFillTheTree : let b := (withCodes [(0x61, 1), (0x62, 1)] []).block
    treeInv b ∧ codeInv b ∧ b.codeValid = true ∧ 2 ≤ b.nleaf.toNat :=
  ⟨bench_codesTree _ _, bench_codeInv _ _, by decide +kernel⟩

theorem witness_CodeLengthsFillTheTree_single : let b := (withCodes [(0x41, 5)] []).block
    treeInv b ∧ codeInv b ∧ b.codeValid = true ∧ b.nleaf.toNat = 1 :=
  ⟨bench_codesTree _ _, bench_codeInv _ _, by decide +kernel⟩

/-! #### ENCODE -/

theorem witness_EncodePacksBitstream : let s := abcCoded
    s.mem.wf = true ∧ s.block.codeValid = true ∧ s.block.srcLen ≠ 0 ∧ RegionsLegal s.block ∧
      SourceReadable s s.block.srcLen.toNat ∧ (∀ b ∈ sourceBytes s, (entry s.block.code b).len ≠ 0) ∧
      (bitstream s.block.code (sourceBytes s)).length ≤ 4294967295 ∧
      ceilDiv8 (bitstream s.block.code (sourceBytes s)).length ≤ s.block.dstCap.toNat ∧
      DestWritable s (ceilDiv8 (bitstream s.block.code (sourceBytes s)).length) :=
  ⟨by decide +kernel, rfl, by decide, by unfold RegionsLegal; decide, readable_all rfl _, by decide +kernel,
    by decide +kernel, by decide +kernel, writable_all rfl _⟩

theorem witness_EncodeChecksInOrder_noCodes : State.reset.block.codeValid = false := rfl

theorem witness_EncodeChecksInOrder_empty : (coded [] []).block.codeValid = true ∧ (coded [] []).block.srcLen = 0 := by
  decide +kernel

/-- The first region that passes 2^32, for the source and for the destination (EN-21), and EN-19. -/
theorem witness_EncodeChecksInOrder_regions :
    (let b := { (coded [] []).block with srcAddr := 0xFFFFFFFF, srcLen := 2 }
     b.codeValid = true ∧ b.srcLen ≠ 0 ∧ b.srcAddr.toNat + b.srcLen.toNat > 4294967296) ∧
    (let b := { (coded [] []).block with srcLen := 6, dstAddr := 0xFFFFFFF0, dstCap := 0x11 }
     b.codeValid = true ∧ b.srcLen ≠ 0 ∧ b.srcAddr.toNat + b.srcLen.toNat ≤ 4294967296 ∧
       b.dstAddr.toNat + b.dstCap.toNat > 4294967296) ∧
    (let b := { (coded [] []).block with srcLen := 6, dstAddr := 0x10005, dstCap := 2 }
     b.codeValid = true ∧ b.srcLen ≠ 0 ∧ b.srcAddr.toNat + b.srcLen.toNat ≤ 4294967296 ∧
       b.dstAddr.toNat + b.dstCap.toNat ≤ 4294967296 ∧ ¬RegionsLegal b) := by
  unfold RegionsLegal
  refine ⟨by decide +kernel, by decide +kernel, by decide +kernel⟩

/-- EN-15. -/
theorem witness_EncodeStopsAtUncodedByte : let s := coded [(0x41, ⟨1, 0⟩)] [0x41, 0x44]
    s.mem.wf = true ∧ s.block.codeValid = true ∧ RegionsLegal s.block ∧ 1 < s.block.srcLen.toNat ∧ SourceReadable s 2 ∧
      (∀ b ∈ sourcePrefix s 1, (entry s.block.code b).len ≠ 0) ∧ (entry s.block.code (sourceByte s 1)).len = 0 ∧
      (bitstream s.block.code (sourcePrefix s 1)).length ≤ 4294967295 ∧
      (bitstream s.block.code (sourcePrefix s 1)).length / 8 ≤ s.block.dstCap.toNat ∧
      DestWritable s ((bitstream s.block.code (sourcePrefix s 1)).length / 8) :=
  ⟨by decide +kernel, rfl, by unfold RegionsLegal; decide, by decide, readable_all rfl _, by decide +kernel,
    by decide +kernel, by decide +kernel, by decide +kernel, writable_all rfl _⟩

theorem length_bitstream_replicate (code : Vector Code 256) (b : Byte) (n : Nat) :
    (bitstream code (List.replicate n b)).length = n * (entry code b).len.toNat := by
  unfold bitstream
  rw [List.length_flatMap, List.map_replicate, List.sum_replicate]
  simp [codeBits]

theorem bytes_nil (a n : Nat) : Memory.bytes [] a n = List.replicate n 0x00#8 := by
  unfold Memory.bytes
  simp only [Memory.read_nil]
  rw [List.map_const', List.length_range]; rfl

/-- A source of 16843010 zero bytes, whose code has 255 bits. -/
def overflowing : State := { regions 0 16843010 0x80000000 536870911 with
  block := { (regions 0 16843010 0x80000000 536870911).block with
    codeValid := true, code := setEntry noCodes 0 ⟨255, 0⟩ } }

theorem overflowing_bits (n : Nat) : (bitstream overflowing.block.code (sourcePrefix overflowing n)).length = n * 255 := by
  have h : sourcePrefix overflowing n = List.replicate n 0x00#8 := bytes_nil _ n
  have hc : (entry overflowing.block.code 0x00#8).len.toNat = 255 := by
    change (entry (setEntry noCodes 0x00#8 ⟨255, 0⟩) 0x00#8).len.toNat = 255
    rw [entry_setEntry_same]; rfl
  rw [h, length_bitstream_replicate, hc]

/-- What EncodeStopsWhilePacking asks of a state. -/
def PackReady (s : State) (j : Nat) : Prop :=
  s.mem.wf = true ∧ s.block.codeValid = true ∧ RegionsLegal s.block ∧ PacksFirst s j

/-- 16843009 codes of 255 bits make 2^32 - 1 bits; one more passes it. -/
theorem witness_EncodeStopsWhilePacking_bits : let s := overflowing; let j := 16843009
    PackReady s j ∧ j < s.block.srcLen.toNat ∧ s.platform.busOk (s.block.srcAddr.toNat + j) .read = true ∧
      (entry s.block.code (sourceByte s j)).len ≠ 0 ∧ (packedBits s (j + 1)).length > 4294967295 := by
  have hc : (entry (setEntry noCodes 0x00#8 ⟨255, 0⟩) 0x00#8).len ≠ 0 := by rw [entry_setEntry_same]; decide
  refine ⟨⟨rfl, rfl, by unfold RegionsLegal; decide, by decide, readable_all rfl _, fun b hb => ?_, ?_, ?_,
    writable_all rfl _⟩, by decide, rfl, hc, ?_⟩
  · have h : sourcePrefix overflowing 16843009 = List.replicate 16843009 0x00#8 := bytes_nil _ _
    rw [h] at hb
    rw [List.eq_of_mem_replicate hb]
    exact hc
  · exact (overflowing_bits _).le
  · unfold packedBits; rw [overflowing_bits]; decide
  · unfold packedBits; rw [overflowing_bits]; omega

/-- The source "AAABBC" with room for `cap` bytes. -/
def abcCapped (cap : Word) : State := { abcCoded with block := { abcCoded.block with dstCap := cap } }

theorem packReady_of {s : State} {j : Nat} (h : s.mem.wf = true ∧ s.block.codeValid = true ∧ j ≤ s.block.srcLen.toNat ∧
      (∀ b ∈ sourcePrefix s j, (entry s.block.code b).len ≠ 0) ∧ (packedBits s j).length ≤ 4294967295 ∧
      (packedBits s j).length / 8 ≤ s.block.dstCap.toNat) (hl : RegionsLegal s.block) (hr : SourceReadable s j)
    (hw : DestWritable s ((packedBits s j).length / 8)) : PackReady s j :=
  ⟨h.1, h.2.1, hl, h.2.2.1, hr, h.2.2.2.1, h.2.2.2.2.1, h.2.2.2.2.2, hw⟩

/-- Byte 1 cannot be read. -/
theorem witness_EncodeStopsWhilePacking_read : let s := holed .read 0x10001 abcCoded
    PackReady s 1 ∧ 1 < s.block.srcLen.toNat ∧ s.platform.busOk (s.block.srcAddr.toNat + 1) .read = false :=
  ⟨packReady_of (by decide +kernel) (by unfold RegionsLegal; decide) (by unfold SourceReadable; decide)
    (by unfold DestWritable; decide +kernel), by decide, by decide⟩

/-- The code of byte 5 completes destination byte 0: at capacity 0, and where its write fails. -/
theorem witness_EncodeStopsWhilePacking_byte :
    (let s := abcCapped 0
     PackReady s 5 ∧ 5 < s.block.srcLen.toNat ∧ s.platform.busOk (s.block.srcAddr.toNat + 5) .read = true ∧
       (entry s.block.code (sourceByte s 5)).len ≠ 0 ∧ (packedBits s 5).length / 8 ≤ 0 ∧
       0 < (packedBits s 6).length / 8 ∧ DestWritable s 0 ∧ 0 = s.block.dstCap.toNat) ∧
    (let s := holed .write 0x20000 abcCoded
     PackReady s 5 ∧ 0 < s.block.dstCap.toNat ∧ DestWritable s 0 ∧
       s.platform.busOk (s.block.dstAddr.toNat + 0) .write = false) :=
  ⟨⟨packReady_of (by decide +kernel) (by unfold RegionsLegal; decide) (readable_all rfl _) (writable_all rfl _),
      by decide, by decide, by decide +kernel, by decide +kernel, by decide +kernel, writable_all rfl _, rfl⟩,
    packReady_of (by decide +kernel) (by unfold RegionsLegal; decide) (by unfold SourceReadable; decide)
      (by unfold DestWritable; decide +kernel), by decide, by unfold DestWritable; decide, by decide⟩

/-- The trailing byte 1: at capacity 1, and where its write fails. -/
theorem witness_EncodeStopsWhilePacking_tail :
    (let s := abcCapped 1
     PackReady s 6 ∧ 6 = s.block.srcLen.toNat ∧ (packedBits s 6).length % 8 ≠ 0 ∧
       (packedBits s 6).length / 8 = s.block.dstCap.toNat) ∧
    (let s := holed .write 0x20001 abcCoded
     PackReady s 6 ∧ (packedBits s 6).length % 8 ≠ 0 ∧ (packedBits s 6).length / 8 < s.block.dstCap.toNat ∧
       s.platform.busOk (s.block.dstAddr.toNat + (packedBits s 6).length / 8) .write = false) :=
  ⟨⟨packReady_of (by decide +kernel) (by unfold RegionsLegal; decide) (readable_all rfl _) (writable_all rfl _),
      by decide, by decide +kernel, by decide +kernel⟩,
    packReady_of (by decide +kernel) (by unfold RegionsLegal; decide) (by unfold SourceReadable; decide)
      (by unfold DestWritable; decide +kernel), by decide +kernel, by decide +kernel, by decide +kernel⟩

/-- EN-15 again: ERR rises from 0. -/
theorem witness_EncodeFrame : let s := coded [(0x41, ⟨1, 0⟩)] [0x41, 0x44]
    s.block.err = false ∧ (after (exec .encode s)).block.err = true := by decide +kernel

/-! #### DECODE -/

/-- What DecodeFollowsAutomaton asks of a state. -/
def DecodeReady (s : State) : Prop :=
  s.mem.wf = true ∧ s.block.treeValid = true ∧ ceilDiv8 s.block.totalBits.toNat ≤ s.block.srcLen.toNat ∧
    RegionsLegal s.block ∧ SourceReadable s (ceilDiv8 s.block.totalBits.toNat) ∧
    (automaton s.block.node s.block.root (streamBits s) 0 s.block.root 0).1.length ≤ s.block.dstCap.toNat ∧
    DestWritable s (automaton s.block.node s.block.root (streamBits s) 0 s.block.root 0).1.length

/-- A stream that ends at the root (the first three bits of DE-1). -/
theorem witness_DecodeFollowsAutomaton : let s := planted abcNodes 3 [0x1F]
    DecodeReady s ∧ (automaton s.block.node s.block.root (streamBits s) 0 s.block.root 0).2 = .atRoot :=
  ⟨⟨by decide +kernel, rfl, by decide, by unfold RegionsLegal; decide, readable_all rfl _, by decide +kernel,
    writable_all rfl _⟩, by decide +kernel⟩

/-- DE-5: one that ends inside a code. -/
theorem witness_DecodeFollowsAutomaton_midCode : let s := planted abcNodes 8 [0x1F]
    DecodeReady s ∧ (automaton s.block.node s.block.root (streamBits s) 0 s.block.root 0).2 = .midCode 3 7 :=
  ⟨⟨by decide +kernel, rfl, by decide, by unfold RegionsLegal; decide, readable_all rfl _, by decide +kernel,
    writable_all rfl _⟩, by decide +kernel⟩

/-- DE-13: a 1 bit in a single-leaf tree. -/
theorem witness_DecodeFollowsAutomaton_badBit : let s := planted oneNode 2 [0x40]
    DecodeReady s ∧ (automaton s.block.node s.block.root (streamBits s) 0 s.block.root 0).2 = .badBit 1 :=
  ⟨⟨by decide +kernel, rfl, by decide, by unfold RegionsLegal; decide, readable_all rfl _, by decide +kernel,
    writable_all rfl _⟩, by decide +kernel⟩

/-- What the clauses of DecodeFollowsAutomaton for the end at bit `i` ask of a state. -/
def ConsumeReady (s : State) (i : Nat) : Prop :=
  s.mem.wf = true ∧ s.block.treeValid = true ∧ ceilDiv8 s.block.totalBits.toNat ≤ s.block.srcLen.toNat ∧
    RegionsLegal s.block ∧ i < s.block.totalBits.toNat ∧ Consumes s i

theorem consumeReady_of {s : State} {i : Nat} (h : s.mem.wf = true ∧ s.block.treeValid = true ∧
      ceilDiv8 s.block.totalBits.toNat ≤ s.block.srcLen.toNat ∧ i < s.block.totalBits.toNat ∧
      (consumed s i).2 = .atRoot ∧ (consumed s i).1.length ≤ s.block.dstCap.toNat) (hl : RegionsLegal s.block)
    (hr : SourceReadable s (ceilDiv8 i)) (hw : DestWritable s (consumed s i).1.length) : ConsumeReady s i :=
  ⟨h.1, h.2.1, h.2.2.1, hl, h.2.2.2.1, hr, by simp [h.2.2.2.2.1], h.2.2.2.2.2, hw⟩

/-- The byte of bit 0, and that of bit 8, cannot be read. -/
theorem witness_DecodeFollowsAutomaton_read :
    (let s := holed .read 0x10000 (planted abcNodes 9 [0x1F, 0x01])
     ConsumeReady s 0 ∧ s.platform.busOk (s.block.srcAddr.toNat + 0 / 8) .read = false) ∧
    (let s := holed .read 0x10001 (planted abcNodes 9 [0x1C, 0x01])
     ConsumeReady s 8 ∧ s.platform.busOk (s.block.srcAddr.toNat + 8 / 8) .read = false) :=
  ⟨⟨consumeReady_of (by decide +kernel) (by unfold RegionsLegal; decide) (by unfold SourceReadable; decide)
      (by unfold DestWritable; decide +kernel), by decide⟩,
    consumeReady_of (by decide +kernel) (by unfold RegionsLegal; decide) (by unfold SourceReadable; decide)
      (by unfold DestWritable; decide +kernel), by decide⟩

/-- A stream whose third byte does not fit, or is not written. -/
theorem witness_DecodeFollowsAutomaton_write :
    (let s := { planted abcNodes 9 [0x1F, 0x01] with block := { (planted abcNodes 9 [0x1F, 0x01]).block with dstCap := 2 } }
     ConsumeReady s 2 ∧ SourceReadable s (2 / 8 + 1) ∧ (consumed s 3).1.length = (consumed s 2).1.length + 1 ∧
       (consumed s 2).1.length = s.block.dstCap.toNat) ∧
    (let s := holed .write 0x20002 (planted abcNodes 9 [0x1F, 0x01])
     ConsumeReady s 2 ∧ SourceReadable s (2 / 8 + 1) ∧ (consumed s 3).1.length = (consumed s 2).1.length + 1 ∧
       (consumed s 2).1.length < s.block.dstCap.toNat ∧
       s.platform.busOk (s.block.dstAddr.toNat + (consumed s 2).1.length) .write = false) :=
  ⟨⟨consumeReady_of (by decide +kernel) (by unfold RegionsLegal; decide) (readable_all rfl _) (writable_all rfl _),
      readable_all rfl _, by decide +kernel, by decide +kernel⟩,
    consumeReady_of (by decide +kernel) (by unfold RegionsLegal; decide) (by unfold SourceReadable; decide)
      (by unfold DestWritable; decide +kernel), by unfold SourceReadable; decide, by decide +kernel, by decide +kernel,
    by decide +kernel⟩

/-- A single leaf at capacity 1. -/
theorem witness_DecodeFollowsAutomaton_single :
    let s := { planted oneNode 2 [0x01] with block := { (planted oneNode 2 [0x01]).block with dstCap := 1 } }
    ConsumeReady s 1 ∧ (nodeAt s.block.node s.block.root).leaf = true ∧
      (consumed s 2).1.length = (consumed s 1).1.length + 1 ∧ (consumed s 1).1.length = s.block.dstCap.toNat :=
  ⟨consumeReady_of (by decide +kernel) (by unfold RegionsLegal; decide) (readable_all rfl _) (writable_all rfl _),
    by decide +kernel, by decide +kernel, by decide +kernel⟩

theorem witness_DecodeChecksInOrder_noTree : State.reset.block.treeValid = false := rfl

/-- DE-6 (one byte short), a source and a destination past 2^32, and DE-10. -/
theorem witness_DecodeChecksInOrder :
    (let b := (planted abcNodes 9 [0x1F]).block
     b.treeValid = true ∧ (b.totalBits.toNat + 7) / 8 > b.srcLen.toNat) ∧
    (let b := { (planted abcNodes 9 [0x1F]).block with srcAddr := 0xFFFFFFFF, srcLen := 2 }
     b.treeValid = true ∧ (b.totalBits.toNat + 7) / 8 ≤ b.srcLen.toNat ∧ b.srcAddr.toNat + b.srcLen.toNat > 4294967296) ∧
    (let b := { (planted abcNodes 9 [0x1F]).block with srcLen := 2, dstAddr := 0xFFFFFFF0, dstCap := 0x11 }
     b.treeValid = true ∧ (b.totalBits.toNat + 7) / 8 ≤ b.srcLen.toNat ∧ b.srcAddr.toNat + b.srcLen.toNat ≤ 4294967296 ∧
       b.dstAddr.toNat + b.dstCap.toNat > 4294967296) ∧
    (let b := { (planted abcNodes 9 [0x1F]).block with srcLen := 2, dstAddr := 0x10001, dstCap := 6 }
     b.treeValid = true ∧ (b.totalBits.toNat + 7) / 8 ≤ b.srcLen.toNat ∧ b.srcAddr.toNat + b.srcLen.toNat ≤ 4294967296 ∧
       b.dstAddr.toNat + b.dstCap.toNat ≤ 4294967296 ∧ ¬RegionsLegal b) := by
  unfold RegionsLegal
  refine ⟨by decide +kernel, by decide +kernel, by decide +kernel, by decide +kernel⟩

/-- At capacity; one below it, with the write completed and not. -/
theorem witness_EmissionIsBoundedByCapacity : let s := regions 0 0 0x20000 1
    s.mem.wf = true ∧
    (let t := setOutLen 1 s; t.block.outLen = t.block.dstCap) ∧
    (s.block.outLen ≠ s.block.dstCap ∧
      s.platform.busOk (s.block.dstAddr.toNat + s.block.outLen.toNat) .write = true) ∧
    (let t := holed .write 0x20000 s
     t.block.outLen ≠ t.block.dstCap ∧
      t.platform.busOk (t.block.dstAddr.toNat + t.block.outLen.toNat) .write = false) := by
  decide +kernel

/-- DE-7. -/
theorem witness_DecodeOfZeroBitsSucceeds : let s := planted abcNodes 0 []
    s.block.treeValid = true ∧ s.block.totalBits = 0 ∧ RegionsLegal s.block := by
  refine ⟨rfl, rfl, ?_⟩
  unfold RegionsLegal
  decide

/-- DE-1 and DE-2: the padding bits flipped. -/
theorem witness_PaddingNeverAffectsDecode : let s := planted abcNodes 9 [0x1F, 0x01]
    s.mem.wf = true ∧ (bytesAt 0x10000 [0x1F, 0x7F]).wf = true ∧ ∀ i, i < s.block.totalBits.toNat →
      packedBit (bytesAt 0x10000 [0x1F, 0x7F]) s.block.srcAddr.toNat i = packedBit s.mem s.block.srcAddr.toNat i := by
  decide +kernel

/-- DE-6. -/
theorem witness_TruncatedBodyIsDetected : let s := planted abcNodes 9 [0x1F]
    s.block.treeValid = true ∧ s.block.srcLen.toNat + 1 = ceilDiv8 s.block.totalBits.toNat := by decide

/-- What DecodeInvertsEncode asks of the state before ENCODE, the state after it, and the second destination. -/
def InvertReady (s t : State) (dst cap : Word) : Prop :=
  s.mem.wf = true ∧ treeInv s.block ∧ codeInv s.block ∧ s.block.err = false ∧ exec .encode s = .next t ∧
    t.block.err = false ∧
    (let u := { t with block := { t.block with
        srcAddr := s.block.dstAddr, srcLen := t.block.outLen, dstAddr := dst, dstCap := cap } }
     RegionsLegal u.block ∧ s.block.srcLen.toNat ≤ cap.toNat ∧ SourceReadable u t.block.outLen.toNat ∧
       DestWritable u s.block.srcLen.toNat)

theorem invertReady_of {s t : State} (ht : treeInv s.block) (hc : codeInv s.block) (he : exec .encode s = .next t)
    (h : s.mem.wf = true ∧ s.block.err = false ∧ t.block.err = false ∧ t.platform.holes = [] ∧
      t.block.outLen = 1 ∧ s.block.dstAddr = 0x20000 ∧ s.block.srcLen = 2) : InvertReady s t 0x40000 2 := by
  obtain ⟨h₁, h₂, h₃, h₄, h₅, h₆, h₇⟩ := h
  refine ⟨h₁, ht, hc, h₂, he, h₃, ?_, ?_, ?_, ?_⟩
  · unfold RegionsLegal
    simp only [h₅, h₆]; decide
  · simp only [h₇]; decide
  · intro j _; simp [Platform.busOk, h₄]
  · intro j _; simp [Platform.busOk, h₄]

/-- "AC" there and back. -/
theorem witness_DecodeInvertsEncode : ∃ (s t : State) (dst cap : Word), InvertReady s t dst cap :=
  ⟨withCodes abc [0x41, 0x43], _, _, _, invertReady_of (bench_codesTree _ _) (bench_codeInv _ _) (exec_after _ _)
    (by decide +kernel)⟩

theorem witness_OutcomeDependsOnSourceAlone : let s := planted abcNodes 3 [0x1F]
    let u := { s with mem := bytesAt 0x10000 [0x1F, 0x55] }
    s.mem.wf = true ∧ u.mem.wf = true ∧ s.block = u.block ∧ (∀ a k, s.platform.busOk a k = u.platform.busOk a k) ∧
      ∀ a, (srcRegion s.block).has a = true → s.mem.read a = u.mem.read a := by
  refine ⟨rfl, rfl, rfl, fun _ _ => rfl, fun a h => ?_⟩
  have h₁ : 0x10000 ≤ a ∧ a < 0x10000 + 1 := by
    have := h
    simp only [Region.has, Bool.and_eq_true, decide_eq_true_eq] at this
    exact this
  obtain rfl : a = 0x10000 := by omega
  rfl

/-- A command that reads and writes, so that both kinds of access occur. -/
theorem witness_AccessesStayInRegionsAscending :
    (after (exec .decode (planted abcNodes 3 [0x1F]))).bus =
      [⟨.write, 0x20002⟩, ⟨.write, 0x20001⟩, ⟨.write, 0x20000⟩, ⟨.read, 0x10000⟩] := by decide +kernel

/-! #### The register window -/

theorem witness_IllegalAccessHasNoEffect : ((16 : Nat) ≠ 32) ∧ (0x7FFE#15).toNat % 4 ≠ 0 := by decide

/-- Both ends of each range of a clause. -/
theorem witness_BusyWritesAreDroppedWithOvr : busy (started 4).block = true ∧
    (∀ o ∈ [0x400#15, 0x7FC#15], o.toNat % 4 = 0 ∧ 0x400 ≤ o.toNat ∧ o.toNat < 0x800) ∧
    (∀ o ∈ [0x034#15, 0x3FC#15], o.toNat % 4 = 0 ∧ 0x034 ≤ o.toNat ∧ o.toNat < 0x400) ∧
    (∀ o ∈ [0x800#15, 0x7FFC#15], o.toNat % 4 = 0 ∧ 0x800 ≤ o.toNat) ∧
    (∀ o ∈ [0x000#15, 0x004#15, 0x008#15, 0x00C#15, 0x010#15, 0x014#15, 0x018#15, 0x01C#15, 0x020#15, 0x024#15, 0x028#15,
      0x02C#15, 0x030#15], o.toNat % 4 = 0) :=
  ⟨rfl, by simp, by simp, by simp, by simp⟩

theorem witness_ReadsOfDefinedRegisters : busy (started 4).block = true ∧
    (∀ o ∈ [0x400#15, 0x7FC#15], o.toNat % 4 = 0 ∧ 0x400 ≤ o.toNat ∧ o.toNat < 0x800) ∧
    (∀ o ∈ [0x2000#15, 0x3FEC#15], o.toNat % 4 = 0 ∧ 0x2000 ≤ o.toNat ∧ o.toNat < 0x3FF0) ∧
    (∀ o ∈ [0x4000#15, 0x7FFC#15], o.toNat % 4 = 0 ∧ 0x4000 ≤ o.toNat) := ⟨rfl, by simp, by simp, by simp⟩

theorem witness_InterruptFollowsStatusAndEnable : (0x6#32).getLsbD 1 = true ∧ (0x6#32).getLsbD 2 = true ∧
    State.reset.block.engine = .idle ∧
    ∃ t, regAccess ⟨0x008, .write, 32, 1⟩ State.reset = .next t :=
  ⟨by decide, by decide, rfl, _, (regAccess_cmd_idle rfl 1).trans (if_neg (by decide +kernel))⟩

theorem witness_FreqWindowReadsAndWrites : State.reset.block.engine = .idle ∧ busy (started 4).block = true ∧
    (∃ j : Byte, j ≠ 255#8) := ⟨rfl, rfl, 0, by decide⟩

theorem witness_OperandsAndResultsReadBack : State.reset.block.engine = .idle := rfl

/-- Both ends of the two windows; the last slot, which is no node. -/
theorem witness_InvalidTablesReadZero : State.reset.block.engine = .idle ∧ State.reset.block.treeValid = false ∧
    State.reset.block.codeValid = false ∧
    (∀ o ∈ [0x2000#15, 0x3FFC#15], o.toNat % 4 = 0 ∧ 0x2000 ≤ o.toNat ∧ o.toNat < 0x4000) ∧
    (∀ o ∈ [0x4000#15, 0x7FFC#15], o.toNat % 4 = 0 ∧ 0x4000 ≤ o.toNat) := ⟨rfl, rfl, rfl, by simp, by simp⟩

theorem witness_InvalidTablesReadZero_beyond : let b := (planted abcNodes 0 []).block
    b.engine = .idle ∧ b.treeValid = true ∧ b.nnode.toNat ≤ ((0x2050#15).toNat - 0x2000) / 16 ∧
      b.nnode.toNat ≤ ((0x3FFC#15).toNat - 0x2000) / 16 := ⟨rfl, rfl, by decide, by decide⟩

theorem witness_NodeWindowLayout : let b := (planted abcNodes 0 []).block
    b.engine = .idle ∧ b.treeValid = true ∧ 0 < b.nnode.toNat ∧ 4 < b.nnode.toNat ∧ (3 : Nat) < 4 :=
  ⟨rfl, rfl, by decide, by decide, by decide⟩

theorem witness_CodeWindowLayout : (coded [] []).block.engine = .idle ∧ (coded [] []).block.codeValid = true := ⟨rfl, rfl⟩

/-- Both ends of the two ranges. -/
theorem witness_ReservedOffsetsReadZero :
    (∀ o ∈ [0x01C#15, 0x038#15, 0x03C#15], o.toNat % 4 = 0) ∧
    (∀ o ∈ [0x058#15, 0x3FC#15], o.toNat % 4 = 0 ∧ 0x058 ≤ o.toNat ∧ o.toNat < 0x400) ∧
    (∀ o ∈ [0x800#15, 0x1FFC#15], o.toNat % 4 = 0 ∧ 0x800 ≤ o.toNat ∧ o.toNat < 0x2000) :=
  ⟨by simp, by simp, by simp⟩

/-! #### Reset and the whole machine -/

theorem witness_ResetValuesRead : (0x000#15).toNat % 4 = 0 ∧ (0x7FFC#15).toNat % 4 = 0 := by decide

theorem witness_SoftResetAtAnyTime : (0x1#32).getLsbD 0 = true ∧ (0x2#32).getLsbD 0 = false := by decide

theorem witness_AbortSparesOtherMemory : let s := busyWith 5 (regions 0x10000 6 0x10006 2)
    (srcRegion s.block).has 0x10005 = true ∧ ¬(0x10006 ≤ 0x10005 ∧ 0x10005 < 0x10006 + 2) ∧
      (started 2).block.engine ≠ .busy 5 ∧ (started 2).block.engine ≠ .busy 6 ∧ (1#32).getLsbD 0 = true := by
  decide +kernel

/-- With no input pending, the step after a start is the command. -/
theorem step_start {s : State} (h : s.pending = []) (i : Instr) :
    step (startCommand (encodeWord i) s) = .next (after (exec i (startCommand (encodeWord i) s))) := by
  rw [← exec_after]
  unfold step engineTurn
  simp only [startCommand_pending, h, startCommand_block, startBlock_engine]
  exact execWord_ok (decodeWord_encodeWord i) _

theorem inv_start {s : State} (hp : s.platform.dmaCoherent = true) (hm : memoryInv s) (ht : treeInv s.block)
    (hc : codeInv s.block) (w : Word) : Inv (startCommand w s) := by
  refine ⟨?_, ⟨rfl, fun _ => ⟨rfl, rfl, rfl⟩, fun h => absurd h (by simp), fun _ => rfl, fun _ => rfl⟩,
    startInv_start _ _, treeInv_start ht, codeInv_start hc⟩
  simpa [memoryInv, overtakeCopies_coherent hp] using hm

theorem bench_memoryInv {c : List (Byte × Word)} : memoryInv (bench c []) := ⟨rfl, rfl, by simp [bench, State.reset]⟩

/-- BUILD_TREE about to run on "AAABBC", from a state that meets the invariant. -/
theorem witness_StepKeepsInvariant : let s := startCommand 3 (bench abc [])
    Inv s ∧ step s = .next (after (exec .buildTree s)) :=
  ⟨inv_start rfl bench_memoryInv (fun h => absurd h (by simp [bench, Block.reset])) (fun h => absurd h (by simp [bench, Block.reset])) 3,
    step_start rfl .buildTree⟩

/-- BUILD_TREE about to run, and an acknowledge of DONE alone: no acknowledge of ERR. -/
theorem witness_StepKeepsInvariant_code : (let s := startCommand 3 (bench abc [])
      codeMatchesErr s.block ∧ ∀ v : Word, NextWrites s 0x00C v → v.getLsbD 2 = false) ∧
    (let s := { State.reset with pending := [wr 0x00C 2] }
     codeMatchesErr s.block ∧ ∀ v : Word, NextWrites s 0x00C v → v.getLsbD 2 = false) := by
  refine ⟨⟨⟨fun _ => rfl, fun _ => rfl⟩, ?_⟩, ⟨fun _ => rfl, fun _ => rfl⟩, ?_⟩
  · rintro v ⟨e, he, _⟩
    cases (show (none : Option Event) = some e from he)
  · rintro v ⟨e, he, hv⟩
    obtain rfl : wr 0x00C 2 = e := by injection he
    obtain rfl : (2#32) = v := by
      have h : some ((0x00C : Offset), 2#32) = some (0x00C, v) := hv
      exact congrArg Prod.snd (Option.some.inj h)
    decide

theorem witness_RunningCommandCompletes : busy (started 7).block = true ∧ State.reset.block.engine = .idle := ⟨rfl, rfl⟩

/-- BUILD_TREE sets TREE_VALID. -/
theorem witness_ValidityChangesOnlyAsRule54_tree : let s := startCommand 3 (bench abc [])
    Inv s ∧ step s = .next (after (exec .buildTree s)) ∧ s.block.treeValid = false ∧
      (after (exec .buildTree s)).block.treeValid = true :=
  ⟨witness_StepKeepsInvariant.1, step_start rfl .buildTree, by decide +kernel, by decide +kernel⟩

/-- GEN_CODES sets CODE_VALID. -/
theorem witness_ValidityChangesOnlyAsRule54_code : let s := startCommand 4 (withTree abc [])
    Inv s ∧ step s = .next (after (exec .genCodes s)) ∧ s.block.codeValid = false ∧
      (after (exec .genCodes s)).block.codeValid = true := by
  have hm : memoryInv (withTree abc []) := by
    unfold withTree
    rw [after_exec]
    rcases buildTreeRule_cases (bench abc []) with ⟨e, _, he⟩ | ⟨_, _, he⟩ <;> simp only [rule, he]
    · exact bench_memoryInv (c := abc)
    · exact bench_memoryInv (c := abc)
  have hc : (withTree abc []).block.codeValid = false := by
    unfold withTree; rw [buildTree_codeValid]; rfl
  have hp : (withTree abc []).pending = [] := by decide +kernel
  exact ⟨inv_start (by decide +kernel) hm (bench_treeInv _ _) (fun h => absurd (hc.symm.trans h) (by simp)) 4,
    step_start hp .genCodes, by decide +kernel, by decide +kernel⟩

/-- A FREQ write changes FREQ. -/
theorem witness_ValidityChangesOnlyAsRule54_freq : let s := { State.reset with pending := [wr 0x504 7] }
    Inv s ∧ ∃ t, step s = .next t ∧ t.block.freq ≠ s.block.freq := by
  refine ⟨⟨⟨rfl, rfl, by simp [State.reset]⟩, ⟨rfl, fun h => absurd h (by simp [State.reset, Block.reset, busy]),
    fun h => absurd h (by simp [State.reset, Block.reset]), fun _ => rfl, fun _ => rfl⟩,
    fun w h => absurd h (by simp [State.reset, Block.reset]), fun h => absurd h (by simp [State.reset, Block.reset]),
    fun h => absurd h (by simp [State.reset, Block.reset])⟩, after (step { State.reset with pending := [wr 0x504 7] }), rfl,
    fun h => ?_⟩
  have h := congrArg (fun f => entry f 0x41) h
  exact absurd h (by decide +kernel)

/-- An Idle state without an error, with nothing in memory, whose flags say what its tables hold, meets the invariant. -/
theorem inv_idle {s : State} (h : s.mem = [] ∧ s.bus = [] ∧ s.block.engine = .idle ∧ s.block.err = false ∧
      s.block.errCode = .none ∧ s.block.errInfo = 0) (ht : treeInv s.block) (hc : codeInv s.block) (p : List Event) :
    Inv { s with pending := p } := by
  obtain ⟨h₁, h₂, h₃, h₄, h₅, h₆⟩ := h
  refine ⟨⟨?_, ?_, ?_⟩, ⟨?_, ?_, ?_, fun _ => h₅, fun _ => h₆⟩, ?_, ht, hc⟩
  · simp only [h₁]; rfl
  · simp only [h₁]; rfl
  · simp [h₂]
  · simp [h₄]
  · intro hb; rw [busy_idle h₃] at hb; cases hb
  · intro he; rw [h₄] at he; cases he
  · intro w hw; rw [h₃] at hw; cases hw

/-- Both flags set: a FREQ write and the start of BUILD_TREE clear both, as the two resets do; the start of GEN_CODES
clears CODE_VALID, and that of DECODE neither. -/
theorem witness_ValidityChangesOnlyAsRule54_falls : let s := withCodes abc []
    (∀ p, Inv { s with pending := p }) ∧
    ([wr 0x400 7, wr 0x7FC 7, wr 0x008 3, .hardReset, wr 0x004 1, wr 0x008 4, wr 0x008 6].map fun e =>
      (next? (step { s with pending := [e] })).map fun t => (t.block.treeValid, t.block.codeValid)) =
      [some (false, false), some (false, false), some (false, false), some (false, false), some (false, false),
        some (true, false), some (true, true)] := by
  exact ⟨inv_idle (by decide +kernel) (bench_codesTree _ _) (bench_codeInv _ _), by decide +kernel⟩

/-- A CMD write from Idle; a completion; and each reset of a running command. -/
theorem witness_EngineRunsOneCommandAtATime :
    (let s := { State.reset with pending := [wr 0x008 4] }
     ∃ t, step s = .next t ∧ s.block.engine = .idle ∧ t.block.engine = .busy 4 ∧ NextWrites s 0x008 4) ∧
    (∃ t, step (started 4) = .next t ∧ (started 4).block.engine = .busy 4 ∧ NextIsEngineTurn (started 4)) ∧
    (let s := { started 4 with pending := [.hardReset] }
     ∃ t, step s = .next t ∧ s.block.engine = .busy 4 ∧ NextResets s) ∧
    (let s := { started 4 with pending := [.hostBus 0x004 .write 32 1] }
     ∃ t, step s = .next t ∧ s.block.engine = .busy 4 ∧ NextResets s) :=
  ⟨⟨_, rfl, rfl, rfl, _, rfl, rfl⟩, ⟨_, rfl, rfl, .inl rfl⟩, ⟨_, rfl, rfl, .inl rfl⟩,
    ⟨_, rfl, rfl, .inr ⟨1, by decide, _, rfl, rfl⟩⟩⟩

theorem witness_HostMemoryAccesses_refused (w : Word) : let b := (busyWith w (regions 0x10000 6 0x20000 2)).block
    busy b = true ∧ (srcRegion b).has (0x10000#32).toNat = true ∧ (srcRegion b).has (0x10005#32).toNat = true ∧
      (dstRegion b).has (0x20000#32).toNat = true ∧ (dstRegion b).has (0x20001#32).toNat = true :=
  ⟨rfl, rfl, rfl, rfl, rfl⟩

/-- BUSY, just outside both regions; Idle, inside; without coherence, one byte past a stale region. -/
theorem witness_HostMemoryAccesses_allowed : let s := busyWith 5 (regions 0x10000 6 0x20000 2)
    ((srcRegion s.block).has (0x1FFFF#32).toNat = false ∧ (dstRegion s.block).has (0x1FFFF#32).toNat = false ∧
      (srcRegion s.block).has (0x10006#32).toNat = false ∧ (dstRegion s.block).has (0x20002#32).toNat = false ∧
      s.platform.dmaCoherent = true ∧ s.mem.wf = true) ∧ busy State.reset.block = false ∧
    (let u := { uncached State.reset with hostStale := [⟨0x20000, 2⟩] }
     ∀ r ∈ u.hostStale, r.has (0x20002#32).toNat = false) := by decide +kernel

/-- Without coherence, the first and last byte of a stale region. -/
theorem witness_HostMemoryAccesses_stale : let s := { uncached State.reset with hostStale := [⟨0x20000, 2⟩] }
    busy s.block = false ∧ s.platform.dmaCoherent = false ∧ (∃ r ∈ s.hostStale, r.has (0x20000#32).toNat = true) ∧
      (∃ r ∈ s.hostStale, r.has (0x20001#32).toNat = true) := by decide +kernel

/-- The first and last offset, and the addresses just outside, of a window at 0x40000000. -/
theorem witness_WindowIsMappedAtBlockBase : let s := { State.reset with platform := ⟨0x40000000, [], true⟩ }
    0x40000000 = s.platform.blockBase + (0x0000#15).toNat ∧ 0x40007FFF = s.platform.blockBase + (0x7FFF#15).toNat ∧
      0x3FFFFFFF < s.platform.blockBase ∧ s.platform.blockBase + 32768 ≤ 0x40008000 := by decide

/-! #### The artifact -/

/-- AR-1. -/
theorem witness_ParseOfBuildArtifact : (Artifact.mk [0x74] abc 9 [0x1F, 0x00]).wf = true := by decide

theorem witness_ArtifactSize : (Artifact.mk [] [(0x41, 5)] 5 [0x00]).wf = true := by decide

theorem witness_WordsAreLittleEndian : ((3 : Nat) < 4) ∧ ((7 : Nat) < 8) := by decide

end Sys2Proof.Tests
end

section
/-! SUPPORT. What a step can do to the block, what a command's rule does to registers, memory and bus, and from these
that every step keeps the invariant. -/

namespace Sys2Proof.Machine

/-! ### What a rule may access (20_memory.md R79, R80) -/

/-- Every access recorded since `s` is a read in `src` or a write in `dst`. -/
def BusWithin (src dst : Region) (s t : State) : Prop :=
  ∀ x ∈ t.bus, x ∈ s.bus ∨ (x.kind = .read ∧ src.has x.addr = true) ∨ (x.kind = .write ∧ dst.has x.addr = true)

theorem BusWithin.of_bus_eq {src dst : Region} {s t : State} (h : t.bus = s.bus) : BusWithin src dst s t :=
  fun _ hx => .inl (h ▸ hx)

theorem BusWithin.trans {src dst : Region} {s t u : State} (h : BusWithin src dst s t) (k : BusWithin src dst t u) :
    BusWithin src dst s u :=
  fun x hx => (k x hx).elim (h x) .inr

theorem BusWithin.andThen {α β : Type} {src dst : Region} {s : State} {r : Res α} {f : α → State → Res β}
    (h : BusWithin src dst s r.state) (k : ∀ a t, r = .ok a t → BusWithin src dst t (f a t).state) :
    BusWithin src dst s (r.andThen f).state :=
  Res.andThen_state h fun a t hr => BusWithin.trans (by rw [hr] at h; exact h) (k a t hr)

/-- The destination region is `dst` and OUT_LEN is within it. -/
def HasRoom (dst : Region) (s : State) : Prop :=
  dstRegion s.block = dst ∧ s.block.outLen.toNat ≤ s.block.dstCap.toNat

theorem Emits.hasRoom {dst : Region} {s t : State} (h : Emits s t) (hs : HasRoom dst s) : HasRoom dst t := by
  obtain ⟨hd, hb⟩ := hs
  refine ⟨?_, ?_⟩
  · rw [← hd]; simp only [dstRegion, h.dstAddr, h.dstCap]
  · rw [h.dstCap]; exact h.bound hb

/-- Where a piece has ended well there is still room. -/
theorem Ends.hasRoom {α : Type} {R : State → State → Prop} {dst : Region} {s t : State} {r : Res α} {a : α}
    (h : Ends R s r) (hr : r = .ok a t) (hs : HasRoom dst s) : HasRoom dst t := by
  subst hr; exact h.emits.hasRoom hs

theorem noteBus_within {src dst : Region} {k : AccessKind} {a : Nat} (s : State)
    (h : (k = .read ∧ src.has a = true) ∨ (k = .write ∧ dst.has a = true)) :
    BusWithin src dst s (noteBus k a s) := by
  intro x hx
  rcases List.mem_cons.mp hx with rfl | hx
  · exact .inr h
  · exact .inl hx

theorem busRead_within {src dst : Region} {a : Nat} (s : State) (h : src.has a = true) :
    BusWithin src dst s (busRead a s).state := by
  rw [busRead_state]; exact noteBus_within s (.inl ⟨rfl, h⟩)

/-- A byte is put at DST_ADDR + OUT_LEN, and only below DST_CAP (R133). -/
theorem put_within {src dst : Region} {s : State} (b : Byte) (h : HasRoom dst s) :
    BusWithin src dst s (put b s).state := by
  obtain ⟨rfl, hle⟩ := h
  rw [put_eq]
  split
  · exact .of_bus_eq rfl
  · rename_i hne
    have hlt : s.block.outLen.toNat ≠ s.block.dstCap.toNat := fun h => hne (BitVec.eq_of_toNat_eq h)
    have hin : (dstRegion s.block).has (s.block.dstAddr.toNat + s.block.outLen.toNat) = true := by
      simp [Region.has, dstRegion]; omega
    split <;> exact noteBus_within s (.inr ⟨rfl, hin⟩)

/-! ### ENCODE -/

theorem packBit_within {src dst : Region} {s : State} (bit : Bool) (p : Packer) (h : HasRoom dst s) :
    BusWithin src dst s (packBit bit p s).state := by
  unfold packBit
  split
  · exact (put_within _ h).andThen fun _ _ _ => .of_bus_eq rfl
  · exact .of_bus_eq rfl

theorem packBits_within {src dst : Region} (bits : List Bool) (p : Packer) {s : State} (h : HasRoom dst s) :
    BusWithin src dst s (packBits bits p s).state := by
  induction bits generalizing p s with
  | nil => exact .of_bus_eq rfl
  | cons b rest ih =>
    exact (packBit_within b p h).andThen fun q t ht => ih q ((packBit_ends b p s h.2).hasRoom ht h)

theorem packSymbol_within {src dst : Region} (j : Nat) (sym : Byte) (p : Packer) {s : State} (h : HasRoom dst s) :
    BusWithin src dst s (packSymbol j sym p s).state := by
  unfold packSymbol
  split
  · exact .of_bus_eq rfl
  · split
    · exact .of_bus_eq rfl
    · exact packBits_within _ _ h

/-- The loop of `pack` as pieces that go on from one another. -/
theorem packLoop_succ (base remaining j : Nat) (p : Packer) (s : State) :
    packLoop base (remaining + 1) j p s = (busRead (base + j) s).andThen fun sym t =>
      (packSymbol j sym p t).andThen fun q u => packLoop base remaining (j + 1) q u := by
  rw [packLoop]
  cases busRead (base + j) s with
  | raised e t => rfl
  | ok sym t => cases h : packSymbol j sym p t <;> simp [h]

theorem packLoop_within {src dst : Region} {base remaining j : Nat} (p : Packer) {s : State} (h : HasRoom dst s)
    (hsrc : ∀ k, j ≤ k → k < j + remaining → src.has (base + k) = true) :
    BusWithin src dst s (packLoop base remaining j p s).state := by
  induction remaining generalizing j p s with
  | zero => exact .of_bus_eq rfl
  | succ n ih =>
    rw [packLoop_succ]
    refine (busRead_within s (hsrc j (by omega) (by omega))).andThen fun sym t ht => ?_
    have hroom := (busRead_ends (base + j) s).hasRoom ht h
    refine (packSymbol_within j sym p hroom).andThen fun q u hu => ?_
    exact ih q ((packSymbol_ends j sym p t hroom.2).hasRoom hu hroom) fun k h₁ h₂ => hsrc k (by omega) (by omega)

theorem packTail_within {src dst : Region} (p : Packer) {s : State} (h : HasRoom dst s) :
    BusWithin src dst s (packTail p s).state := by
  unfold packTail
  split
  · exact put_within _ h
  · exact .of_bus_eq rfl

theorem srcRegion_has {b : Block} {k : Nat} (h : k < b.srcLen.toNat) :
    (srcRegion b).has (b.srcAddr.toNat + k) = true := by
  simp [Region.has, srcRegion]; omega

/-- ENCODE reads only source bytes and writes only destination bytes (R79, R80). -/
theorem encodeRule_within (s : State) :
    BusWithin (srcRegion s.block) (dstRegion s.block) s (encodeRule s).state := by
  unfold encodeRule
  split
  · exact .of_bus_eq rfl
  · split
    · exact .of_bus_eq rfl
    · cases checkRegions s.block with
      | some e => exact .of_bus_eq rfl
      | none =>
        have hroom : HasRoom (dstRegion s.block) (setOutLen 0 s) := ⟨rfl, by simp⟩
        have hloop := packLoop_ends s.block.srcAddr.toNat s.block.srcLen.toNat 0 Packer.empty _ hroom.2
        refine BusWithin.trans (t := setOutLen 0 s) (.of_bus_eq rfl) ?_
        refine (packLoop_within Packer.empty hroom fun k _ hk => srcRegion_has (by omega)).andThen fun p t ht => ?_
        exact (packTail_within p (hloop.hasRoom ht hroom)).andThen fun _ _ _ => .of_bus_eq rfl

/-! ### DECODE -/

theorem fetchByte_within {src dst : Region} {base i : Nat} (kept : Byte) (s : State)
    (h : src.has (base + i / 8) = true) : BusWithin src dst s (fetchByte base i kept s).state := by
  unfold fetchByte
  split
  · exact busRead_within s h
  · exact .of_bus_eq rfl

theorem singleLeafBit_within {src dst : Region} (r : NodeIx) (i : Nat) (bit : Bool) (c : Cursor) {s : State}
    (h : HasRoom dst s) : BusWithin src dst s (singleLeafBit r i bit c s).state := by
  unfold singleLeafBit
  split
  · exact .of_bus_eq rfl
  · exact (put_within _ h).andThen fun _ _ _ => .of_bus_eq rfl

theorem treeBit_within {src dst : Region} (r : NodeIx) (i : Nat) (bit : Bool) (c : Cursor) {s : State}
    (h : HasRoom dst s) : BusWithin src dst s (treeBit r i bit c s).state := by
  unfold treeBit
  simp only
  split
  · have hroom : HasRoom dst (setDecNode (child (nodeAt s.block.node c.cur) bit) s) := h
    exact (put_within (s := setDecNode _ s) _ hroom).andThen fun _ _ _ => .of_bus_eq rfl
  · exact .of_bus_eq rfl

theorem decodeBit_within {src dst : Region} {base i : Nat} (r : NodeIx) (c : Cursor) {s : State} (h : HasRoom dst s)
    (hsrc : src.has (base + i / 8) = true) : BusWithin src dst s (decodeBit base r i c s).state := by
  refine (fetchByte_within c.byte s hsrc).andThen fun byte t ht => ?_
  have hroom : HasRoom dst t := (fetchByte_ends base i c.byte s).hasRoom ht h
  refine BusWithin.trans (t := setDecBits (BitVec.ofNat 32 (i + 1)) t) (.of_bus_eq rfl) ?_
  simp only
  split
  · exact singleLeafBit_within _ _ _ _ hroom
  · exact treeBit_within _ _ _ _ hroom

theorem decodeLoop_within {src dst : Region} {base remaining i : Nat} (r : NodeIx) (c : Cursor) {s : State}
    (h : HasRoom dst s) (hsrc : ∀ k, i ≤ k → k < i + remaining → src.has (base + k / 8) = true) :
    BusWithin src dst s (decodeLoop base r remaining i c s).state := by
  induction remaining generalizing i c s with
  | zero => exact .of_bus_eq rfl
  | succ n ih =>
    refine (decodeBit_within r c h (hsrc i (by omega) (by omega))).andThen fun d t ht => ?_
    exact ih d ((decodeBit_ends base r i c s h.2).hasRoom ht h) fun k h₁ h₂ => hsrc k (by omega) (by omega)

/-- DECODE reads only source bytes, since TOTAL_BITS fit them, and writes only destination bytes (R79, R80, R201). -/
theorem decodeRule_within (s : State) :
    BusWithin (srcRegion s.block) (dstRegion s.block) s (decodeRule s).state := by
  unfold decodeRule
  split
  · exact .of_bus_eq rfl
  · split
    · exact .of_bus_eq rfl
    · rename_i hbits
      cases checkRegions s.block with
      | some e => exact .of_bus_eq rfl
      | none =>
        have hroom : HasRoom (dstRegion s.block) (decodeStart s) := ⟨rfl, by simp⟩
        refine BusWithin.trans (t := decodeStart s) (.of_bus_eq rfl) ?_
        refine (decodeLoop_within s.block.root ⟨s.block.root, 0, 0⟩ hroom fun k _ hk => ?_).andThen fun c t _ => ?_
        · simp only [neededBytes, ceilDiv8] at hbits
          exact srcRegion_has (by omega)
        · split <;> exact .of_bus_eq rfl

/-! ### FREQ_COUNT -/

theorem countLoop_within {src dst : Region} {base remaining j : Nat} (h : Vector Word 256) (s : State)
    (hsrc : ∀ k, j ≤ k → k < j + remaining → src.has (base + k) = true) :
    BusWithin src dst s (countLoop base remaining j h s).state := by
  induction remaining generalizing j h s with
  | zero => exact .of_bus_eq rfl
  | succ n ih =>
    have hread : BusWithin src dst s (busRead (base + j) s).state := busRead_within s (hsrc j (by omega) (by omega))
    rw [countLoop]
    cases hr : busRead (base + j) s with
    | raised e t => rw [hr] at hread; exact hread
    | ok b t =>
      rw [hr] at hread
      simp only
      split
      · exact hread
      · exact hread.trans (ih _ _ fun k h₁ h₂ => hsrc k (by omega) (by omega))

/-- FREQ_COUNT reads only source bytes and writes nothing, whatever region `dst` is (R79, R80). -/
theorem freqCountRule_within (dst : Region) (s : State) :
    BusWithin (srcRegion s.block) dst s (freqCountRule s).state := by
  unfold freqCountRule
  split
  · exact .of_bus_eq rfl
  · cases checkSrc s.block with
    | some e => exact .of_bus_eq rfl
    | none =>
      refine BusWithin.trans (t := setFreq zeroFreq s) (.of_bus_eq rfl) ?_
      exact (countLoop_within zeroFreq _ fun k _ hk => srcRegion_has (by omega)).andThen fun _ _ _ => .of_bus_eq rfl

end Sys2Proof.Machine
end

section
/-! SUPPORT. How the rule of each command ends, said for all commands at once. -/

namespace Sys2Proof.Machine

/-! ### The registers a rule leaves alone -/

/-- Only registers and tables that commands write differ: not the engine, DONE, ERR and OVR, the error registers, IRQ_EN
or the four region registers (R126, R129, R130). -/
def OnlyResults (s t : State) : Prop :=
  t.block = { s.block with
    treeValid := t.block.treeValid
    codeValid := t.block.codeValid
    totalBits := t.block.totalBits
    outLen := t.block.outLen
    nleaf := t.block.nleaf
    nnode := t.block.nnode
    root := t.block.root
    maxLen := t.block.maxLen
    decNode := t.block.decNode
    decBits := t.block.decBits
    freq := t.block.freq
    node := t.block.node
    code := t.block.code }

/-- The tables and what the validity flags vouch for are the same. -/
def SameTables (b c : Block) : Prop :=
  c.treeValid = b.treeValid ∧ c.codeValid = b.codeValid ∧ c.nleaf = b.nleaf ∧ c.nnode = b.nnode ∧ c.root = b.root ∧
    c.maxLen = b.maxLen ∧ c.freq = b.freq ∧ c.node = b.node ∧ c.code = b.code

theorem SameTables.refl (b : Block) : SameTables b b := ⟨rfl, rfl, rfl, rfl, rfl, rfl, rfl, rfl, rfl⟩

theorem SameTables.treeInv {b c : Block} (h : SameTables b c) (hb : treeInv b) : treeInv c := by
  obtain ⟨htree, -, hnleaf, hnnode, hroot, -, hfreq, hnode, -⟩ := h
  intro hv
  simp only [slot, hnleaf, hnnode, hroot, hfreq, hnode]
  exact hb (htree ▸ hv)

theorem SameTables.codeInv {b c : Block} (h : SameTables b c) (hb : codeInv b) : codeInv c := by
  obtain ⟨htree, hcodes, -, -, hroot, hmax, -, hnode, hcode⟩ := h
  intro hv
  rw [htree, hroot, hmax, hnode, hcode]
  exact hb (hcodes ▸ hv)

/-- ENCODE leaves every table alone (R185). -/
theorem encodeRule_sameTables (s : State) : SameTables s.block (encodeRule s).state.block := by
  have h := (encodeRule_ends s).1.only
  unfold OnlyOutput at h
  rw [h]
  exact .refl _

/-- DECODE leaves every table alone (R200). -/
theorem decodeRule_sameTables (s : State) : SameTables s.block (decodeRule s).state.block := by
  have h := (decodeRule_ends s).only
  unfold OnlyCursor at h
  rw [h]
  exact .refl _

/-- What a rule does to the block: it writes results only. -/
theorem rule_onlyResults (i : Instr) (s : State) : OnlyResults s (rule i s).state := by
  cases i with
  | freqClear => rfl
  | freqCount =>
    have h := (freqCountRule_ends s).1
    unfold OnlyResults rule
    rw [h]
  | buildTree =>
    rcases buildTreeRule_cases s with ⟨e, -, h⟩ | ⟨-, -, h⟩ <;> simp only [rule, h] <;> rfl
  | genCodes =>
    rcases genCodesRule_cases s with ⟨-, h⟩ | ⟨-, h⟩ <;> simp only [rule, h] <;> rfl
  | encode =>
    have h := (encodeRule_ends s).1.only
    unfold OnlyOutput at h
    unfold OnlyResults rule
    rw [h]
    rfl
  | decode =>
    have h := (decodeRule_ends s).only
    unfold OnlyCursor at h
    unfold OnlyResults rule
    rw [h]
    rfl

/-- Every error a command ends with has a code (R226). -/
theorem rule_raised_code {i : Instr} {s t : State} {e : Err} (h : rule i s = .raised e t) : e.code ≠ .none := by
  cases i with
  | freqClear => cases h
  | freqCount => exact ((freqCountRule_ends s).2.2.2 e t h).1
  | buildTree =>
    rcases buildTreeRule_cases s with ⟨e', he, h'⟩ | ⟨-, -, h'⟩
    · rw [rule, h'] at h; cases h; exact he
    · rw [rule, h'] at h; cases h
  | genCodes =>
    rcases genCodesRule_cases s with ⟨-, h'⟩ | ⟨-, h'⟩
    · rw [rule, h'] at h; cases h; simp
    · rw [rule, h'] at h; cases h
  | encode => exact (encodeRule_ends s).1.code e t h
  | decode => exact (decodeRule_ends s).code e t h

/-- The end of a command, in its two cases: DONE, or ERR with a code (R129, R130). -/
theorem finish_rule_cases (i : Instr) (s : State) :
    (∃ t, rule i s = .ok () t ∧ finish (rule i s) = completeOk t) ∨
    (∃ e t, rule i s = .raised e t ∧ e.code ≠ .none ∧ finish (rule i s) = raise e t) := by
  cases h : rule i s with
  | ok a t => exact .inl ⟨t, rfl, rfl⟩
  | raised e t => exact .inr ⟨e, t, rfl, rule_raised_code h, rfl⟩

/-- Completion leaves the tables, memory and the record of accesses as the rule left them. -/
theorem finish_sameTables (r : Res Unit) : SameTables r.state.block (finish r).block := by
  cases r <;> exact .refl _

@[simp] theorem finish_mem (r : Res Unit) : (finish r).mem = r.state.mem := by cases r <;> rfl

@[simp] theorem finish_bus (r : Res Unit) : (finish r).bus = r.state.bus := by cases r <;> rfl

@[simp] theorem finish_engine (r : Res Unit) : (finish r).block.engine = .idle := by cases r <;> rfl

/-! ### Memory (20_memory.md R78, R82) -/

theorem memoryInv_of_same {s t : State} (h : memoryInv s) (hm : t.mem = s.mem) (hb : t.bus = s.bus) :
    memoryInv t := by
  unfold memoryInv; rw [hm, hb]; exact h

/-- Accesses in regions that end by 2^32 pass no address of 2^32 or more. -/
theorem memoryInv_of_within {src dst : Region} {s t : State} (h : memoryInv s) (hb : BusWithin src dst s t)
    (hsrc : src.base + src.size ≤ Config.spaceEnd) (hdst : dst.base + dst.size ≤ Config.spaceEnd)
    (hwf : t.mem.wf = true) (hin : t.mem.inSpace = true) : memoryInv t := by
  obtain ⟨-, -, hbefore⟩ := h
  refine ⟨hwf, hin, fun x hx => ?_⟩
  have below : ∀ r : Region, r.base + r.size ≤ Config.spaceEnd → r.has x.addr = true → x.addr < Config.spaceEnd := by
    intro r hr hx
    simp only [Region.has, Bool.and_eq_true, decide_eq_true_eq] at hx
    omega
  rcases hb x hx with hx | ⟨-, hx⟩ | ⟨-, hx⟩
  · exact hbefore x hx
  · exact below src hsrc hx
  · exact below dst hdst hx

/-- ENCODE on illegal regions does nothing but clear OUT_LEN (R185, R132). -/
theorem encodeRule_refused {s : State} (h : checkRegions s.block ≠ none) : (encodeRule s).state = setOutLen 0 s := by
  unfold encodeRule
  split
  · rfl
  · split
    · rfl
    · cases hc : checkRegions s.block with
      | none => exact absurd hc h
      | some e => rfl

/-- DECODE on illegal regions does nothing but set its registers (R201, R132). -/
theorem decodeRule_refused {s : State} (h : checkRegions s.block ≠ none) : (decodeRule s).state = decodeStart s := by
  unfold decodeRule
  split
  · rfl
  · split
    · rfl
    · cases hc : checkRegions s.block with
      | none => exact absurd hc h
      | some e => rfl

/-- FREQ_COUNT on an illegal source does nothing but clear FREQ (R142). -/
theorem freqCountRule_refused {s : State} (h : checkSrc s.block ≠ none) :
    (freqCountRule s).state = setFreq zeroFreq s := by
  unfold freqCountRule
  split
  · rfl
  · cases hc : checkSrc s.block with
    | none => exact absurd hc h
    | some e => rfl

/-- A piece that emits from OUT_LEN = 0 within legal regions keeps the memory invariant. -/
theorem memoryInv_of_emits {s u t : State} (h : memoryInv s) (hc : checkRegions s.block = none)
    (hb : BusWithin (srcRegion s.block) (dstRegion s.block) s t) (hum : u.mem = s.mem)
    (hua : dstRegion u.block = dstRegion s.block) (hul : u.block.outLen = 0) (he : Emits u t) : memoryInv t := by
  obtain ⟨hsrc, hdst, -⟩ := checkRegions_eq_none.mp hc
  obtain ⟨hwf, hin, -⟩ := id h
  have hdst' : u.block.dstAddr.toNat + u.block.dstCap.toNat ≤ Config.spaceEnd := by
    simp only [dstRegion, Region.mk.injEq] at hua
    rw [hua.1, hua.2]; exact hdst
  exact memoryInv_of_within h hb hsrc hdst (he.wf (hum ▸ hwf)) (he.inSpace hdst' (by simp [hul]) (hum ▸ hin))

/-- Every rule keeps memory in canonical form and below 2^32 (R78, R82). -/
theorem rule_memoryInv (i : Instr) {s : State} (h : memoryInv s) : memoryInv (rule i s).state := by
  cases i with
  | freqClear => exact memoryInv_of_same h rfl rfl
  | freqCount =>
    by_cases hc : checkSrc s.block = none
    · obtain ⟨-, hmem, -⟩ := freqCountRule_ends s
      obtain ⟨hwf, hin, -⟩ := id h
      exact memoryInv_of_within h (freqCountRule_within ⟨0, 0⟩ s) (checkSrc_eq_none.mp hc) (Nat.zero_le _)
        (by rw [rule, hmem]; exact hwf) (by rw [rule, hmem]; exact hin)
    · rw [rule, freqCountRule_refused hc]; exact memoryInv_of_same h rfl rfl
  | buildTree =>
    rcases buildTreeRule_cases s with ⟨e, -, h'⟩ | ⟨-, -, h'⟩ <;> rw [rule, h'] <;> exact memoryInv_of_same h rfl rfl
  | genCodes =>
    rcases genCodesRule_cases s with ⟨-, h'⟩ | ⟨-, h'⟩ <;> rw [rule, h'] <;> exact memoryInv_of_same h rfl rfl
  | encode =>
    by_cases hc : checkRegions s.block = none
    · exact memoryInv_of_emits h hc (encodeRule_within s) (u := setOutLen 0 s) rfl rfl rfl
        (encodeRule_ends s).1.emits
    · rw [rule, encodeRule_refused hc]; exact memoryInv_of_same h rfl rfl
  | decode =>
    by_cases hc : checkRegions s.block = none
    · exact memoryInv_of_emits h hc (decodeRule_within s) (u := decodeStart s) rfl rfl rfl
        (decodeRule_ends s).emits
    · rw [rule, decodeRule_refused hc]; exact memoryInv_of_same h rfl rfl

theorem finish_rule_memoryInv (i : Instr) {s : State} (h : memoryInv s) : memoryInv (finish (rule i s)) :=
  memoryInv_of_same (rule_memoryInv i h) (finish_mem _) (finish_bus _)

/-! ### The tables and validity flags (10_state.md R54) -/

/-- Everything a rule can do to TREE_VALID, CODE_VALID and the tables they vouch for: nothing; a new FREQ table
(FREQ_CLEAR, FREQ_COUNT); the tree of the present FREQ table (BUILD_TREE, on success); the codes of the present tree
(GEN_CODES, on success). -/
theorem rule_tables (i : Instr) (s : State) :
    SameTables s.block (rule i s).state.block ∨
    ((i = .freqClear ∨ i = .freqCount) ∧ (rule i s).state.block.treeValid = s.block.treeValid ∧
      (rule i s).state.block.codeValid = s.block.codeValid) ∨
    (i = .buildTree ∧ ∃ t, rule i s = .ok () t ∧ treeInv t.block ∧ t.block.codeValid = s.block.codeValid ∧
      t.block.freq = s.block.freq) ∨
    (i = .genCodes ∧ ∃ t, rule i s = .ok () t ∧ codeInv t.block ∧ t.block.treeValid = s.block.treeValid ∧
      t.block.freq = s.block.freq ∧ (treeInv s.block → treeInv t.block)) := by
  cases i with
  | freqClear => exact .inr (.inl ⟨.inl rfl, rfl, rfl⟩)
  | freqCount =>
    have h := (freqCountRule_ends s).1
    refine .inr (.inl ⟨.inr rfl, ?_⟩)
    rw [rule, h]
    exact ⟨rfl, rfl⟩
  | buildTree =>
    rcases buildTreeRule_cases s with ⟨e, -, h⟩ | ⟨hrange, hleaves, h⟩
    · left; rw [rule, h]; exact .refl _
    · exact .inr (.inr (.inl ⟨rfl, _, h, treeInv_writeTree hrange hleaves, rfl, rfl⟩))
  | genCodes =>
    rcases genCodesRule_cases s with ⟨-, h⟩ | ⟨hv, h⟩
    · left; rw [rule, h]; exact .refl _
    · exact .inr (.inr (.inr ⟨rfl, _, h, codeInv_writeCodes hv, rfl, rfl, id⟩))
  | encode => exact .inl (encodeRule_sameTables s)
  | decode => exact .inl (decodeRule_sameTables s)

end Sys2Proof.Machine
end

section
/-! SUPPORT. What one step can do to the block, said once; from it, that every step keeps the invariant and that the
validity flags move only as R54 says. -/

namespace Sys2Proof.Machine

/-! ### The moves of the block (40_dispatch.md R135) -/

/-- The block after a step, by what the step was. The engine's turn is that of `s` with its input taken, a state with
the same block. -/
inductive BlockMove (s : State) : Block → Prop where
  /-- A read, an ignored or illegal access, an access to memory, the turn of an Idle engine. -/
  | same : BlockMove s s.block
  /-- A busy-drop write while BUSY (R270). -/
  | dropped (hb : busy s.block = true) : BlockMove s { s.block with ovr := true }
  | reset (h : NextResets s) : BlockMove s Block.reset
  | status (v : Word) (h : NextWrites s 0x00C v) : BlockMove s (writeStatus v s.block)
  | irqEn (v : Word) (h : NextWrites s 0x010 v) : BlockMove s (writeIrqEn v s.block)
  | start (w : Word) (hi : s.block.engine = .idle) (h : NextWrites s 0x008 w) : BlockMove s (startBlock w s.block)
  | operand (o : Offset) (v : Word) (h : NextWrites s o v) (hb : (busy s.block && (locate o).busyDrop) = false) :
      BlockMove s (writeOperand (locate o) v s.block)
  | command (i : Instr) (u : State) (hu : u.block = s.block) (hi : s.block.engine = .busy (encodeWord i))
      (h : NextIsEngineTurn s) : BlockMove s (finish (rule i u)).block
  | illegal (w : Word) (hw : ∀ i, decodeWord w ≠ .ok i) (hi : s.block.engine = .busy w) (h : NextIsEngineTurn s) :
      BlockMove s { s.block with errCode := .illegalCmd, errInfo := w, engine := .idle, err := true }

/-- Every step that goes on makes one of these moves. -/
theorem step_blockMove {s t : State} (h : step s = .next t) : BlockMove s t.block := by
  rcases step_cases h with ⟨hturn, h⟩ | ⟨a, e, he, hw, h⟩ | ⟨hr, rfl⟩ | ⟨hblock, -⟩
  · rcases engineTurn_cases h with ⟨-, rfl⟩ | ⟨i, hi, rfl⟩ | ⟨w, hi, hw, rfl⟩
    · exact .same
    · exact .command i _ rfl hi hturn
    · exact .illegal w hw hi hturn
  · have writes : ∀ {o v}, writtenAt a = some (o, v) → NextWrites s o v := fun h => ⟨e, he, hw.trans h⟩
    rcases regAccess_cases h with ⟨r, rfl⟩ | ⟨r, rfl⟩ | ⟨hb, rfl⟩ | ⟨v, hv, hw, rfl⟩ | ⟨v, hw, rfl⟩ | ⟨v, hw, rfl⟩ |
      ⟨w, hi, hw, rfl⟩ | ⟨l, v, rfl, hw, hb, rfl⟩
    · exact .same
    · exact .same
    · exact .dropped hb
    · exact .reset (.inr ⟨v, hv, writes hw⟩)
    · exact .status v (writes hw)
    · exact .irqEn v (writes hw)
    · exact .start w hi (writes hw)
    · exact .operand _ v (writes hw) hb
  · exact .reset (.inl hr)
  · rw [hblock]; exact .same

/-- A write of an operand or of FREQ, in its two cases: a new FREQ entry with both validity flags clear, or new region
registers and TOTAL_BITS only (R30 to R34, R41). -/
theorem writeOperand_cases (l : Loc) (v : Word) (b : Block) :
    (∃ k, l = .freq k ∧ writeOperand l v b = { clearValid b with freq := setEntry b.freq k v }) ∨
    ∃ srcAddr srcLen dstAddr dstCap totalBits, writeOperand l v b =
      { b with
        srcAddr := srcAddr, srcLen := srcLen, dstAddr := dstAddr, dstCap := dstCap, totalBits := totalBits } := by
  cases l with
  | freq k => exact .inl ⟨k, rfl, rfl⟩
  | _ => exact .inr ⟨_, _, _, _, _, rfl⟩

/-! ### Memory after a step (20_memory.md R78, R82) -/

/-- What an abort draws lies below 2^32 (R262; log 5). -/
theorem resetBlock_memoryInv {s : State} (h : memoryInv s) : memoryInv (resetBlock s) := by
  obtain ⟨hwf, hin, hbus⟩ := h
  suffices (resetBlock s).mem.wf = true ∧ (resetBlock s).mem.inSpace = true from
    ⟨this.1, this.2, by rw [resetBlock_bus]; exact hbus⟩
  simp only [resetBlock, abortRunning]
  split
  · exact ⟨hwf, hin⟩
  · split
    · refine ⟨Memory.wf_drawRange _ hwf, Memory.inSpace_drawRange _ hin fun a ha => ?_⟩
      simp only [abortMayChange, Bool.and_eq_true, decide_eq_true_eq] at ha
      exact ha.1
    · exact ⟨hwf, hin⟩

/-- What a start draws lies below 2^32 (R126; log 10). -/
theorem startCommand_memoryInv {s : State} (w : Word) (h : memoryInv s) : memoryInv (startCommand w s) := by
  obtain ⟨hwf, hin, hbus⟩ := h
  suffices (startCommand w s).mem.wf = true ∧ (startCommand w s).mem.inSpace = true from
    ⟨this.1, this.2, by rw [startCommand_bus]; exact hbus⟩
  rw [startCommand_mem, overtakeCopies_mem]
  split
  · exact ⟨Memory.wf_drawList _ hwf, Memory.inSpace_drawList _ hin⟩
  · exact ⟨hwf, hin⟩

theorem HostOnly.memoryInv {s t : State} (h : HostOnly s t) (hs : memoryInv s) : memoryInv t := by
  obtain ⟨-, -, hbus, -, hwf, hin⟩ := h
  obtain ⟨kwf, kin, kbus⟩ := hs
  exact ⟨hwf kwf, hin kin, by rw [hbus]; exact kbus⟩

theorem answer_memoryInv {s : State} (r : Reply) (h : memoryInv s) : memoryInv (answer r s) :=
  memoryInv_of_same h rfl rfl

theorem engineTurn_memoryInv {s t : State} (hs : memoryInv s) (h : engineTurn s = .next t) : memoryInv t := by
  rcases engineTurn_cases h with ⟨-, rfl⟩ | ⟨i, -, rfl⟩ | ⟨w, -, -, rfl⟩
  · exact hs
  · exact finish_rule_memoryInv i hs
  · exact memoryInv_of_same hs rfl rfl

theorem regAccess_memoryInv {a : RegAccess} {s t : State} (hs : memoryInv s) (h : regAccess a s = .next t) :
    memoryInv t := by
  have same : ∀ b : Block, memoryInv (answer .done { s with block := b }) := fun _ => answer_memoryInv _ hs
  rcases regAccess_cases h with ⟨r, rfl⟩ | ⟨r, rfl⟩ | ⟨-, rfl⟩ | ⟨v, -, -, rfl⟩ | ⟨v, -, rfl⟩ | ⟨v, -, rfl⟩ |
    ⟨w, -, -, rfl⟩ | ⟨l, v, -, -, -, rfl⟩
  · exact answer_memoryInv _ hs
  · exact answer_memoryInv (s := { s with draws := _ }) _ hs
  · exact same _
  · exact answer_memoryInv _ (resetBlock_memoryInv hs)
  · exact same _
  · exact same _
  · exact answer_memoryInv _ (startCommand_memoryInv w hs)
  · exact same _

theorem step_memoryInv {s t : State} (hs : memoryInv s) (h : step s = .next t) : memoryInv t := by
  have hs' : memoryInv { s with pending := s.pending.tail } := hs
  rcases step_cases h with ⟨-, h⟩ | ⟨a, e, -, -, h⟩ | ⟨-, rfl⟩ | h
  · exact engineTurn_memoryInv hs' h
  · exact regAccess_memoryInv hs' h
  · exact resetBlock_memoryInv hs'
  · exact h.memoryInv hs'

/-! ### The status of a block that completes (10_state.md R26, R28, R29; 60_exceptions.md R227) -/

/-- A command that runs as its start left it ends with DONE and no code, or with ERR and a code (R129, R130). -/
theorem finish_rule_status (i : Instr) {s : State} (h₁ : s.block.done = false) (h₂ : s.block.err = false)
    (h₃ : s.block.errCode = .none) (h₄ : s.block.errInfo = 0) :
    let b := (finish (rule i s)).block
    (b.done = true ∧ b.err = false ∧ b.errCode = .none ∧ b.errInfo = 0) ∨
      (b.done = false ∧ b.err = true ∧ b.errCode ≠ .none) := by
  have hr := rule_onlyResults i s
  rcases finish_rule_cases i s with ⟨t, ht, hf⟩ | ⟨e, t, ht, he, hf⟩
  · rw [ht] at hr
    rw [hf, completeOk_block, show t.block = _ from hr]
    exact .inl ⟨rfl, h₂, h₃, h₄⟩
  · rw [ht] at hr
    rw [hf, raise_block, show t.block = _ from hr]
    exact .inr ⟨h₁, rfl, he⟩

/-- In a BUSY block that meets the status rules no completion is recorded (R126). -/
theorem statusInv_of_busy {b : Block} (h : statusInv b) (hb : busy b = true) :
    b.done = false ∧ b.err = false ∧ b.errCode = .none ∧ b.errInfo = 0 := by
  obtain ⟨-, hbusy, -, -, hinfo⟩ := h
  obtain ⟨hd, he, hc⟩ := hbusy hb
  exact ⟨hd, he, hc, hinfo hc⟩

theorem statusInv_reset : statusInv Block.reset := by unfold statusInv; decide

theorem statusInv_writeStatus {b : Block} (v : Word) (h : statusInv b) : statusInv (writeStatus v b) := by
  obtain ⟨hboth, hbusy, herr, hdone, hinfo⟩ := h
  refine ⟨?_, fun hb => ?_, fun he => ?_, fun hd => ?_, hinfo⟩
  · simp only [writeStatus]
    cases hd : b.done <;> simp_all
  · obtain ⟨hd, he, hc⟩ := hbusy hb
    exact ⟨by simp [writeStatus, hd], by simp [writeStatus, he], hc⟩
  · exact herr (by simp only [writeStatus, Bool.and_eq_true] at he; exact he.1)
  · exact hdone (by simp only [writeStatus, Bool.and_eq_true] at hd; exact hd.1)

theorem statusInv_start (w : Word) (b : Block) : statusInv (startBlock w b) :=
  ⟨rfl, fun _ => ⟨rfl, rfl, rfl⟩, fun _ => by contradiction, fun _ => rfl, fun _ => rfl⟩

theorem statusInv_writeOperand {b : Block} (l : Loc) (v : Word) (h : statusInv b) :
    statusInv (writeOperand l v b) := by
  rcases writeOperand_cases l v b with ⟨k, -, hw⟩ | ⟨sa, sl, da, dc, tb, hw⟩ <;> rw [hw] <;> exact h

theorem statusInv_finish_rule (i : Instr) {s : State} (h : statusInv s.block) (hb : busy s.block = true) :
    statusInv (finish (rule i s)).block := by
  obtain ⟨hd, he, hc, hinfo⟩ := statusInv_of_busy h hb
  rcases finish_rule_status i hd he hc hinfo with ⟨kd, ke, kc, kinfo⟩ | ⟨kd, ke, kc⟩
  · exact ⟨by rw [ke, Bool.and_false], by simp, by simp [ke], fun _ => kc, fun _ => kinfo⟩
  · exact ⟨by rw [kd, Bool.false_and], by simp, fun _ => kc, by simp [kd], fun k => absurd k kc⟩

theorem BlockMove.keeps_statusInv {s : State} {b : Block} (m : BlockMove s b) (h : statusInv s.block) :
    statusInv b := by
  cases m with
  | same => exact h
  | dropped _ => exact h
  | reset _ => exact statusInv_reset
  | status v _ => exact statusInv_writeStatus v h
  | irqEn v _ => exact h
  | start w _ _ => exact statusInv_start w _
  | operand o v _ _ => exact statusInv_writeOperand _ v h
  | command i u hu hi _ =>
    rw [← hu] at h hi
    exact statusInv_finish_rule i h (busy_busy hi)
  | illegal w _ hi _ =>
    obtain ⟨hd, -, -, -⟩ := statusInv_of_busy h (busy_busy hi)
    exact ⟨by simp [hd], by simp [busy], by simp, by simp [hd], by simp⟩

/-- R227, of every move but an acknowledge of ERR. -/
theorem BlockMove.keeps_codeMatchesErr {s : State} {b : Block} (m : BlockMove s b) (h : statusInv s.block)
    (hc : codeMatchesErr s.block) (hack : ∀ v : Word, NextWrites s 0x00C v → v.getLsbD 2 = false) :
    codeMatchesErr b := by
  cases m with
  | same => exact hc
  | dropped _ => exact hc
  | reset _ => exact ⟨fun _ => rfl, fun _ => rfl⟩
  | status v hw =>
    simp only [codeMatchesErr, writeStatus, hack v hw, Bool.not_false, Bool.and_true]
    exact hc
  | irqEn v _ => exact hc
  | start w _ _ => exact ⟨fun _ => rfl, fun _ => rfl⟩
  | operand o v _ _ =>
    rcases writeOperand_cases (locate o) v s.block with ⟨k, -, hw⟩ | ⟨sa, sl, da, dc, tb, hw⟩ <;> rw [hw] <;> exact hc
  | command i u hu hi _ =>
    rw [← hu] at h hi
    obtain ⟨hd, he, hcode, hinfo⟩ := statusInv_of_busy h (busy_busy hi)
    rcases finish_rule_status i hd he hcode hinfo with ⟨-, ke, kc, -⟩ | ⟨-, ke, kc⟩
    · exact ⟨fun _ => ke, fun _ => kc⟩
    · exact ⟨fun k => absurd k kc, fun k => by rw [ke] at k; cases k⟩
  | illegal w _ _ _ => simp [codeMatchesErr]

/-! ### What a start made sure of (40_dispatch.md R126) -/

theorem startInv_both_clear {b : Block} {i : Instr} (h : startInv b) (he : b.engine = .busy (encodeWord i))
    (hi : i = .freqClear ∨ i = .freqCount ∨ i = .buildTree) : b.treeValid = false ∧ b.codeValid = false := by
  obtain ⟨-, hclear, -⟩ := h _ he
  exact hclear (hi.imp (congrArg encodeWord) (.imp (congrArg encodeWord) (congrArg encodeWord)))

theorem startInv_codes_clear {b : Block} (h : startInv b) (he : b.engine = .busy (encodeWord .genCodes)) :
    b.codeValid = false := by
  obtain ⟨-, -, hclear⟩ := h _ he
  exact hclear rfl

theorem startInv_idle {b : Block} (h : b.engine = .idle) : startInv b := by
  intro w hw
  rw [h] at hw
  cases hw

theorem BlockMove.keeps_startInv {s : State} {b : Block} (m : BlockMove s b) (h : startInv s.block) :
    startInv b := by
  cases m with
  | same => exact h
  | dropped _ => exact h
  | reset _ => exact startInv_idle rfl
  | status v _ => exact h
  | irqEn v _ => exact h
  | start w _ _ => exact startInv_start w _
  | operand o v _ _ =>
    rcases writeOperand_cases (locate o) v s.block with ⟨k, -, hw⟩ | ⟨sa, sl, da, dc, tb, hw⟩ <;> rw [hw]
    · intro w hb
      obtain ⟨hlast, -, -⟩ := h w hb
      exact ⟨hlast, fun _ => ⟨rfl, rfl⟩, fun _ => rfl⟩
    · exact h
  | command i u _ _ _ => exact startInv_idle (finish_engine _)
  | illegal w _ _ _ => exact startInv_idle rfl

/-! ### The tables (10_state.md R54) -/

theorem treeInv_of_clear {b : Block} (h : b.treeValid = false) : treeInv b := fun hv => by
  rw [h] at hv; cases hv

theorem codeInv_of_clear {b : Block} (h : b.codeValid = false) : codeInv b := fun hv => by
  rw [h] at hv; cases hv

theorem finish_rule_treeInv {i : Instr} {s : State} (ht : treeInv s.block) (hs : startInv s.block)
    (he : s.block.engine = .busy (encodeWord i)) : treeInv (finish (rule i s)).block := by
  refine (finish_sameTables _).treeInv ?_
  rcases rule_tables i s with h | ⟨hi, htree, -⟩ | ⟨rfl, t, h, hinv, -⟩ | ⟨rfl, t, h, -, -, -, hinv⟩
  · exact h.treeInv ht
  · obtain ⟨hclear, -⟩ := startInv_both_clear hs he (by tauto)
    intro hv
    rw [htree, hclear] at hv
    cases hv
  · rw [h]; exact hinv
  · rw [h]; exact hinv ht

theorem finish_rule_codeInv {i : Instr} {s : State} (hc : codeInv s.block) (hs : startInv s.block)
    (he : s.block.engine = .busy (encodeWord i)) : codeInv (finish (rule i s)).block := by
  refine (finish_sameTables _).codeInv ?_
  rcases rule_tables i s with h | ⟨hi, -, hcodes⟩ | ⟨rfl, t, h, -, hcodes, -⟩ | ⟨rfl, t, h, hinv, -⟩
  · exact h.codeInv hc
  · exact codeInv_of_clear (hcodes.trans (startInv_both_clear hs he (by tauto)).2)
  · rw [h]; exact codeInv_of_clear (hcodes.trans (startInv_both_clear hs he (by tauto)).2)
  · rw [h]; exact hinv

/-- Every move leaves the tables as the validity flags say. -/
theorem BlockMove.keeps_tables {s : State} {b : Block} (m : BlockMove s b) (hs : startInv s.block)
    (ht : treeInv s.block) (hc : codeInv s.block) : treeInv b ∧ codeInv b := by
  cases m with
  | same => exact ⟨ht, hc⟩
  | dropped _ => exact ⟨ht, hc⟩
  | reset _ => exact ⟨treeInv_of_clear rfl, codeInv_of_clear rfl⟩
  | status v _ => exact ⟨ht, hc⟩
  | irqEn v _ => exact ⟨ht, hc⟩
  | start w _ _ => exact ⟨treeInv_start ht, codeInv_start hc⟩
  | operand o v _ _ =>
    rcases writeOperand_cases (locate o) v s.block with ⟨k, -, hw⟩ | ⟨sa, sl, da, dc, tb, hw⟩ <;> rw [hw]
    · exact ⟨treeInv_of_clear rfl, codeInv_of_clear rfl⟩
    · exact ⟨ht, hc⟩
  | command i u hu hi _ =>
    rw [← hu] at hs ht hc hi
    exact ⟨finish_rule_treeInv ht hs hi, finish_rule_codeInv hc hs hi⟩
  | illegal w _ _ _ => exact ⟨ht, hc⟩

/-- Every step keeps the invariant. -/
theorem step_inv {s t : State} (hs : Inv s) (h : step s = .next t) : Inv t := by
  obtain ⟨hmem, hstatus, hstart, htree, hcode⟩ := hs
  have m := step_blockMove h
  obtain ⟨kt, kc⟩ := m.keeps_tables hstart htree hcode
  exact ⟨step_memoryInv hmem h, m.keeps_statusInv hstatus, m.keeps_startInv hstart, kt, kc⟩

/-- Settles O52: every kind of move keeps the block's part, and memory is written in canonical form below 2^32. -/
theorem stepKeepsInvariant : Obligations.StepKeepsInvariant := by
  intro s t hs h
  obtain ⟨-, hstatus, -⟩ := id hs
  exact ⟨step_inv hs h, (step_blockMove h).keeps_codeMatchesErr hstatus⟩

/-- Settles O51: after reset the engine is Idle, nothing is recorded and no validity flag is set. -/
theorem resetMeetsInvariant : Obligations.ResetMeetsInvariant :=
  ⟨⟨⟨rfl, rfl, by simp [State.reset]⟩, statusInv_reset, startInv_idle rfl, treeInv_of_clear rfl,
      codeInv_of_clear rfl⟩,
    fun _ => rfl, fun _ => rfl⟩

/-! ### The validity flags (10_state.md R54) -/

/-- The events that clear the validity flags: a reset, or, while Idle, a write of FREQ or the start
of one of the words. -/
def Clears (s : State) (starts : List Word) : Prop :=
  NextResets s ∨ (s.block.engine = .idle ∧ ∃ (o : Offset) (v : Word), NextWrites s o v ∧
    ((0x400 ≤ o.toNat ∧ o.toNat < 0x800) ∨ (o = 0x008#15 ∧ v ∈ starts)))

/-- An accepted write of FREQ clears the validity flags (R41). -/
theorem clears_freq {s : State} {o : Offset} {v : Word} {k : Byte} (h : NextWrites s o v) (hk : locate o = .freq k)
    (hb : (busy s.block && (locate o).busyDrop) = false) (starts : List Word) : Clears s starts := by
  have hidle : busy s.block = false := by simpa [hk, Loc.busyDrop] using hb
  exact .inr ⟨not_busy_iff.mp hidle, o, v, h, .inl (locate_eq_freq hk)⟩

/-- What a move does to the two validity flags and to FREQ. -/
inductive FlagMove (s : State) (b : Block) : Prop where
  | kept (htree : b.treeValid = s.block.treeValid) (hcode : b.codeValid = s.block.codeValid)
      (hfreq : b.freq = s.block.freq)
  /-- FREQ_CLEAR or FREQ_COUNT completes. -/
  | counted (i : Instr) (hi : i = .freqClear ∨ i = .freqCount) (he : s.block.engine = .busy (encodeWord i))
      (htree : b.treeValid = s.block.treeValid) (hcode : b.codeValid = s.block.codeValid)
  /-- A reset, or an accepted write of FREQ. -/
  | cleared (h : ∀ starts, Clears s starts) (htree : b.treeValid = false) (hcode : b.codeValid = false)
  | started (w : Word) (hi : s.block.engine = .idle) (h : NextWrites s 0x008 w) (hb : b = startBlock w s.block)
  /-- BUILD_TREE succeeds. -/
  | built (he : s.block.engine = .busy (encodeWord .buildTree)) (hdone : b.done = true)
      (hcode : b.codeValid = s.block.codeValid) (hfreq : b.freq = s.block.freq)
  /-- GEN_CODES succeeds. -/
  | coded (he : s.block.engine = .busy (encodeWord .genCodes)) (hdone : b.done = true)
      (htree : b.treeValid = s.block.treeValid) (hfreq : b.freq = s.block.freq)

theorem finish_rule_flagMove {i : Instr} {s u : State} (hu : u.block = s.block)
    (he : s.block.engine = .busy (encodeWord i)) : FlagMove s (finish (rule i u)).block := by
  obtain ⟨ktree, kcode, -, -, -, -, kfreq, -, -⟩ := finish_sameTables (rule i u)
  have htables := rule_tables i u
  rw [hu] at htables
  rcases htables with ⟨htree, hcode, -, -, -, -, hfreq, -, -⟩ | ⟨hi, htree, hcode⟩ |
    ⟨rfl, t, h, -, hcode, hfreq⟩ | ⟨rfl, t, h, -, htree, hfreq, -⟩
  · exact .kept (ktree.trans htree) (kcode.trans hcode) (kfreq.trans hfreq)
  · exact .counted i hi he (ktree.trans htree) (kcode.trans hcode)
  · rw [h]; exact .built he rfl hcode hfreq
  · rw [h]; exact .coded he rfl htree hfreq

theorem BlockMove.flagMove {s : State} {b : Block} (m : BlockMove s b) : FlagMove s b := by
  cases m with
  | same => exact .kept rfl rfl rfl
  | dropped _ => exact .kept rfl rfl rfl
  | reset h => exact .cleared (fun _ => .inl h) rfl rfl
  | status _ _ => exact .kept rfl rfl rfl
  | irqEn _ _ => exact .kept rfl rfl rfl
  | start w hi h => exact .started w hi h rfl
  | operand o v h hb =>
    rcases writeOperand_cases (locate o) v s.block with ⟨k, hk, hw⟩ | ⟨sa, sl, da, dc, tb, hw⟩ <;> rw [hw]
    · exact .cleared (clears_freq h hk hb) rfl rfl
    · exact .kept rfl rfl rfl
  | command i u hu hi _ => exact finish_rule_flagMove hu hi
  | illegal _ _ _ _ => exact .kept rfl rfl rfl

/-- The words whose start clears TREE_VALID (R126). -/
theorem startBlock_tree_falls {w : Word} {b : Block} (h₀ : b.treeValid = true)
    (h₁ : (startBlock w b).treeValid = false) : w ∈ [1, 2, 3] := by
  rw [startBlock_treeValid] at h₁
  split at h₁
  · rename_i hw; simpa using hw
  · rw [h₀] at h₁; cases h₁

/-- The words whose start clears CODE_VALID (R126). -/
theorem startBlock_codes_fall {w : Word} {b : Block} (h₀ : b.codeValid = true)
    (h₁ : (startBlock w b).codeValid = false) : w ∈ [1, 2, 3, 4] := by
  rw [startBlock_codeValid] at h₁
  split at h₁
  · rename_i hw; simp only [List.mem_cons, List.not_mem_nil, or_false]; tauto
  · split at h₁
    · rename_i hw; simp [hw]
    · rw [h₀] at h₁; cases h₁

/-- TREE_VALID rises only where BUILD_TREE succeeds. -/
theorem FlagMove.tree_rises {s : State} {b : Block} (m : FlagMove s b) (h₀ : s.block.treeValid = false)
    (h₁ : b.treeValid = true) : s.block.engine = .busy (encodeWord .buildTree) ∧ b.done = true := by
  cases m with
  | kept htree _ _ => simp [h₀, h₁] at htree
  | counted _ _ _ htree _ => simp [h₀, h₁] at htree
  | cleared _ htree _ => simp [h₁] at htree
  | started w _ _ hb => simp [hb, startBlock_treeValid, h₀] at h₁
  | built he hdone _ _ => exact ⟨he, hdone⟩
  | coded _ _ htree _ => simp [h₀, h₁] at htree

/-- CODE_VALID rises only where GEN_CODES succeeds. -/
theorem FlagMove.codes_rise {s : State} {b : Block} (m : FlagMove s b) (h₀ : s.block.codeValid = false)
    (h₁ : b.codeValid = true) : s.block.engine = .busy (encodeWord .genCodes) ∧ b.done = true := by
  cases m with
  | kept _ hcode _ => simp [h₀, h₁] at hcode
  | counted _ _ _ _ hcode => simp [h₀, h₁] at hcode
  | cleared _ _ hcode => simp [h₁] at hcode
  | started w _ _ hb => simp [hb, startBlock_codeValid, h₀] at h₁
  | built _ _ hcode _ => simp [h₀, h₁] at hcode
  | coded he hdone _ _ => exact ⟨he, hdone⟩

/-- TREE_VALID falls only by a reset, a write of FREQ or the start of a command that makes the tree stale: BUILD_TREE,
which sets it, runs with the flag clear. -/
theorem FlagMove.tree_falls {s : State} {b : Block} (m : FlagMove s b) (hs : startInv s.block)
    (h₀ : s.block.treeValid = true) (h₁ : b.treeValid = false) : Clears s [1, 2, 3] := by
  cases m with
  | kept htree _ _ => simp [h₀, h₁] at htree
  | counted _ _ _ htree _ => simp [h₀, h₁] at htree
  | cleared h _ _ => exact h _
  | started w hi h hb =>
    exact .inr ⟨hi, _, w, h, .inr ⟨rfl, startBlock_tree_falls h₀ (hb ▸ h₁)⟩⟩
  | built he _ _ _ => exact absurd (startInv_both_clear hs he (by simp)).1 (by simp [h₀])
  | coded _ _ htree _ => simp [h₀, h₁] at htree

/-- CODE_VALID falls by those events and the start of GEN_CODES. -/
theorem FlagMove.codes_fall {s : State} {b : Block} (m : FlagMove s b) (hs : startInv s.block)
    (h₀ : s.block.codeValid = true) (h₁ : b.codeValid = false) : Clears s [1, 2, 3, 4] := by
  cases m with
  | kept _ hcode _ => simp [h₀, h₁] at hcode
  | counted _ _ _ _ hcode => simp [h₀, h₁] at hcode
  | cleared h _ _ => exact h _
  | started w hi h hb =>
    exact .inr ⟨hi, _, w, h, .inr ⟨rfl, startBlock_codes_fall h₀ (hb ▸ h₁)⟩⟩
  | built _ _ hcode _ => simp [h₀, h₁] at hcode
  | coded he _ _ _ => exact absurd (startInv_codes_clear hs he) (by simp [h₀])

/-- FREQ changes only by events that clear both flags, or under a command that runs with both clear. -/
theorem FlagMove.freq_changes {s : State} {b : Block} (m : FlagMove s b) (hs : startInv s.block)
    (h : b.freq ≠ s.block.freq) : b.treeValid = false ∧ b.codeValid = false := by
  cases m with
  | kept _ _ hfreq => exact absurd hfreq h
  | counted i hi he htree hcode =>
    obtain ⟨ktree, kcode⟩ := startInv_both_clear hs he (by tauto)
    exact ⟨htree.trans ktree, hcode.trans kcode⟩
  | cleared _ htree hcode => exact ⟨htree, hcode⟩
  | started w _ _ hb => exact absurd (by rw [hb, startBlock_freq]) h
  | built _ _ _ hfreq => exact absurd hfreq h
  | coded _ _ _ hfreq => exact absurd hfreq h

/-- Settles O54: a step moves the flags and FREQ in one of six ways, and each clause holds of each. -/
theorem validityChangesOnlyAsRule54 : Obligations.ValidityChangesOnlyAsRule54 := by
  intro s t hs h
  have m := (step_blockMove h).flagMove
  obtain ⟨-, -, -, -, hcode⟩ := step_inv hs h
  obtain ⟨-, -, hstart, -, -⟩ := hs
  exact ⟨m.tree_rises, m.codes_rise, m.tree_falls hstart, m.codes_fall hstart, m.freq_changes hstart,
    fun hv => (hcode hv).1⟩

end Sys2Proof.Machine
end

section
/-! SUPPORT. The shape of the tree (10_state.md R47): what the leaves are, and an invariant of the merge loop. -/

namespace Sys2Proof.Machine

/-! ### The leaves (42_tree_builder.md R152) -/

/-- What a leaf is: a counted byte value, with its count and no children. -/
structure IsLeafOf (freq : Vector Word 256) (x : Node) : Prop where
  leaf : x.leaf = true
  freq : x.freq.toNat = (entry freq x.sym).toNat
  counted : 1 ≤ x.freq.toNat
  left : x.left = Config.nil
  right : x.right = Config.nil

@[simp] theorem leafNode_freq (s : Byte) (c : Word) : (leafNode s c).freq.toNat = c.toNat := by
  have := c.isLt
  simp only [leafNode, BitVec.toNat_setWidth]
  omega

theorem isLeafOf_of_mem {freq : Vector Word 256} {x : Node} (h : x ∈ leaves freq) : IsLeafOf freq x := by
  simp only [leaves, List.mem_filterMap] at h
  obtain ⟨s, -, h⟩ := h
  split at h
  · cases h
  · rename_i hne
    cases h
    refine ⟨rfl, leafNode_freq _ _, ?_, rfl, rfl⟩
    rw [leafNode_freq]
    exact Nat.one_le_iff_ne_zero.mpr fun h => hne (BitVec.eq_of_toNat_eq h)

theorem allBytes_ascending : allBytes.Pairwise fun s r => s.toNat < r.toNat := by decide +kernel

/-- The leaves stand in ascending byte value. -/
theorem leaves_ascending (freq : Vector Word 256) : (leaves freq).Pairwise fun x y => x.sym.toNat < y.sym.toNat := by
  refine allBytes_ascending.filterMap _ fun s r hsr x hx y hy => ?_
  split at hx <;> cases hx
  split at hy <;> cases hy
  exact hsr

/-- A byte value without a count adds nothing, so the leaves sum to all counts. -/
theorem sum_leaves (freq : Vector Word 256) : ((leaves freq).map fun x => x.freq.toNat).sum = freqSum freq := by
  unfold leaves freqSum
  induction allBytes with
  | nil => rfl
  | cons s rest ih =>
    rw [List.filterMap_cons, List.map_cons, List.sum_cons, ← ih]
    by_cases h : entry freq s = 0
    · rw [if_pos h, h]; exact (Nat.zero_add _).symm
    · rw [if_neg h, List.map_cons, List.sum_cons, leafNode_freq]

/-- The counts of 256 byte values sum to less than 2^40 (R44). -/
theorem freqSum_lt (freq : Vector Word 256) : freqSum freq < 2 ^ 40 := by
  have h := List.sum_le_card_nsmul (allBytes.map fun s => (entry freq s).toNat) (2 ^ 32 - 1) fun x hx => by
    obtain ⟨s, -, rfl⟩ := List.mem_map.mp hx
    have := (entry freq s).isLt
    omega
  rw [List.length_map, length_allBytes] at h
  unfold freqSum
  simp only [smul_eq_mul] at h
  omega

/-! ### The arena grows -/

@[simp] theorem arenaAt_append_self (arena : List Node) (x : Node) : arenaAt (arena ++ [x]) arena.length = x := by
  simp [arenaAt]

theorem arenaAt_append_lt {arena : List Node} {i : Nat} (x : Node) (h : i < arena.length) :
    arenaAt (arena ++ [x]) i = arenaAt arena i := by
  simp [arenaAt, List.getD, List.getElem?_append_left h]

theorem arenaAt_eq_getElem {arena : List Node} {i : Nat} (h : i < arena.length) : arenaAt arena i = arena[i] := by
  simp [arenaAt, List.getD, h]

theorem arenaAt_mem {arena : List Node} {i : Nat} (h : i < arena.length) : arenaAt arena i ∈ arena := by
  rw [arenaAt_eq_getElem h]; exact List.getElem_mem h

theorem arenaAt_prefix {l arena : List Node} {i : Nat} (h : l <+: arena) (hi : i < l.length) :
    arenaAt arena i = arenaAt l i := by
  obtain ⟨r, rfl⟩ := h
  simp [arenaAt, List.getD, List.getElem?_append_left hi]

/-! ### The invariant of the merge loop (R152) -/

/-- The two child indices of a node. -/
def childIndices (x : Node) : List Nat := [x.left.toNat, x.right.toNat]

/-- The child indices of the internal nodes, which are those from index `n` on. -/
def innerChildren (n : Nat) (arena : List Node) : List Nat :=
  (List.range' n (arena.length - n)).flatMap fun i => childIndices (arenaAt arena i)

/-- Node `i` merges two nodes before it. -/
structure IsMerge (arena : List Node) (i : Nat) : Prop where
  leaf : (arenaAt arena i).leaf = false
  sym : (arenaAt arena i).sym = 0
  left_lt : (arenaAt arena i).left.toNat < i
  right_lt : (arenaAt arena i).right.toNat < i
  freq : (arenaAt arena i).freq.toNat = (arenaAt arena (arenaAt arena i).left.toNat).freq.toNat +
    (arenaAt arena (arenaAt arena i).right.toNat).freq.toNat

/-- Of `n` leaves with the counts' sum `total`: every node is active or the child of exactly one internal node,
internal nodes merge earlier ones, and the frequencies of the active nodes sum to `total`. -/
structure MergeInv (n total : Nat) (active : List Nat) (arena : List Node) : Prop where
  size : arena.length + active.length = 2 * n
  start : n ≤ arena.length
  parents : (innerChildren n arena ++ active).Perm (List.range arena.length)
  merges : ∀ i, n ≤ i → i < arena.length → IsMerge arena i
  sum : (active.map fun i => (arenaAt arena i).freq.toNat).sum = total

theorem MergeInv.active_lt {n total : Nat} {active : List Nat} {arena : List Node} (h : MergeInv n total active arena)
    {j : Nat} (hj : j ∈ active) : j < arena.length :=
  List.mem_range.mp (h.parents.subset (List.mem_append_right _ hj))

/-- Before the first merge every node is an active leaf. -/
theorem mergeInv_leaves (freq : Vector Word 256) :
    MergeInv (leaves freq).length (freqSum freq) (List.range (leaves freq).length) (leaves freq) where
  size := by rw [List.length_range]; omega
  start := le_refl _
  parents := by simp [innerChildren]
  merges := fun i h₁ h₂ => absurd h₂ (by omega)
  sum := by
    rw [← sum_leaves]
    congr 1
    refine List.ext_getElem (by simp) fun i h₁ h₂ => ?_
    rw [List.length_map] at h₂
    simp [arenaAt_eq_getElem h₂]

theorem IsMerge.append {arena : List Node} {i : Nat} (h : IsMerge arena i) (x : Node) (hi : i < arena.length) :
    IsMerge (arena ++ [x]) i := by
  obtain ⟨hleaf, hsym, hl, hr, hf⟩ := h
  have e := arenaAt_append_lt x hi
  exact ⟨by rw [e, hleaf], by rw [e, hsym], by rwa [e], by rwa [e],
    by rw [e, arenaAt_append_lt x (hl.trans hi), arenaAt_append_lt x (hr.trans hi), hf]⟩

theorem innerChildren_append {n : Nat} {arena : List Node} (x : Node) (h : n ≤ arena.length) :
    innerChildren n (arena ++ [x]) = innerChildren n arena ++ childIndices x := by
  unfold innerChildren
  rw [List.length_append, List.length_singleton, Nat.sub_add_comm h, List.range'_concat, List.flatMap_append]
  congr 1
  · refine List.flatMap_congr fun i hi => ?_
    rw [List.mem_range'_1] at hi
    rw [arenaAt_append_lt x (by omega)]
  · simp [show n + (arena.length - n) = arena.length by omega]

/-- The node over two earlier nodes of a small enough tree merges them. -/
theorem isMerge_internalNode {arena : List Node} {a b : Nat} (ha : a < arena.length) (hb : b < arena.length)
    (hsize : arena.length < 512)
    (hsum : (arenaAt arena a).freq.toNat + (arenaAt arena b).freq.toNat < 2 ^ 40) :
    childIndices (internalNode arena a b) = [a, b] ∧
      (internalNode arena a b).freq.toNat = (arenaAt arena a).freq.toNat + (arenaAt arena b).freq.toNat ∧
      IsMerge (arena ++ [internalNode arena a b]) arena.length := by
  have hl : (internalNode arena a b).left.toNat = a := by simp [internalNode]; omega
  have hr : (internalNode arena a b).right.toNat = b := by simp [internalNode]; omega
  have hf : (internalNode arena a b).freq.toNat = (arenaAt arena a).freq.toNat + (arenaAt arena b).freq.toNat := by
    simp only [internalNode, BitVec.toNat_add]
    exact Nat.mod_eq_of_lt hsum
  refine ⟨by rw [childIndices, hl, hr], hf, ?_⟩
  constructor <;> rw [arenaAt_append_self]
  · rfl
  · rfl
  · rwa [hl]
  · rwa [hr]
  · rw [hl, hr, hf, arenaAt_append_lt _ ha, arenaAt_append_lt _ hb]

/-- A merge of two active nodes keeps the invariant. -/
theorem MergeInv.merge {n total a b : Nat} {active rest : List Nat} {arena : List Node}
    (h : MergeInv n total active arena) (hn : n ≤ 256) (htotal : total < 2 ^ 40) (hp : active.Perm (a :: b :: rest)) :
    MergeInv n total (rest ++ [arena.length]) (arena ++ [internalNode arena a b]) := by
  have ha : a < arena.length := h.active_lt (hp.mem_iff.mpr (by simp))
  have hb : b < arena.length := h.active_lt (hp.mem_iff.mpr (by simp))
  have hlen := hp.length_eq
  have hsize := h.size
  have hsum := h.sum
  rw [(hp.map _).sum_eq] at hsum
  simp only [List.length_cons] at hlen
  simp only [List.map_cons, List.sum_cons] at hsum
  obtain ⟨hchildren, hfreq, hmerge⟩ := isMerge_internalNode ha hb (by omega) (by omega)
  exact
    { size := by simp only [List.length_append, List.length_singleton]; omega
      start := by rw [List.length_append]; exact h.start.trans (Nat.le_add_right _ _)
      parents := by
        rw [innerChildren_append _ h.start, hchildren, List.length_append, List.length_singleton, List.range_succ,
          ← List.append_assoc]
        refine List.Perm.append_right _ ?_
        rw [List.append_assoc]
        exact ((List.Perm.refl _).append hp.symm).trans h.parents
      merges := fun i h₁ h₂ => by
        rw [List.length_append, List.length_singleton] at h₂
        rcases Nat.lt_succ_iff_lt_or_eq.mp h₂ with hi | rfl
        · exact (h.merges i h₁ hi).append _ hi
        · exact hmerge
      sum := by
        have hrest : ∀ j ∈ rest, arenaAt (arena ++ [internalNode arena a b]) j = arenaAt arena j := fun j hj =>
          arenaAt_append_lt _ (h.active_lt (hp.mem_iff.mpr (by simp [hj])))
        rw [List.map_append, List.sum_append, List.map_congr_left fun j hj => by rw [hrest j hj]]
        simp only [List.map_cons, List.map_nil, List.sum_singleton, arenaAt_append_self, hfreq]
        omega }

/-- The loop keeps the invariant and ends with at most one active node. -/
theorem MergeInv.mergeLoop {n total fuel : Nat} {active : List Nat} {arena : List Node}
    (h : MergeInv n total active arena) (hn : n ≤ 256) (htotal : total < 2 ^ 40) (hfuel : active.length ≤ fuel + 1) :
    ∃ active', MergeInv n total active' (mergeLoop fuel active arena) ∧ active'.length ≤ 1 := by
  induction fuel generalizing active arena with
  | zero => exact ⟨active, h, by simpa using hfuel⟩
  | succ k ih =>
    rw [Machine.mergeLoop]
    cases h₁ : takeMin arena active with
    | none => exact ⟨active, h, by simp [takeMin_none.mp h₁]⟩
    | some p =>
      obtain ⟨a, active₁⟩ := p
      obtain ⟨ha, rfl⟩ := takeMin_some h₁
      simp only
      cases h₂ : takeMin arena (active.erase a) with
      | none =>
        have := takeMin_length h₁
        exact ⟨active, h, by simp_all [takeMin_none.mp h₂]⟩
      | some q =>
        obtain ⟨b, active₂⟩ := q
        obtain ⟨hb, rfl⟩ := takeMin_some h₂
        have l₁ := takeMin_length h₁
        have l₂ := takeMin_length h₂
        have hp : active.Perm (a :: b :: (active.erase a).erase b) :=
          (List.perm_cons_erase ha).trans ((List.perm_cons_erase hb).cons a)
        exact ih (h.merge hn htotal hp) (by simp only [List.length_append, List.length_singleton]; omega)

/-- The finished tree: one node is active, the last one. -/
theorem mergeInv_buildArena {freq : Vector Word 256} (h : leaves freq ≠ []) :
    MergeInv (leaves freq).length (freqSum freq) [2 * (leaves freq).length - 2] (buildArena freq) := by
  obtain ⟨active, hinv, hone⟩ := (mergeInv_leaves freq).mergeLoop (length_leaves_le freq) (freqSum_lt freq)
    (fuel := (leaves freq).length) (by simp)
  change MergeInv _ _ active (buildArena freq) at hinv
  have hlen := length_buildArena h
  have hsize := hinv.size
  have hlast : 2 * (leaves freq).length - 2 ∈ innerChildren (leaves freq).length (buildArena freq) ++ active :=
    hinv.parents.mem_iff.mpr (List.mem_range.mpr (by omega))
  rcases List.mem_append.mp hlast with hchild | hact
  · simp only [innerChildren, childIndices, List.mem_flatMap, List.mem_range'_1, List.mem_cons, List.not_mem_nil,
      or_false] at hchild
    obtain ⟨i, hi, hj⟩ := hchild
    have hm := hinv.merges i hi.1 (by omega)
    have := hm.left_lt
    have := hm.right_lt
    omega
  · obtain ⟨r, rfl⟩ := List.length_eq_one_iff.mp (show active.length = 1 by omega)
    rw [List.mem_singleton.mp hact]
    exact hinv

/-! ### The shape of a valid tree (10_state.md R47) -/

theorem MergeInv.nodup_innerChildren {n total : Nat} {active : List Nat} {arena : List Node}
    (h : MergeInv n total active arena) : (innerChildren n arena).Nodup :=
  (h.parents.nodup_iff.mpr List.nodup_range).of_append_left

/-- The two children of a node differ. -/
theorem MergeInv.left_ne_right {n total : Nat} {active : List Nat} {arena : List Node}
    (h : MergeInv n total active arena) {i : Nat} (h₁ : n ≤ i) (h₂ : i < arena.length) :
    (arenaAt arena i).left ≠ (arenaAt arena i).right := by
  have hi := (List.nodup_flatMap.mp h.nodup_innerChildren).1 i (List.mem_range'_1.mpr ⟨h₁, by omega⟩)
  intro heq
  simp [childIndices, heq] at hi

/-- A node that is not active is the child of exactly one internal node. -/
theorem MergeInv.exists_unique_parent {n total : Nat} {active : List Nat} {arena : List Node}
    (h : MergeInv n total active arena) {j : Nat} (hj : j < arena.length) (hact : j ∉ active) :
    ∃ i, (n ≤ i ∧ i < arena.length ∧ j ∈ childIndices (arenaAt arena i)) ∧
      ∀ i', (n ≤ i' ∧ i' < arena.length ∧ j ∈ childIndices (arenaAt arena i')) → i' = i := by
  have hstart := h.start
  have hmem : j ∈ innerChildren n arena :=
    (List.mem_append.mp (h.parents.mem_iff.mpr (List.mem_range.mpr hj))).resolve_right hact
  obtain ⟨i, hi, hji⟩ := List.mem_flatMap.mp hmem
  have hdisjoint := (List.nodup_flatMap.mp h.nodup_innerChildren).2
  rw [List.mem_range'_1] at hi
  refine ⟨i, ⟨hi.1, by omega, hji⟩, fun i' ⟨h₁, h₂, hji'⟩ => ?_⟩
  by_contra hne
  have : Std.Symm (Function.onFun List.Disjoint fun i => childIndices (arenaAt arena i)) := ⟨fun _ _ hd => hd.symm⟩
  exact hdisjoint.forall (List.mem_range'_1.mpr ⟨h₁, by omega⟩) (List.mem_range'_1.mpr hi) hne hji' hji

/-- In a valid tree the slots hold a finished tree of `n` leaves over the FREQ table. -/
theorem treeInv_slots {b : Block} (hv : b.treeValid = true) (h : treeInv b) :
    let n := (leaves b.freq).length
    let arena := buildArena b.freq
    1 ≤ n ∧ n ≤ 256 ∧ arena.length = 2 * n - 1 ∧ b.nleaf.toNat = n ∧ b.nnode.toNat = 2 * n - 1 ∧
      b.root.toNat = 2 * n - 2 ∧ (∀ i, i < 2 * n - 1 → slot b i = arenaAt arena i) := by
  obtain ⟨-, hne, hnleaf, hnnode, hroot, hslots⟩ := h hv
  have hpos := List.length_pos_of_ne_nil hne
  have hle := length_leaves_le b.freq
  have hlen : (buildArena b.freq).length = 2 * (leaves b.freq).length - 1 := by
    have := length_buildArena hne
    omega
  refine ⟨hpos, hle, hlen, ?_, ?_, ?_, fun i hi => hslots i (by omega)⟩
  · rw [hnleaf, BitVec.toNat_ofNat]; omega
  · rw [hnnode, hlen, BitVec.toNat_ofNat]; omega
  · rw [hroot, hlen, BitVec.toNat_ofNat]; omega

/-- Settles O13: the slots are the arena of the merge loop, whose invariant gives every clause. -/
theorem validTreeHasHuffmanShape : Obligations.ValidTreeHasHuffmanShape := by
  intro b hv ht
  obtain ⟨-, hne, -⟩ := ht hv
  obtain ⟨hpos, hle, hlen, hnleaf, hnnode, hroot, hslot⟩ := treeInv_slots hv ht
  have inv := mergeInv_buildArena hne
  have hprefix : leaves b.freq <+: buildArena b.freq := mergeLoop_prefix _ _ _
  set n := (leaves b.freq).length
  set arena := buildArena b.freq
  have hleaf : ∀ i, i < n → slot b i = arenaAt (leaves b.freq) i := fun i hi => by
    rw [hslot i (by omega), arenaAt_prefix hprefix hi]
  refine ⟨n, hnleaf, hpos, hle, hnnode, hroot, fun i hi => ?_, fun i j hij hj => ?_, fun i h₁ h₂ => ?_,
    fun j hj => ?_, ?_⟩
  · obtain ⟨kleaf, kfreq, kcounted, kleft, kright⟩ := isLeafOf_of_mem (arenaAt_mem (arena := leaves b.freq) hi)
    rw [hleaf i hi]
    exact ⟨kleaf, kfreq, kcounted, kleft, kright⟩
  · rw [hleaf i (hij.trans hj), hleaf j hj, arenaAt_eq_getElem (hij.trans hj), arenaAt_eq_getElem hj]
    exact List.pairwise_iff_getElem.mp (leaves_ascending b.freq) i j _ _ hij
  · have m := inv.merges i h₁ (by omega)
    have hl := m.left_lt
    have hr := m.right_lt
    rw [hslot i h₂, hslot _ (by omega), hslot _ (by omega)]
    exact ⟨m.leaf, m.sym, hl, hr, inv.left_ne_right h₁ (by omega), m.freq⟩
  · obtain ⟨i, ⟨h₁, h₂, hji⟩, huniq⟩ := inv.exists_unique_parent (j := j) (by omega) (by simp; omega)
    have child : ∀ k, k < 2 * n - 1 → (((slot b k).left.toNat = j ∨ (slot b k).right.toNat = j) ↔
        j ∈ childIndices (arenaAt arena k)) := fun k hk => by
      rw [hslot k hk]; simp [childIndices, eq_comm]
    refine ⟨i, ⟨h₁, by omega, (child i (by omega)).mpr hji⟩, fun i' ⟨k₁, k₂, hc⟩ => ?_⟩
    exact huniq i' ⟨k₁, by omega, (child i' k₂).mp hc⟩
  · rw [hslot _ (by omega)]
    simpa using inv.sum

end Sys2Proof.Machine
end

section
/-! SUPPORT. The register window: what reads return and writes do, place by place (10_state.md R22 to R58). -/

namespace Sys2Proof.Machine

/-! ### Reads and writes at the port -/

/-- A read of a place whose value is defined answers that value (R22, R271). -/
theorem regAccess_reads {s : State} {o : Offset} {l : Loc} (ho : o.toNat % 4 = 0) (hl : locate o = l)
    (h : busy s.block = false ∨ l.busyAny = false) (v : Word) :
    regAccess ⟨o, .read, 32, v⟩ s = .next (answer (.data (locValue s.block l)) s) := by
  subst hl
  rw [regAccess_read ho, readLoc_defined h]

/-- The same, as the statements put it. -/
theorem exists_reads {s : State} {o : Offset} {l : Loc} (ho : o.toNat % 4 = 0) (hl : locate o = l)
    (h : busy s.block = false ∨ l.busyAny = false) (v : Word) :
    ∃ t, regAccess ⟨o, .read, 32, v⟩ s = .next t ∧ t.replies = .data (locValue s.block l) :: s.replies :=
  ⟨_, regAccess_reads ho hl h v, rfl⟩

/-- The same, with the value as a number. -/
theorem exists_reads_toNat {s : State} {o : Offset} {l : Loc} {n : Nat} (ho : o.toNat % 4 = 0) (hl : locate o = l)
    (h : busy s.block = false ∨ l.busyAny = false) (hn : (locValue s.block l).toNat = n) :
    ∃ t w, regAccess ⟨o, .read, 32, 0⟩ s = .next t ∧ t.replies = .data w :: s.replies ∧ w.toNat = n :=
  ⟨_, _, regAccess_reads ho hl h 0, rfl, hn⟩

theorem aligned_ofNat {n : Nat} (h : n % 4 = 0) : (BitVec.ofNat 15 n).toNat % 4 = 0 := by
  rw [BitVec.toNat_ofNat]; omega

/-- A write of a place that is not CMD (R71). -/
theorem regAccess_writes {o : Offset} {l : Loc} (ho : o.toNat % 4 = 0) (hl : locate o = l) (hc : l ≠ .cmd) (v : Word)
    (s : State) : regAccess ⟨o, .write, 32, v⟩ s = .next (answer .done (writeLoc l v s)) := by
  subst hl
  exact regAccess_write ho hc v s

/-- An accepted write of an operand or of FREQ (R30 to R34, R41). -/
theorem regAccess_writes_operand {s : State} {o : Offset} {l : Loc} (ho : o.toNat % 4 = 0) (hl : locate o = l)
    (hs : l ∉ [.ctrl, .status, .irqEn, .cmd]) (h : (busy s.block && l.busyDrop) = false) (v : Word) :
    regAccess ⟨o, .write, 32, v⟩ s = .next (answer .done { s with block := writeOperand l v s.block }) := by
  simp only [List.mem_cons, List.not_mem_nil, or_false, not_or] at hs
  obtain ⟨hctrl, hstatus, hirq, hcmd⟩ := hs
  rw [regAccess_writes ho hl hcmd, writeLoc_operand hctrl hstatus hirq hcmd h]

/-! ### Which place an offset names -/

/-- Only 0x000 names ID (R23). -/
theorem locate_eq_id {o : Offset} (h : locate o = .id) : o = 0x000#15 := by
  unfold locate locateLow at h
  split_ifs at h
  split at h
  case h_1 ho => exact BitVec.eq_of_toNat_eq ho
  all_goals cases h

theorem locateLow_above {n : Nat} (h : 0x058 ≤ n) : locateLow n = .reserved := by
  unfold locateLow
  split
  case h_20 => rfl
  all_goals omega

/-- The reserved offsets (R58). -/
theorem locate_reserved {o : Offset} (h : o = 0x01C#15 ∨ o = 0x038#15 ∨ o = 0x03C#15 ∨
    (0x058 ≤ o.toNat ∧ o.toNat < 0x400) ∨ (0x800 ≤ o.toNat ∧ o.toNat < 0x2000)) : locate o = .reserved := by
  rcases h with rfl | rfl | rfl | ⟨h₁, h₂⟩ | ⟨h₁, h₂⟩
  · rfl
  · rfl
  · rfl
  · rw [locate_low h₂, locateLow_above h₁]
  · exact locate_hole h₁ h₂

/-- The NODE slot an offset of the window lies in (R45). -/
theorem node_index {o : Offset} (h₁ : 0x2000 ≤ o.toNat) (h₂ : o.toNat < 0x4000) :
    (o.extractLsb' 4 9).toNat = (o.toNat - 0x2000) / 16 := by
  rw [BitVec.extractLsb'_toNat, Nat.shiftRight_eq_div_pow]
  omega

/-- The registers and windows that read an unspecified value while BUSY (R51, R271). -/
theorem locate_busyAny {o : Offset}
    (h : o ∈ [0x030#15, 0x034#15, 0x040#15, 0x044#15, 0x048#15, 0x04C#15, 0x050#15, 0x054#15] ∨
      (0x400 ≤ o.toNat ∧ o.toNat < 0x800) ∨ (0x2000 ≤ o.toNat ∧ o.toNat < 0x3FF0) ∨ 0x4000 ≤ o.toNat) :
    (locate o).busyAny = true := by
  have low : ([0x030#15, 0x034#15, 0x040#15, 0x044#15, 0x048#15, 0x04C#15, 0x050#15, 0x054#15].all fun o =>
      (locate o).busyAny) = true := by decide
  rcases h with h | ⟨h₁, h₂⟩ | ⟨h₁, h₂⟩ | h
  · exact List.all_eq_true.mp low o h
  · rw [locate_freq h₁ h₂]; rfl
  · rw [locate_node h₁ (by omega)]
    refine decide_eq_true fun heq => ?_
    have := node_index h₁ (by omega)
    rw [heq] at this
    simp at this
    omega
  · rw [locate_code h]; rfl

/-! ### STATUS, IRQ_EN and ERR_CODE as words -/

theorem statusWord_eq (b : Block) : statusWord b = BitVec.ofNat 32 ((busy b).toNat + 2 * b.done.toNat +
    4 * b.err.toNat + 8 * b.ovr.toNat + 16 * b.treeValid.toNat + 32 * b.codeValid.toNat) := by
  unfold statusWord
  generalize busy b = y, b.done = d, b.err = e, b.ovr = o, b.treeValid = t, b.codeValid = c
  revert y d e o t c
  decide

theorem irqEnWord_eq (b : Block) : irqEnWord b = BitVec.ofNat 32 (b.doneIe.toNat + 2 * b.errIe.toNat) := by
  unfold irqEnWord
  generalize b.doneIe = d, b.errIe = e
  revert d e
  decide

theorem statusWord_bits (b : Block) :
    (statusWord b).getLsbD 0 = busy b ∧ (statusWord b).getLsbD 1 = b.done ∧ (statusWord b).getLsbD 2 = b.err ∧
      (statusWord b).getLsbD 3 = b.ovr ∧ (statusWord b).getLsbD 4 = b.treeValid ∧
      (statusWord b).getLsbD 5 = b.codeValid ∧ (statusWord b).extractLsb' 6 26 = 0#26 := by
  unfold statusWord
  generalize busy b = y, b.done = d, b.err = e, b.ovr = o, b.treeValid = t, b.codeValid = c
  revert y d e o t c
  decide

/-! ### The registers -/

/-- Settles O39: each place that is not busy-any reads its value, and each busy-any place draws one while BUSY. -/
theorem readsOfDefinedRegisters : Obligations.ReadsOfDefinedRegisters := by
  intro s reads
  have at_any_time : ∀ {o : Offset} {l : Loc}, o.toNat % 4 = 0 → locate o = l → l.busyAny = false →
      reads o (locValue s.block l) := fun ho hl h => exists_reads ho hl (.inr h) 0
  refine ⟨at_any_time (l := .id) rfl rfl rfl, at_any_time (l := .ctrl) rfl rfl rfl,
    at_any_time (l := .cmd) rfl rfl rfl, ?_, ?_, ?_, at_any_time (l := .errInfo) rfl rfl rfl,
    at_any_time (l := .srcAddr) rfl rfl rfl, at_any_time (l := .srcLen) rfl rfl rfl,
    at_any_time (l := .dstAddr) rfl rfl rfl, at_any_time (l := .dstCap) rfl rfl rfl, fun hb o ho h => ?_⟩
  · rw [← statusWord_eq]; exact at_any_time (l := .status) rfl rfl rfl
  · rw [← irqEnWord_eq]; exact at_any_time (l := .irqEn) rfl rfl rfl
  · have h := at_any_time (o := 0x014#15) (l := .errCode) rfl rfl rfl
    rw [locValue] at h
    cases hc : s.block.errCode <;> rw [hc] at h <;> exact h
  · exact ⟨_, by rw [regAccess_read ho, readLoc_free hb (locate_busyAny h)], rfl, rfl⟩

/-- Settles O40: STATUS bit by bit, and its write through `writeStatus`. -/
theorem statusBitsAndWriteOneToClear : Obligations.StatusBitsAndWriteOneToClear := by
  intro s v
  refine ⟨statusWord_bits s.block, ?_⟩
  rw [regAccess_writes rfl (l := .status) rfl (by simp), writeLoc_status]
  rfl

/-- An operand register written while Idle reads back (R30 to R34, R275). -/
theorem operand_reads_back {s : State} (hi : s.block.engine = .idle) {o : Offset} {l : Loc} (ho : o.toNat % 4 = 0)
    (hl : locate o = l) (hop : l ∈ [.srcAddr, .srcLen, .dstAddr, .dstCap, .totalBits]) (v : Word) :
    ∃ t u, regAccess ⟨o, .write, 32, v⟩ s = .next t ∧ regAccess ⟨o, .read, 32, 0⟩ t = .next u ∧
      u.replies = .data v :: .done :: s.replies ∧ t.mem = s.mem ∧ t.block = writeOperand l v s.block := by
  have hspecial : l ∉ [.ctrl, .status, .irqEn, .cmd] := by revert hop; cases l <;> simp
  have hbusy : busy (writeOperand l v s.block) = busy s.block := by
    rcases writeOperand_cases l v s.block with ⟨k, -, hw⟩ | ⟨sa, sl, da, dc, tb, hw⟩ <;> rw [hw] <;> rfl
  have hvalue : locValue (writeOperand l v s.block) l = v := by
    simp only [List.mem_cons, List.not_mem_nil, or_false] at hop
    rcases hop with rfl | rfl | rfl | rfl | rfl <;> rfl
  refine ⟨_, _, regAccess_writes_operand ho hl hspecial (by simp [hi]) v,
    regAccess_reads ho hl (.inl (hbusy.trans (busy_idle hi))) 0, ?_, rfl, rfl⟩
  simp [hvalue]

/-- Settles O43: the five operand registers through `operand_reads_back`, the result registers by their values. -/
theorem operandsAndResultsReadBack : Obligations.OperandsAndResultsReadBack := by
  intro s hi
  have hidle : busy s.block = false := busy_idle hi
  refine ⟨fun o v ho => ?_, ?_⟩
  · simp only [List.mem_cons, List.not_mem_nil, or_false] at ho
    rcases ho with rfl | rfl | rfl | rfl | rfl
    · exact operand_reads_back hi rfl (l := .srcAddr) rfl (by simp) v
    · exact operand_reads_back hi rfl (l := .srcLen) rfl (by simp) v
    · exact operand_reads_back hi rfl (l := .dstAddr) rfl (by simp) v
    · exact operand_reads_back hi rfl (l := .dstCap) rfl (by simp) v
    · exact operand_reads_back hi rfl (l := .totalBits) rfl (by simp) v
  · refine ⟨?_, ?_, ?_, ?_⟩
    · exact exists_reads_toNat rfl (l := .totalBits) rfl (.inl hidle) rfl
    · exact exists_reads_toNat rfl (l := .outLen) rfl (.inl hidle) rfl
    · exact exists_reads_toNat rfl (l := .decNode) rfl (.inl hidle) (by simp [locValue]; omega)
    · exact exists_reads_toNat rfl (l := .decBits) rfl (.inl hidle) rfl

/-- Settles O47: a reserved place reads 0 and keeps nothing of a write. -/
theorem reservedOffsetsReadZero : Obligations.ReservedOffsetsReadZero := by
  intro s o v ho h
  have hl := locate_reserved h
  exact ⟨regAccess_reads ho hl (.inr rfl) v, regAccess_writes_operand ho hl (by simp) (by simp [Loc.busyDrop]) v⟩

/-- Settles O49: a CTRL write is a reset exactly when bit 0 is 1. -/
theorem softResetAtAnyTime : Obligations.SoftResetAtAnyTime := by
  intro s v
  rw [regAccess_writes rfl (l := .ctrl) rfl (by simp), writeLoc_ctrl]
  refine ⟨fun h => ⟨_, rfl, ?_⟩, fun h => ?_, ⟨_, rfl, rfl⟩⟩
  · rw [if_pos h]; rfl
  · rw [if_neg (by rw [h]; simp)]; rfl

/-- After reset every place but ID holds 0 (R22, R260). -/
theorem locValue_reset {l : Loc} (h : l ≠ .id) : locValue Block.reset l = 0 := by
  cases l with
  | id => exact absurd rfl h
  | freq k => exact entry_replicate _ _
  | node i k => simp [locValue, nodeWindow, Block.reset]
  | code k j => simp [locValue, codeWindow, Block.reset]
  | _ => rfl

/-- Settles O48: only offset 0 names ID, and every other place holds 0 after reset. -/
theorem resetValuesRead : Obligations.ResetValuesRead := by
  refine ⟨rfl, rfl, fun b => entry_replicate _ _, fun o ho => ?_⟩
  refine ⟨_, regAccess_reads ho rfl (.inl rfl) 0, ?_⟩
  by_cases h : o = 0
  · subst h; rfl
  · rw [if_neg h, answer_replies]
    change [Reply.data (locValue Block.reset (locate o))] = _
    rw [locValue_reset fun hl => h (locate_eq_id hl)]

/-- Settles O57: the offset of an address in the window is its distance from BLOCK_BASE. -/
theorem windowIsMappedAtBlockBase : Obligations.WindowIsMappedAtBlockBase := by
  intro s addr k width v
  refine ⟨fun o h => ?_, fun h => ?_⟩
  · have hw : windowOffset s.platform addr = some o := by
      unfold windowOffset
      rw [if_pos ⟨by omega, by rw [h, Config.windowSize]; omega⟩, h, Nat.add_sub_cancel_left, BitVec.ofNat_toNat,
        BitVec.setWidth_eq]
    simp only [runEvent, hw]
  · have hw : windowOffset s.platform addr = none := by
      unfold windowOffset
      rw [if_neg (by rw [Config.windowSize]; omega)]
    simp only [runEvent, hw]

end Sys2Proof.Machine
end

section
/-! SUPPORT. The three table windows: FREQ (10_state.md R41), NODE (R45, R46) and CODE (R49, R50). -/

namespace Sys2Proof.Machine

/-! ### The FREQ window -/

theorem freq_offset_aligned (k : Byte) : (0x400#15 + 4#15 * k.zeroExtend 15).toNat % 4 = 0 := by
  have := k.isLt
  simp only [BitVec.toNat_add, BitVec.toNat_mul, BitVec.toNat_ofNat, BitVec.toNat_setWidth]
  omega

/-- Settles O42: the offset names FREQ[k], which is busy-any and busy-drop, and its write clears both flags. -/
theorem freqWindowReadsAndWrites : Obligations.FreqWindowReadsAndWrites := by
  intro s k v o
  have ho : o.toNat % 4 = 0 := freq_offset_aligned k
  have hl : locate o = .freq k := locate_freq_offset k
  refine ⟨fun hi => ⟨exists_reads ho hl (.inl (busy_idle hi)) v,
    ⟨_, regAccess_writes_operand ho hl (by simp) (by simp [hi]) v, ?_, ?_, rfl, rfl⟩⟩, fun hb => ?_⟩
  · exact entry_setEntry_same _ _ _
  · exact fun j hj => (entry_setEntry _ _ _ _).trans (if_neg hj)
  · exact ⟨_, regAccess_writes ho hl (by simp) v s, by rw [writeLoc_dropped hb rfl]; rfl⟩

/-! ### What the gates hide -/

/-- Settles O44: the value of each gated place is 0 where its gate is closed. -/
theorem invalidTablesReadZero : Obligations.InvalidTablesReadZero := by
  intro s o hi ho readsZero
  have zero : ∀ {l : Loc}, locate o = l → locValue s.block l = 0 → readsZero := fun hl hv => by
    have h := exists_reads ho hl (.inl (busy_idle hi)) 0
    rwa [hv] at h
  refine ⟨fun hv h => ?_, fun hv h₁ h₂ hn => ?_, fun hv h => ?_⟩
  · rcases h with ⟨h₁, h₂⟩ | rfl | rfl | rfl
    · exact zero (locate_node h₁ h₂) (by simp [locValue, nodeWindow, hv])
    · exact zero (l := .nleaf) rfl (by simp [locValue, hv])
    · exact zero (l := .nnode) rfl (by simp [locValue, hv])
    · exact zero (l := .root) rfl (by simp [locValue, rootReg, hv])
  · refine zero (locate_node h₁ h₂) ?_
    rw [locValue, nodeWindow, if_neg]
    rw [node_index h₁ h₂]
    omega
  · rcases h with h | rfl
    · exact zero (locate_code h) (by simp [locValue, codeWindow, hv])
    · exact zero (l := .maxLen) rfl (by simp [locValue, hv])

/-! ### The NODE window -/

/-- Concatenation as arithmetic. -/
theorem toNat_append_eq_add {n m : Nat} (x : BitVec n) (y : BitVec m) :
    (x ++ y).toNat = 2 ^ m * x.toNat + y.toNat := by
  rw [BitVec.toNat_append, ← Nat.shiftLeft_add_eq_or_of_lt y.isLt, Nat.shiftLeft_eq, Nat.mul_comm]

theorem nodeWord_zero (n : Node) : (nodeWord n 0#2).toNat = 2 ^ 31 * n.leaf.toNat + 2 ^ 16 * n.sym.toNat := by
  change (BitVec.ofBool n.leaf ++ 0#7 ++ n.sym ++ 0#16).toNat = _
  simp only [toNat_append_eq_add, BitVec.toNat_ofBool, BitVec.toNat_ofNat]
  omega

theorem nodeWord_one (n : Node) : (nodeWord n 1#2).toNat = n.left.toNat + 2 ^ 16 * n.right.toNat := by
  change (0#7 ++ n.right ++ 0#7 ++ n.left).toNat = _
  simp only [toNat_append_eq_add, BitVec.toNat_ofNat]
  omega

theorem nodeWord_two (n : Node) : (nodeWord n 2#2).toNat = n.freq.toNat % 2 ^ 32 := by
  change (n.freq.extractLsb' 0 32).toNat = _
  rw [BitVec.extractLsb'_toNat, Nat.shiftRight_zero]

theorem nodeWord_three (n : Node) : (nodeWord n 3#2).toNat = n.freq.toNat / 2 ^ 32 := by
  have := n.freq.isLt
  change (0#24 ++ n.freq.extractLsb' 32 8).toNat = _
  rw [toNat_append_eq_add, BitVec.extractLsb'_toNat, Nat.shiftRight_eq_div_pow, BitVec.toNat_ofNat]
  omega

/-- A word of a slot of the tree, read while Idle with TREE_VALID (R45). -/
theorem reads_slot {s : State} (hi : s.block.engine = .idle) (hv : s.block.treeValid = true) {i k : Nat}
    (h : i < s.block.nnode.toNat) (hk : k < 4) {n : Nat}
    (hn : (nodeWord (slot s.block i) (BitVec.ofNat 2 k)).toNat = n) :
    ∃ t w, regAccess ⟨BitVec.ofNat 15 (0x2000 + 16 * i + 4 * k), .read, 32, 0⟩ s = .next t ∧
      t.replies = .data w :: s.replies ∧ w.toNat = n := by
  have hi512 : i < 512 := h.trans s.block.nnode.isLt
  refine exists_reads_toNat (aligned_ofNat (by omega)) (locate_node_offset hi512 hk) (.inl (busy_idle hi)) ?_
  rw [locValue, nodeWindow, if_pos ⟨hv, by rw [BitVec.toNat_ofNat]; omega⟩]
  exact hn

/-- Slot 511 is no node: it reads 0 under every gate, BUSY or not (R45; log 25). -/
theorem nodeWindow_no_slot (b : Block) (k : BitVec 2) : nodeWindow b 511#9 k = 0 := by
  have := b.nnode.isLt
  rw [nodeWindow, if_neg]
  rintro ⟨-, h⟩
  simp at h
  omega

/-- Settles O45: each register and word by its offset, the words of a node as sums of their fields. -/
theorem nodeWindowLayout : Obligations.NodeWindowLayout := by
  intro s reads
  refine ⟨fun hi hv => ⟨?_, ?_, ?_, fun i h => ⟨?_, ?_, ?_, ?_⟩⟩, fun k hk => ?_⟩
  · exact exists_reads_toNat rfl (l := .nleaf) rfl (.inl (busy_idle hi)) (by simp [locValue, hv]; omega)
  · exact exists_reads_toNat rfl (l := .nnode) rfl (.inl (busy_idle hi)) (by simp [locValue, hv]; omega)
  · exact exists_reads_toNat rfl (l := .root) rfl (.inl (busy_idle hi)) (by simp [locValue, rootReg, hv]; omega)
  · exact reads_slot hi hv h (k := 0) (by omega) (nodeWord_zero _)
  · exact reads_slot hi hv h (k := 1) (by omega) (nodeWord_one _)
  · exact reads_slot hi hv h (k := 2) (by omega) (nodeWord_two _)
  · exact reads_slot hi hv h (k := 3) (by omega) (nodeWord_three _)
  · refine exists_reads_toNat (aligned_ofNat (by omega)) (locate_node_offset (i := 511) (by omega) hk) (.inr rfl) ?_
    rw [locValue, nodeWindow_no_slot]
    rfl

/-! ### The CODE window -/

theorem codeWord_len (c : Code) : (codeWord c 0#4).toNat = c.len.toNat := by
  change (c.len.zeroExtend 32).toNat = _
  rw [BitVec.toNat_setWidth]
  omega

theorem codeWord_val (c : Code) {k : Nat} (h₁ : 1 ≤ k) (h₂ : k ≤ 8) :
    (codeWord c (BitVec.ofNat 4 k)).toNat = c.val.toNat / 2 ^ (32 * (k - 1)) % 2 ^ 32 := by
  have hk : (BitVec.ofNat 4 k).toNat = k := by rw [BitVec.toNat_ofNat]; omega
  rw [codeWord, hk, if_neg (by omega), if_pos h₂, BitVec.extractLsb'_toNat, Nat.shiftRight_eq_div_pow]

theorem codeWord_beyond (c : Code) {k : Nat} (h₁ : 9 ≤ k) (h₂ : k ≤ 15) :
    (codeWord c (BitVec.ofNat 4 k)).toNat = 0 := by
  have hk : (BitVec.ofNat 4 k).toNat = k := by rw [BitVec.toNat_ofNat]; omega
  rw [codeWord, hk, if_neg (by omega), if_neg (by omega)]
  rfl

/-- A word of a CODE entry, read while Idle with CODE_VALID (R49). -/
theorem reads_code {s : State} (hi : s.block.engine = .idle) (hv : s.block.codeValid = true) (b : Byte) {k : Nat}
    (hk : k < 16) {n : Nat} (hn : (codeWord (entry s.block.code b) (BitVec.ofNat 4 k)).toNat = n) :
    ∃ t w, regAccess ⟨BitVec.ofNat 15 (0x4000 + 64 * b.toNat + 4 * k), .read, 32, 0⟩ s = .next t ∧
      t.replies = .data w :: s.replies ∧ w.toNat = n := by
  refine exists_reads_toNat (aligned_ofNat (by omega)) (locate_code_offset b.isLt hk) (.inl (busy_idle hi)) ?_
  rw [locValue, codeWindow, if_pos hv, BitVec.ofNat_toNat, BitVec.setWidth_eq]
  exact hn

/-- Settles O46: MAX_LEN, and the words of an entry by their offsets. -/
theorem codeWindowLayout : Obligations.CodeWindowLayout := by
  intro s b hi hv reads
  refine ⟨?_, ?_, fun k h₁ h₂ => ?_, fun k h₁ h₂ => ?_⟩
  · exact exists_reads_toNat rfl (l := .maxLen) rfl (.inl (busy_idle hi)) (by simp [locValue, hv]; omega)
  · exact reads_code hi hv b (k := 0) (by omega) (codeWord_len _)
  · exact reads_code hi hv b (by omega) (codeWord_val _ h₁ h₂)
  · exact reads_code hi hv b (by omega) (codeWord_beyond _ h₁ h₂)

end Sys2Proof.Machine
end

section
/-! SUPPORT. The host-side artifact: bytes of its words and entries, and parsing them back (20_memory.md R95 to R103). -/

namespace Sys2Proof.Machine

/-! ### Words and bytes (R73, R96) -/

@[simp] theorem length_wordBytes (w : Word) : (wordBytes w).length = 4 := rfl

theorem toNat_wordOfBytes (b0 b1 b2 b3 : Byte) : (wordOfBytes b0 b1 b2 b3).toNat =
    b0.toNat + 256 * b1.toNat + 65536 * b2.toNat + 16777216 * b3.toNat := by
  simp only [wordOfBytes, BitVec.toNat_append]
  rw [← Nat.shiftLeft_add_eq_or_of_lt b2.isLt, ← Nat.shiftLeft_add_eq_or_of_lt b1.isLt,
    ← Nat.shiftLeft_add_eq_or_of_lt b0.isLt]
  simp only [Nat.shiftLeft_eq]
  omega

theorem getD_wordBytes (w : Word) {k : Nat} (hk : k < 4) : (wordBytes w).getD k 0 = wordByte w k := by
  interval_cases k <;> rfl

theorem getLsbD_wordByte (w : Word) (k : Nat) {j : Nat} (hj : j < 8) :
    (wordByte w k).getLsbD j = w.getLsbD (8 * k + j) := by
  simp [wordByte, hj]

/-- Settles O60: the word as a number, and byte `k` of a word bit by bit. -/
theorem wordsAreLittleEndian : Obligations.WordsAreLittleEndian :=
  ⟨toNat_wordOfBytes, fun w k _ hk hj => by rw [getD_wordBytes w hk, getLsbD_wordByte w k hj]⟩

/-! ### The size of an artifact (R103) -/

theorem length_flatMap_entryBytes (es : List (Byte × Word)) : (es.flatMap entryBytes).length = 5 * es.length := by
  induction es with
  | nil => rfl
  | cons e es ih =>
    simp only [List.flatMap_cons, List.length_append, ih, entryBytes, List.length_cons, length_wordBytes]
    omega

/-- What well-formedness says, part by part (R95, R98, R99). -/
theorem Artifact.wf_iff {a : Artifact} : a.wf = true ↔
    a.name.length < Config.spaceEnd ∧ 1 ≤ a.entries.length ∧ a.entries.length ≤ 256 ∧
      entriesWf 0 a.entries = true ∧ a.body.length = ceilDiv8 a.totalBits.toNat := by
  simp [Artifact.wf, and_assoc]

/-- Settles O59: the lengths of the parts, added up. -/
theorem artifactSize : Obligations.ArtifactSize := by
  intro a ha
  obtain ⟨-, -, -, -, hbody⟩ := Artifact.wf_iff.mp ha
  simp only [Artifact.bytes, List.length_append, length_wordBytes, length_flatMap_entryBytes, hbody, ceilDiv8]

/-! ### Parsing (R101) -/

/-- A word written is the word taken (R96, R101). -/
@[simp] theorem takeWord_wordBytes (f : Corrupt) (w : Word) (rest : List Byte) :
    takeWord f (wordBytes w ++ rest) = .ok (w, rest) := by
  simp [wordBytes, takeWord]

/-- A count of R98 is positive as an int32. -/
theorem toInt_pos_of_le_countMax {c : Word} (h₁ : 0 < c.toNat) (h₂ : c ≤ Config.countMax) : 0 < c.toInt := by
  have hmax : c.toNat ≤ 0x7FFFFFFF := h₂
  rw [BitVec.toInt_eq_toNat_of_lt (by omega)]
  omega

theorem entriesWf_cons {least : Nat} {s : Byte} {c : Word} {es : List (Byte × Word)} :
    entriesWf least ((s, c) :: es) = true ↔
      least ≤ s.toNat ∧ 0 < c.toNat ∧ c ≤ Config.countMax ∧ entriesWf (s.toNat + 1) es = true := by
  simp [entriesWf, and_assoc]

/-- One pass of the entry loop on an entry that meets R98. -/
theorem parseEntries_succ {least : Nat} {s : Byte} {c : Word} (hs : least ≤ s.toNat) (h₁ : 0 < c.toNat)
    (h₂ : c ≤ Config.countMax) (n e : Nat) (rest : List Byte) :
    parseEntries (n + 1) e least (entryBytes (s, c) ++ rest) =
      (parseEntries n (e + 1) (s.toNat + 1) rest).map fun p => ((s, c) :: p.1, p.2) := by
  have hpos := toInt_pos_of_le_countMax h₁ h₂
  simp only [entryBytes, wordBytes, List.cons_append, List.nil_append, parseEntries, wordOfBytes_wordBytes]
  rw [if_neg (by omega), if_neg (by omega)]
  cases parseEntries n (e + 1) (s.toNat + 1) rest <;> rfl

/-- The entry loop takes the entries of a well-formed table and leaves what follows them (R98, R101). -/
theorem parseEntries_flatMap {es : List (Byte × Word)} {least : Nat} (h : entriesWf least es = true) (e : Nat)
    (rest : List Byte) : parseEntries es.length e least (es.flatMap entryBytes ++ rest) = .ok (es, rest) := by
  induction es generalizing least e with
  | nil => rfl
  | cons x es ih =>
    obtain ⟨s, c⟩ := x
    obtain ⟨hs, h₁, h₂, hes⟩ := entriesWf_cons.mp h
    rw [List.flatMap_cons, List.append_assoc, List.length_cons, parseEntries_succ hs h₁ h₂, ih hes]
    rfl

/-- The end of the parse: the body has exactly the length that totalBits asks for (R99, R101). -/
theorem parseBody_bytes (name : List Byte) (es : List (Byte × Word)) {tb : Word} {body : List Byte}
    (h : body.length = ceilDiv8 tb.toNat) :
    parseBody name es (wordBytes tb ++ body) = .ok ⟨name, es, tb, body⟩ := by
  simp [parseBody, h]

/-- The middle of the parse: a table of 1 to 256 entries (R98, R101). -/
theorem parseTable_bytes (name : List Byte) {es : List (Byte × Word)} (h₁ : 1 ≤ es.length) (h₂ : es.length ≤ 256)
    (hes : entriesWf 0 es = true) (rest : List Byte) :
    parseTable name (wordBytes (BitVec.ofNat 32 es.length) ++ (es.flatMap entryBytes ++ rest)) =
      parseBody name es rest := by
  have hsize : (BitVec.ofNat 32 es.length).toNat = es.length := by rw [BitVec.toNat_ofNat]; omega
  simp only [parseTable, takeWord_wordBytes, hsize, List.length_append, length_flatMap_entryBytes]
  rw [if_neg (by omega), if_neg (by omega), parseEntries_flatMap hes]

/-- The start of the parse: a name shorter than 2^32 bytes (R95, R101). -/
theorem parseArtifact_bytes {name : List Byte} (h : name.length < Config.spaceEnd) (rest : List Byte) :
    parseArtifact (wordBytes (BitVec.ofNat 32 name.length) ++ (name ++ rest)) = parseTable name rest := by
  have hlen : (BitVec.ofNat 32 name.length).toNat = name.length := by
    rw [BitVec.toNat_ofNat]
    exact Nat.mod_eq_of_lt h
  simp only [parseArtifact, takeWord_wordBytes, hlen, List.length_append, List.take_left, List.drop_left]
  rw [if_neg (by omega)]

/-- Settles O58: each part of the parse takes back the part of the artifact it stands for. -/
theorem parseOfBuildArtifact : Obligations.ParseOfBuildArtifact := by
  intro a ha
  obtain ⟨hname, hleast, hmost, hentries, hbody⟩ := Artifact.wf_iff.mp ha
  simp only [Artifact.bytes, List.append_assoc]
  rw [parseArtifact_bytes hname, parseTable_bytes _ hleast hmost hentries, parseBody_bytes _ _ hbody]

end Sys2Proof.Machine
end

section
/-! SUPPORT. The register port as a whole: what a read and an illegal access leave unchanged (20_memory.md R72, R75). -/

namespace Sys2Proof.Machine

/-- A read of a place adds an answer and may draw a free value (R71, R271). -/
theorem readLoc_answers (l : Loc) (s : State) : ∃ r n, readLoc l s = answer r { s with draws := n } := by
  unfold readLoc
  split
  · exact ⟨_, _, rfl⟩
  · exact ⟨_, s.draws, rfl⟩

/-- A read of any offset and width adds an answer and may draw a free value (R71, R72). -/
theorem regAccess_read_answers (s : State) (o : Offset) (width : Nat) (v : Word) :
    ∃ r n, regAccess ⟨o, .read, width, v⟩ s = .next (answer r { s with draws := n }) := by
  by_cases h : width ≠ 32 ∨ o.toNat % 4 ≠ 0
  · exact ⟨.fault, s.draws, regAccess_illegal h s⟩
  · obtain ⟨rfl, ho⟩ : width = 32 ∧ o.toNat % 4 = 0 := by omega
    obtain ⟨r, n, hr⟩ := readLoc_answers (locate o) s
    exact ⟨r, n, by rw [regAccess_read ho, hr]⟩

/-- Settles O36: a read adds an answer and at most a draw, and no other field moves. -/
theorem registerReadsChangeNothing : Obligations.RegisterReadsChangeNothing := by
  intro s o width v
  obtain ⟨r, n, h⟩ := regAccess_read_answers s o width v
  exact ⟨_, h, rfl, rfl, rfl, rfl, rfl, rfl, rfl, rfl⟩

/-- Settles O37: an illegal access is answered with a fault. -/
theorem illegalAccessHasNoEffect : Obligations.IllegalAccessHasNoEffect :=
  fun s _ h => regAccess_illegal h s

end Sys2Proof.Machine
end

section
/-! SUPPORT. The order of a command's accesses (20_memory.md R79, R80): of each kind they climb from one address to
another, said once for each piece of a command. -/

namespace Sys2Proof.Machine

/-! ### Climbing records of accesses -/

/-- The addresses accessed in one way, in the order of the record: the newest first. -/
def addrs (k : AccessKind) (l : List BusAccess) : List Nat := (l.filter fun x => x.kind = k).map BusAccess.addr

/-- How far a command has come: the next address it may read and the next it may write. -/
def fronts (r w : Nat) : AccessKind → Nat
  | .read => r
  | .write => w

/-- From `s` to `t` the addresses accessed in each way rise strictly (the record holds the newest first), from `lo` on
and below `hi`. -/
def Climbs (lo hi : AccessKind → Nat) (s t : State) : Prop :=
  ∃ new, t.bus = new ++ s.bus ∧
    ∀ k, lo k ≤ hi k ∧ (∀ a ∈ addrs k new, lo k ≤ a ∧ a < hi k) ∧ (addrs k new).Pairwise (· > ·)

theorem addrs_append (k : AccessKind) (l m : List BusAccess) : addrs k (l ++ m) = addrs k l ++ addrs k m := by
  simp [addrs]

theorem mem_addrs {x : BusAccess} {l : List BusAccess} (h : x ∈ l) : x.addr ∈ addrs x.kind l :=
  List.mem_map_of_mem (List.mem_filter.mpr ⟨h, by simp⟩)

theorem fronts_le {r r' w w' : Nat} (hr : r ≤ r') (hw : w ≤ w') (k : AccessKind) : fronts r w k ≤ fronts r' w' k := by
  cases k <;> assumption

theorem Climbs.of_bus_eq {lo hi : AccessKind → Nat} {s t : State} (h : t.bus = s.bus) (hle : ∀ k, lo k ≤ hi k) :
    Climbs lo hi s t :=
  ⟨[], h, fun k => ⟨hle k, by simp [addrs]⟩⟩

/-- A climb stays one below a higher bound. -/
theorem Climbs.mono {lo hi hi' : AccessKind → Nat} {s t : State} (h : Climbs lo hi s t) (hle : ∀ k, hi k ≤ hi' k) :
    Climbs lo hi' s t := by
  obtain ⟨new, hbus, hnew⟩ := h
  refine ⟨new, hbus, fun k => ?_⟩
  obtain ⟨hlo, hin, hrise⟩ := hnew k
  exact ⟨hlo.trans (hle k), fun a ha => (hin a ha).imp_right fun h => h.trans_le (hle k), hrise⟩

/-- A climb goes on where another ended. -/
theorem Climbs.trans {lo mid hi : AccessKind → Nat} {s t u : State} (h : Climbs lo mid s t) (k : Climbs mid hi t u) :
    Climbs lo hi s u := by
  obtain ⟨old, hold, hst⟩ := h
  obtain ⟨new, hnew, htu⟩ := k
  refine ⟨new ++ old, by rw [hnew, hold, List.append_assoc], fun k => ?_⟩
  obtain ⟨hlo, inOld, riseOld⟩ := hst k
  obtain ⟨hhi, inNew, riseNew⟩ := htu k
  rw [addrs_append]
  refine ⟨hlo.trans hhi, fun a ha => ?_, List.pairwise_append.mpr ⟨riseNew, riseOld, fun a ha b hb => ?_⟩⟩
  · rcases List.mem_append.mp ha with ha | ha
    · exact (inNew a ha).imp_left hlo.trans
    · exact (inOld a ha).imp_right fun h => h.trans_le hhi
  · exact (inOld b hb).2.trans_le (inNew a ha).1

/-- One access is a climb past its address. -/
theorem noteBus_climbs {lo hi : AccessKind → Nat} {k : AccessKind} {a : Nat} (s : State) (hle : ∀ k, lo k ≤ hi k)
    (h₁ : lo k ≤ a) (h₂ : a < hi k) : Climbs lo hi s (noteBus k a s) := by
  refine ⟨[⟨k, a⟩], rfl, fun k' => ⟨hle k', ?_⟩⟩
  by_cases hk : k = k'
  · subst hk; simp [addrs, h₁, h₂]
  · simp [addrs, hk]

theorem busRead_climbs (a w : Nat) (s : State) : Climbs (fronts a w) (fronts (a + 1) w) s (busRead a s).state := by
  rw [busRead_state]
  exact noteBus_climbs s (fronts_le (Nat.le_succ a) (Nat.le_refl w)) (Nat.le_refl a) (Nat.lt_succ_self a)

/-! ### Pieces that write behind OUT_LEN -/

/-- The address of the next destination byte (R133). -/
def nextOut (dst : Region) (s : State) : Nat := dst.base + s.block.outLen.toNat

/-- The reads of a piece climb from `r` to `r'`, and its writes from the next destination byte on: to the then next one
where the piece ends well, with room left, and to the end of the region where it raises. -/
structure Advances {α : Type} (dst : Region) (r r' : Nat) (s : State) (res : Res α) : Prop where
  ok : ∀ a t, res = .ok a t →
    HasRoom dst t ∧ Climbs (fronts r (nextOut dst s)) (fronts r' (nextOut dst t)) s t
  raised : ∀ e t, res = .raised e t → Climbs (fronts r (nextOut dst s)) (fronts r' (dst.base + dst.size)) s t

section
variable {α β : Type} {dst : Region}

theorem HasRoom.nextOut_le {s : State} (h : HasRoom dst s) : nextOut dst s ≤ dst.base + dst.size := by
  obtain ⟨rfl, hle⟩ := h
  exact Nat.add_le_add_left hle _

theorem Advances.of_ok {r r' : Nat} {s t : State} {a : α} (h : HasRoom dst t)
    (hc : Climbs (fronts r (nextOut dst s)) (fronts r' (nextOut dst t)) s t) : Advances dst r r' s (.ok a t) :=
  ⟨by rintro _ _ ⟨⟩; exact ⟨h, hc⟩, by rintro _ _ ⟨⟩⟩

theorem Advances.of_raised {r r' : Nat} {s t : State} {e : Err}
    (hc : Climbs (fronts r (nextOut dst s)) (fronts r' (dst.base + dst.size)) s t) :
    Advances dst r r' s (.raised e t : Res α) :=
  ⟨by rintro _ _ ⟨⟩, by rintro _ _ ⟨⟩; exact hc⟩

/-- A piece that ends well and accesses nothing. -/
theorem Advances.ok_of_same {r : Nat} {s t : State} {a : α} (h : HasRoom dst t) (hbus : t.bus = s.bus)
    (hout : t.block.outLen = s.block.outLen) : Advances dst r r s (.ok a t) :=
  .of_ok h (.of_bus_eq hbus (fronts_le (Nat.le_refl r) (by simp [nextOut, hout])))

/-- A piece that raises and accesses nothing. -/
theorem Advances.raised_of_same {r : Nat} {s : State} {e : Err} (h : HasRoom dst s) :
    Advances dst r r s (.raised e s : Res α) :=
  .of_raised (.of_bus_eq rfl (fronts_le (Nat.le_refl r) h.nextOut_le))

/-- Only the record and OUT_LEN of the start matter. -/
theorem Advances.from {r r' : Nat} {s u : State} {res : Res α} (h : Advances dst r r' u res) (hbus : u.bus = s.bus)
    (hout : u.block.outLen = s.block.outLen) : Advances dst r r' s res := by
  obtain ⟨hok, hraised⟩ := h
  simp only [nextOut, Climbs, hbus, hout] at hok hraised
  exact ⟨hok, hraised⟩

/-- A piece followed by what goes on from its end. -/
theorem Advances.andThen {r r' r'' : Nat} {s : State} {res : Res α} {f : α → State → Res β}
    (h : Advances dst r r' s res) (hr : r' ≤ r'') (k : ∀ a t, HasRoom dst t → Advances dst r' r'' t (f a t)) :
    Advances dst r r'' s (res.andThen f) := by
  cases res with
  | raised e t => exact .of_raised ((h.raised e t rfl).mono (fronts_le hr (Nat.le_refl _)))
  | ok a t =>
    obtain ⟨hroom, hclimbs⟩ := h.ok a t rfl
    obtain ⟨kok, kraised⟩ := k a t hroom
    exact ⟨fun b u hu => (kok b u hu).imp_right hclimbs.trans, fun e u hu => hclimbs.trans (kraised e u hu)⟩

/-- However a piece ends, its writes stay in the destination region. -/
theorem Advances.climbs {r r' : Nat} {s : State} {res : Res α} (h : Advances dst r r' s res) :
    Climbs (fronts r (nextOut dst s)) (fronts r' (dst.base + dst.size)) s res.state := by
  cases res with
  | ok a t =>
    obtain ⟨hroom, hclimbs⟩ := h.ok a t rfl
    exact hclimbs.mono (fronts_le (Nat.le_refl _) hroom.nextOut_le)
  | raised e t => exact h.raised e t rfl

theorem busRead_advances (a : Nat) {s : State} (h : HasRoom dst s) : Advances dst a (a + 1) s (busRead a s) := by
  have hclimbs := busRead_climbs a (nextOut dst s) s
  rw [busRead_eq] at hclimbs ⊢
  split at hclimbs
  · rw [if_pos ‹_›]; exact .of_ok h hclimbs
  · rw [if_neg ‹_›]; exact .of_raised (hclimbs.mono (fronts_le (Nat.le_refl _) h.nextOut_le))

/-- `put` writes at DST_ADDR + OUT_LEN, once, and goes on behind it (R133). -/
theorem put_advances (r : Nat) (b : Byte) {s : State} (h : HasRoom dst s) : Advances dst r r s (put b s) := by
  obtain ⟨rfl, hle⟩ := h
  rw [put_eq]
  split
  · exact .raised_of_same ⟨rfl, hle⟩
  · rename_i hne
    have hlt : s.block.outLen.toNat < s.block.dstCap.toNat :=
      Nat.lt_of_le_of_ne hle fun h => hne (BitVec.eq_of_toNat_eq h)
    have hnext : (s.block.outLen + 1#32).toNat = s.block.outLen.toNat + 1 :=
      BitVec.toNat_add_of_lt (by have := s.block.dstCap.isLt; simp; omega)
    have hnote : ∀ w, nextOut (dstRegion s.block) s < w → Climbs (fronts r (nextOut (dstRegion s.block) s))
        (fronts r w) s (noteBus .write (nextOut (dstRegion s.block) s) s) := fun w hw =>
      noteBus_climbs s (fronts_le (Nat.le_refl r) hw.le) (Nat.le_refl _) hw
    split
    · refine .of_ok ⟨rfl, ?_⟩ (hnote _ ?_)
      · exact hnext.le.trans hlt
      · exact Nat.add_lt_add_left (hnext ▸ Nat.lt_succ_self _) _
    · refine .of_raised (hnote _ ?_)
      exact Nat.add_lt_add_left hlt _

/-! ### ENCODE -/

theorem packBit_advances (r : Nat) (bit : Bool) (p : Packer) {s : State} (h : HasRoom dst s) :
    Advances dst r r s (packBit bit p s) := by
  unfold packBit
  split
  · exact (put_advances r _ h).andThen (Nat.le_refl r) fun _ t ht => .ok_of_same ht rfl rfl
  · exact .ok_of_same h rfl rfl

theorem packBits_advances (r : Nat) (bits : List Bool) (p : Packer) {s : State} (h : HasRoom dst s) :
    Advances dst r r s (packBits bits p s) := by
  induction bits generalizing p s with
  | nil => exact .ok_of_same h rfl rfl
  | cons b rest ih => exact (packBit_advances r b p h).andThen (Nat.le_refl r) fun q _ ht => ih q ht

theorem packSymbol_advances (r j : Nat) (sym : Byte) (p : Packer) {s : State} (h : HasRoom dst s) :
    Advances dst r r s (packSymbol j sym p s) := by
  unfold packSymbol
  split
  · exact .raised_of_same h
  · split
    · exact .raised_of_same h
    · exact packBits_advances r _ p h

/-- The loop of `pack` reads one source byte a pass (R186). -/
theorem packLoop_advances (base remaining j : Nat) (p : Packer) {s : State} (h : HasRoom dst s) :
    Advances dst (base + j) (base + (j + remaining)) s (packLoop base remaining j p s) := by
  induction remaining generalizing j p s with
  | zero => exact .ok_of_same h rfl rfl
  | succ n ih =>
    rw [packLoop_succ]
    refine (busRead_advances (base + j) h).andThen (by omega) fun sym t ht => ?_
    refine (packSymbol_advances _ j sym p ht).andThen (by omega) fun q u hu => ?_
    rw [show j + (n + 1) = j + 1 + n by omega]
    exact ih (j + 1) q hu

theorem packTail_advances (r : Nat) (p : Packer) {s : State} (h : HasRoom dst s) :
    Advances dst r r s (packTail p s) := by
  unfold packTail
  split
  · exact put_advances r _ h
  · exact .ok_of_same h rfl rfl

theorem pack_advances (base n : Nat) {s : State} (h : HasRoom dst s) :
    Advances dst base (base + n) s (pack base n s) := by
  have hloop := packLoop_advances base n 0 Packer.empty h
  rw [Nat.add_zero, Nat.zero_add] at hloop
  refine hloop.andThen (Nat.le_refl _) fun p t ht => ?_
  exact (packTail_advances _ p ht).andThen (Nat.le_refl _) fun _ u hu => .ok_of_same hu rfl rfl

/-! ### DECODE -/

/-- The byte that holds bit `i` is read just before its first bit is used (R202). -/
theorem fetchByte_advances (base i : Nat) (kept : Byte) {s : State} (h : HasRoom dst s) :
    Advances dst (base + ceilDiv8 i) (base + ceilDiv8 (i + 1)) s (fetchByte base i kept s) := by
  unfold fetchByte ceilDiv8
  split
  · rw [show base + (i + 7) / 8 = base + i / 8 by omega, show base + (i + 1 + 7) / 8 = base + i / 8 + 1 by omega]
    exact busRead_advances _ h
  · rw [show (i + 1 + 7) / 8 = (i + 7) / 8 by omega]
    exact .ok_of_same h rfl rfl

theorem singleLeafBit_advances (n : Nat) (r : NodeIx) (i : Nat) (bit : Bool) (c : Cursor) {s : State}
    (h : HasRoom dst s) : Advances dst n n s (singleLeafBit r i bit c s) := by
  unfold singleLeafBit
  split
  · exact .raised_of_same h
  · exact (put_advances n _ h).andThen (Nat.le_refl n) fun _ t ht => .ok_of_same ht rfl rfl

theorem treeBit_advances (n : Nat) (r : NodeIx) (i : Nat) (bit : Bool) (c : Cursor) {s : State} (h : HasRoom dst s) :
    Advances dst n n s (treeBit r i bit c s) := by
  have hput : ∀ v sym, Advances dst n n s (put sym (setDecNode v s)) := fun v sym =>
    (put_advances n sym (s := setDecNode v s) h).from rfl rfl
  unfold treeBit
  simp only
  split
  · exact (hput _ _).andThen (Nat.le_refl n) fun _ t ht => .ok_of_same ht rfl rfl
  · exact .ok_of_same h rfl rfl

theorem decodeBit_advances (base : Nat) (r : NodeIx) (i : Nat) (c : Cursor) {s : State} (h : HasRoom dst s) :
    Advances dst (base + ceilDiv8 i) (base + ceilDiv8 (i + 1)) s (decodeBit base r i c s) := by
  refine (fetchByte_advances base i c.byte h).andThen (Nat.le_refl _) fun byte t ht => ?_
  refine Advances.from (u := setDecBits (BitVec.ofNat 32 (i + 1)) t) ?_ rfl rfl
  simp only
  split
  · exact singleLeafBit_advances _ r i _ _ ht
  · exact treeBit_advances _ r i _ _ ht

theorem decodeLoop_advances (base : Nat) (r : NodeIx) (remaining i : Nat) (c : Cursor) {s : State}
    (h : HasRoom dst s) : Advances dst (base + ceilDiv8 i) (base + ceilDiv8 (i + remaining)) s
      (decodeLoop base r remaining i c s) := by
  induction remaining generalizing i c s with
  | zero => exact .ok_of_same h rfl rfl
  | succ n ih =>
    refine (decodeBit_advances base r i c h).andThen (by simp only [ceilDiv8]; omega) fun d t ht => ?_
    rw [show i + (n + 1) = i + 1 + n by omega]
    exact ih (i + 1) d ht

/-- DECODE reads the bytes that hold its bits and no other (R79). -/
theorem walkBits_advances (base : Nat) (r : NodeIx) (tb : Nat) {s : State} (h : HasRoom dst s) :
    Advances dst base (base + ceilDiv8 tb) s (walkBits base r tb s) := by
  have hloop := decodeLoop_advances base r tb 0 ⟨r, 0, 0⟩ h
  rw [Nat.zero_add] at hloop
  refine hloop.andThen (Nat.le_refl _) fun c t ht => ?_
  split
  · exact .ok_of_same ht rfl rfl
  · exact .raised_of_same ht

end

/-! ### FREQ_COUNT -/

/-- Counting reads one source byte a pass and writes nothing (R142). -/
theorem countLoop_climbs (base w remaining j : Nat) (h : Vector Word 256) (s : State) :
    Climbs (fronts (base + j) w) (fronts (base + (j + remaining)) w) s (countLoop base remaining j h s).state := by
  induction remaining generalizing j h s with
  | zero => exact .of_bus_eq rfl fun _ => Nat.le_refl _
  | succ n ih =>
    have hread := busRead_climbs (base + j) w s
    have hstop := hread.mono (fronts_le (r' := base + (j + (n + 1))) (by omega) (Nat.le_refl w))
    rw [countLoop]
    cases hr : busRead (base + j) s with
    | raised e t => rw [hr] at hstop; exact hstop
    | ok b t =>
      rw [hr] at hread hstop
      simp only
      split
      · exact hstop
      · rw [show j + (n + 1) = j + 1 + n by omega]
        exact hread.trans (ih (j + 1) _ t)

/-! ### The rules -/

/-- The reads of a rule climb from SRC_ADDR to `r` and its writes from DST_ADDR to `w`, within the regions and within
system memory (R79, R80, R82). -/
structure RuleClimbs (s : State) (r w : Nat) (t : State) : Prop where
  climbs : Climbs (fronts s.block.srcAddr.toNat s.block.dstAddr.toNat) (fronts r w) s t
  inSrc : r ≤ s.block.srcAddr.toNat + s.block.srcLen.toNat
  inDst : w ≤ s.block.dstAddr.toNat + s.block.dstCap.toNat
  readBelow : r ≤ Config.spaceEnd
  writeBelow : w ≤ Config.spaceEnd

/-- A rule that accesses nothing. -/
theorem RuleClimbs.of_bus_eq {s t : State} (h : t.bus = s.bus) :
    RuleClimbs s s.block.srcAddr.toNat s.block.dstAddr.toNat t where
  climbs := .of_bus_eq h fun _ => Nat.le_refl _
  inSrc := Nat.le_add_right _ _
  inDst := Nat.le_add_right _ _
  readBelow := s.block.srcAddr.isLt.le
  writeBelow := s.block.dstAddr.isLt.le

/-- A rule that moves its registers to `u`, with OUT_LEN = 0, and on legal regions goes on with `res`. -/
theorem RuleClimbs.of_advances {s u : State} {r : Nat} {res : Res Unit}
    (h : Advances (dstRegion s.block) s.block.srcAddr.toNat r u res) (hbus : u.bus = s.bus) (hout : u.block.outLen = 0)
    (hr : r ≤ s.block.srcAddr.toNat + s.block.srcLen.toNat) (hc : checkRegions s.block = none) :
    RuleClimbs s r (s.block.dstAddr.toNat + s.block.dstCap.toNat) res.state := by
  obtain ⟨hsrc, hdst, -⟩ := checkRegions_eq_none.mp hc
  have hnext : nextOut (dstRegion s.block) u = s.block.dstAddr.toNat := by simp [nextOut, hout, dstRegion]
  have hclimbs := h.climbs
  rw [hnext] at hclimbs
  exact ⟨.trans (.of_bus_eq hbus fun _ => Nat.le_refl _) hclimbs, hr, Nat.le_refl _, hr.trans hsrc, hdst⟩

/-- FREQ_CLEAR, BUILD_TREE and GEN_CODES access nothing (R79, R80). -/
theorem rule_bus_of_silent {i : Instr} (h : i = .freqClear ∨ i = .buildTree ∨ i = .genCodes) (s : State) :
    (rule i s).state.bus = s.bus := by
  rcases h with rfl | rfl | rfl
  · rfl
  · rcases buildTreeRule_cases s with ⟨e, -, h⟩ | ⟨-, -, h⟩ <;> rw [rule, h] <;> rfl
  · rcases genCodesRule_cases s with ⟨-, h⟩ | ⟨-, h⟩ <;> rw [rule, h] <;> rfl

/-- FREQ_COUNT reads at most its source and writes nothing (R79, R80, R142). -/
theorem freqCountRule_climbs (s : State) :
    ∃ r, RuleClimbs s r s.block.dstAddr.toNat (freqCountRule s).state := by
  by_cases hc : checkSrc s.block = none
  · by_cases hlen : s.block.srcLen = 0
    · exact ⟨_, .of_bus_eq (by rw [freqCountRule, if_pos hlen]; rfl)⟩
    · have hsrc := checkSrc_eq_none.mp hc
      have hloop := countLoop_climbs s.block.srcAddr.toNat s.block.dstAddr.toNat s.block.srcLen.toNat 0 zeroFreq
        (setFreq zeroFreq s)
      rw [Nat.add_zero, Nat.zero_add] at hloop
      refine ⟨_, ?_, Nat.le_refl _, Nat.le_add_right _ _, hsrc, s.block.dstAddr.isLt.le⟩
      rw [freqCountRule, if_neg hlen, hc, require_none, Res.andThen_ok]
      exact Res.andThen_state (P := Climbs _ _ s) hloop fun h u hu => by rw [hu] at hloop; exact hloop
  · exact ⟨_, .of_bus_eq (by rw [freqCountRule_refused hc]; rfl)⟩

/-- ENCODE reads at most its source and writes at most its destination (R79, R80, R185). -/
theorem encodeRule_climbs (s : State) : ∃ r w, RuleClimbs s r w (encodeRule s).state := by
  have hroom : HasRoom (dstRegion s.block) (setOutLen 0 s) := ⟨rfl, Nat.zero_le _⟩
  by_cases hc : checkRegions s.block = none
  · unfold encodeRule
    split
    · exact ⟨_, _, .of_bus_eq rfl⟩
    · split
      · exact ⟨_, _, .of_bus_eq rfl⟩
      · rw [hc, require_none, Res.andThen_ok]
        exact ⟨_, _, .of_advances (pack_advances _ _ hroom) rfl rfl (Nat.le_refl _) hc⟩
  · exact ⟨_, _, .of_bus_eq (by rw [encodeRule_refused hc]; rfl)⟩

/-- DECODE reads at most its source, since TOTAL_BITS fit it, and writes at most its destination (R79, R80, R201). -/
theorem decodeRule_climbs (s : State) : ∃ r w, RuleClimbs s r w (decodeRule s).state := by
  have hroom : HasRoom (dstRegion s.block) (decodeStart s) := ⟨rfl, Nat.zero_le _⟩
  by_cases hc : checkRegions s.block = none
  · unfold decodeRule
    split
    · exact ⟨_, _, .of_bus_eq rfl⟩
    · split
      · exact ⟨_, _, .of_bus_eq rfl⟩
      · rename_i hbits
        rw [hc, require_none, Res.andThen_ok]
        exact ⟨_, _, .of_advances (walkBits_advances _ _ _ hroom) rfl rfl
          (Nat.add_le_add_left (Nat.le_of_not_lt hbits) _) hc⟩
  · exact ⟨_, _, .of_bus_eq (by rw [decodeRule_refused hc]; rfl)⟩

/-- Every rule climbs through its regions, and FREQ_COUNT writes nothing (R79, R80). -/
theorem rule_climbs (i : Instr) (s : State) :
    ∃ r w, RuleClimbs s r w (rule i s).state ∧ (i = .freqCount → w = s.block.dstAddr.toNat) := by
  cases i with
  | freqClear => exact ⟨_, _, .of_bus_eq (rule_bus_of_silent (.inl rfl) s), nofun⟩
  | freqCount =>
    obtain ⟨r, h⟩ := freqCountRule_climbs s
    exact ⟨r, _, h, fun _ => rfl⟩
  | buildTree => exact ⟨_, _, .of_bus_eq (rule_bus_of_silent (.inr (.inl rfl)) s), nofun⟩
  | genCodes => exact ⟨_, _, .of_bus_eq (rule_bus_of_silent (.inr (.inr rfl)) s), nofun⟩
  | encode =>
    obtain ⟨r, w, h⟩ := encodeRule_climbs s
    exact ⟨r, w, h, nofun⟩
  | decode =>
    obtain ⟨r, w, h⟩ := decodeRule_climbs s
    exact ⟨r, w, h, nofun⟩

theorem region_has_of_below {r : Region} {a hi : Nat} (h : r.base ≤ a ∧ a < hi) (hr : hi ≤ r.base + r.size)
    (hs : hi ≤ Config.spaceEnd) : r.has a = true ∧ a < Config.spaceEnd := by
  simp only [Region.has, Bool.and_eq_true, decide_eq_true_eq]
  omega

/-- Settles O35: the accesses of each kind climb through their region, so none repeats. -/
theorem accessesStayInRegionsAscending : Obligations.AccessesStayInRegionsAscending := by
  intro i s
  obtain ⟨r, w, ⟨⟨new, hbus, hnew⟩, hsrc, hdst, hread, hwrite⟩, hcount⟩ := rule_climbs i s
  obtain ⟨-, inReads, riseReads⟩ := hnew .read
  obtain ⟨-, inWrites, riseWrites⟩ := hnew .write
  refine ⟨_, new, exec_eq i s, by rw [finish_bus, hbus], fun x hx hk => ?_, fun x hx hk => ?_, riseReads, riseWrites,
    fun hi => ?_, fun hi x hx => ?_⟩
  · exact region_has_of_below (r := srcRegion s.block) (inReads _ (hk ▸ mem_addrs hx)) hsrc hread
  · exact region_has_of_below (r := dstRegion s.block) (inWrites _ (hk ▸ mem_addrs hx)) hdst hwrite
  · rw [rule_bus_of_silent hi] at hbus
    exact List.self_eq_append_left.mp hbus
  · cases hk : x.kind with
    | read => rfl
    | write =>
      obtain ⟨h₁, h₂⟩ := inWrites _ (hk ▸ mem_addrs hx)
      rw [hcount hi] at h₂
      exact absurd h₁ (Nat.not_le_of_lt h₂)

end Sys2Proof.Machine
end

section
/-! SUPPORT. The encoding of commands: encoded commands decode, and which words do (30_encoding.md R110 to R117). -/

namespace Sys2Proof

/-- An encoded command is the four bytes of its one word (R117). -/
theorem encodeBytes_eq (i : Instr) : encodeBytes i = wordBytes (encodeWord i) := List.append_nil _

/-- A command is read back from its bytes, whatever follows them (R111, R117). -/
theorem decode_encodeBytes_append (i : Instr) (rest : List Byte) :
    decode (encodeBytes i ++ rest) = .ok (i, rest) := by
  rw [encodeBytes_eq, decode_wordBytes, decodeWord_encodeWord]

/-- Settles O3: no command is ill formed, so each is read back from its bytes. -/
theorem decodeOfEncode : Obligations.DecodeOfEncode :=
  fun i rest _ => decode_encodeBytes_append i rest

/-- Settles O4: the two checks of R111 decide whether a word decodes, and only a command's own word decodes to it. -/
theorem wordSelectsCommandExactly : Obligations.WordSelectsCommandExactly := by
  refine ⟨fun w => (decodeWord_isOk w).trans wordWellFormed_iff, fun w i => decodeWord_eq_ok.trans ?_⟩
  cases i <;> rfl

/-- Settles O2: the six words are the encoded commands; of the four others, two fail at the opcode and two at the
reserved field. -/
theorem tabledWordsDecode : Obligations.TabledWordsDecode := by
  have tabled (i : Instr) : decode (encodeBytes i) = .ok (i, []) := decode_encodeBytes_append i []
  exact ⟨tabled .freqClear, tabled .freqCount, tabled .buildTree, tabled .genCodes, tabled .encode, tabled .decode,
    rfl, rfl, rfl, rfl⟩

end Sys2Proof
end

section
/-! SUPPORT. Dispatch: how a CMD write starts a command, what the engine's turn does with the word, and that only these
two and a reset move the engine (40_dispatch.md R125 to R131, R133). -/

namespace Sys2Proof.Machine

/-! ### The engine's turn (R127, R128, R131) -/

theorem engineTurn_idle {s : State} (h : s.block.engine = .idle) : engineTurn s = .next s := by
  simp only [engineTurn, h]

theorem engineTurn_busy {s : State} {w : Word} (h : s.block.engine = .busy w) : engineTurn s = execWord w s := by
  simp only [engineTurn, h]

/-- In Busy(w) the engine's turn is the command that w selects (R127). -/
theorem engineTurn_command {s : State} {w : Word} {i : Instr} (h : s.block.engine = .busy w)
    (hi : decodeWord w = .ok i) : engineTurn s = exec i s := by
  rw [engineTurn_busy h, execWord_ok hi]

/-- In Busy(w) the engine's turn is ILLEGAL_CMD where w selects nothing (R131). -/
theorem engineTurn_illegal {s : State} {w : Word} (h : s.block.engine = .busy w) (hw : ∀ i, decodeWord w ≠ .ok i) :
    engineTurn s = .next (illegalCommand w s) := by
  rw [engineTurn_busy h, execWord_illegal hw]

theorem step_of_no_input {s : State} (h : s.pending = []) : step s = engineTurn s := by
  simp only [step, h]

theorem step_of_turn_next {s : State} {rest : List Event} (h : s.pending = .engineTurn :: rest) :
    step s = engineTurn { s with pending := rest } := by
  simp only [step, h, runEvent]

/-- However its rule ended, a command that completes records it (R129, R130). -/
theorem finish_recorded (r : Res Unit) : (finish r).block.done = true ∨ (finish r).block.err = true := by
  cases r with
  | ok _ _ => exact .inl rfl
  | raised _ _ => exact .inr rfl

/-- Settles O1: the word selects the command, and both ways to the engine's turn keep the block. -/
theorem stepRunsDecodedCommand : Obligations.StepRunsDecodedCommand := by
  intro s w i he hi
  exact ⟨fun hp => (step_of_no_input hp).trans (engineTurn_command he hi),
    fun rest hp => (step_of_turn_next hp).trans (engineTurn_command (s := { s with pending := rest }) he hi)⟩

/-- Settles O53: the turn ends a command by its rule, or an illegal word with ERR. -/
theorem runningCommandCompletes : Obligations.RunningCommandCompletes := by
  refine fun s => ⟨fun hb => ?_, engineTurn_idle⟩
  obtain ⟨w, he⟩ := busy_iff.mp hb
  rcases word_cases w with ⟨i, hi, -⟩ | hw
  · exact ⟨_, by rw [engineTurn_command he hi, exec_eq], finish_engine _, finish_recorded _⟩
  · exact ⟨_, engineTurn_illegal he hw, finish_engine _, finish_recorded _⟩

/-- A bit of [31:8], opcode 0 or an opcode past 6 each fail a check of R111 (R113, R114). -/
theorem decodeWord_illegal {w : Word}
    (h : w.extractLsb' 8 24 ≠ 0#24 ∨ w.extractLsb' 0 8 = 0#8 ∨ 7 ≤ (w.extractLsb' 0 8).toNat) (i : Instr) :
    decodeWord w ≠ .ok i := by
  intro hi
  obtain ⟨hres, hlow, hhigh⟩ := wordWellFormed_iff.mp ((decodeWord_isOk w).mp ⟨i, hi⟩)
  rcases h with h | h | h
  · exact h hres
  · rw [h] at hlow
    exact absurd hlow (by decide)
  · omega

/-- Settles O5: the turn of an illegal word is `illegalCommand`, and each way to be illegal fails a check. -/
theorem illegalWordOnlyReportsItself : Obligations.IllegalWordOnlyReportsItself :=
  ⟨fun _ _ => engineTurn_illegal, fun _ => decodeWord_illegal, decodeWord_illegal (.inr (.inl (by decide))),
    decodeWord_illegal (.inl (by decide))⟩

/-! ### One outcome (R129, R130) -/

/-- A rule changes nothing but the block, memory and the record of accesses. -/
theorem rule_sameAround (i : Instr) (s : State) : SameAround s (rule i s).state := by
  cases i with
  | freqClear => exact .refl s
  | freqCount =>
    obtain ⟨-, -, haround, -⟩ := freqCountRule_ends s
    exact haround
  | buildTree => rcases buildTreeRule_cases s with ⟨e, -, h⟩ | ⟨-, -, h⟩ <;> rw [rule, h] <;> exact .refl s
  | genCodes => rcases genCodesRule_cases s with ⟨-, h⟩ | ⟨-, h⟩ <;> rw [rule, h] <;> exact .refl s
  | encode => exact (encodeRule_ends s).1.emits.around
  | decode => exact (decodeRule_ends s).emits.around

theorem finish_sameAround (r : Res Unit) : SameAround r.state (finish r) := by
  cases r <;> exact .refl _

/-- The registers that only the host or a start writes: LAST_CMD, OVR, IRQ_EN and the four region registers. -/
def SameHostRegisters (b c : Block) : Prop :=
  c.lastCmd = b.lastCmd ∧ c.ovr = b.ovr ∧ c.doneIe = b.doneIe ∧ c.errIe = b.errIe ∧ c.srcAddr = b.srcAddr ∧
    c.srcLen = b.srcLen ∧ c.dstAddr = b.dstAddr ∧ c.dstCap = b.dstCap

theorem OnlyResults.sameHostRegisters {s t : State} (h : OnlyResults s t) : SameHostRegisters s.block t.block := by
  unfold OnlyResults at h
  rw [h]
  exact ⟨rfl, rfl, rfl, rfl, rfl, rfl, rfl, rfl⟩

theorem finish_sameHostRegisters (r : Res Unit) : SameHostRegisters r.state.block (finish r).block := by
  cases r <;> exact ⟨rfl, rfl, rfl, rfl, rfl, rfl, rfl, rfl⟩

theorem SameHostRegisters.trans {b c d : Block} (h : SameHostRegisters b c) (k : SameHostRegisters c d) :
    SameHostRegisters b d := by
  obtain ⟨h₁, h₂, h₃, h₄, h₅, h₆, h₇, h₈⟩ := h
  obtain ⟨k₁, k₂, k₃, k₄, k₅, k₆, k₇, k₈⟩ := k
  exact ⟨k₁.trans h₁, k₂.trans h₂, k₃.trans h₃, k₄.trans h₄, k₅.trans h₅, k₆.trans h₆, k₇.trans h₇, k₈.trans h₈⟩

/-- A command writes no host register. -/
theorem finish_rule_sameHostRegisters (i : Instr) (s : State) :
    SameHostRegisters s.block (finish (rule i s)).block :=
  (rule_onlyResults i s).sameHostRegisters.trans (finish_sameHostRegisters _)

/-- Settles O7: a command ends as its rule ends, and neither the rule nor the completion writes a host register. -/
theorem commandHasExactlyOneOutcome : Obligations.CommandHasExactlyOneOutcome := by
  intro i s _ hdone herr hcode hinfo
  obtain ⟨h₁, h₂, h₃, h₄, h₅, h₆, h₇, h₈⟩ := finish_rule_sameHostRegisters i s
  exact ⟨_, exec_eq i s, finish_engine _, finish_rule_status i hdone herr hcode hinfo, h₁, h₂, h₃, h₄, h₅, h₆, h₇, h₈,
    (rule_sameAround i s).trans (finish_sameAround _)⟩

/-! ### The start (R126) -/

/-- ENCODE and DECODE have a destination region (R80). -/
theorem writesMemory_iff {w : Word} : writesMemory w = true ↔ w = 0x00000005#32 ∨ w = 0x00000006#32 := by
  constructor
  · intro h
    unfold writesMemory at h
    split at h
    · exact .inl (decodeWord_eq_ok.mp ‹_›)
    · exact .inr (decodeWord_eq_ok.mp ‹_›)
    · cases h
  · rintro (rfl | rfl) <;> rfl

/-- A dirty copy of a source byte of FREQ_COUNT, ENCODE or DECODE is a source byte not written back (R91; log 10). -/
theorem sourceUnwritten_of_dirty {s : State} {w : Word} (hc : s.platform.dmaCoherent = false)
    (hw : w = 0x00000002#32 ∨ w = 0x00000005#32 ∨ w = 0x00000006#32)
    (hd : ∃ a ∈ s.hostDirty, (srcRegion s.block).has a = true) : sourceUnwritten w s = true := by
  have htouch : touchesMemory w = true := by rcases hw with rfl | rfl | rfl <;> rfl
  obtain ⟨a, ha, hin⟩ := hd
  simp only [sourceUnwritten, hc, htouch, Bool.not_false, Bool.true_and, List.any_eq_true]
  exact ⟨a, List.mem_append_left _ ha, hin⟩

/-- The block right after a start, every field (R126). -/
theorem startBlock_eq (w : Word) (b : Block) : startBlock w b = { b with
    lastCmd := w
    done := false
    err := false
    errCode := .none
    errInfo := 0
    treeValid := if w = 0x00000001#32 ∨ w = 0x00000002#32 ∨ w = 0x00000003#32 then false else b.treeValid
    codeValid :=
      if w = 0x00000001#32 ∨ w = 0x00000002#32 ∨ w = 0x00000003#32 then false
      else if w = 0x00000004#32 then false else b.codeValid
    engine := .busy w } := by
  unfold startBlock startClears clearValid
  split_ifs <;> rfl

/-- A start overtakes only dirty copies of destination bytes, so every other byte of memory is the same (log 10). -/
theorem overtakeCopies_read (w : Word) {s : State} {a : Nat}
    (h : (dstRegion s.block).has a = false ∨ a ∉ s.hostDirty) : (overtakeCopies w s).mem.read a = s.mem.read a := by
  rw [overtakeCopies_mem]
  split
  · refine Memory.read_drawList_other _ _ fun ha => ?_
    obtain ⟨hdirty, hin⟩ := List.mem_filter.mp ha
    rcases h with h | h
    · rw [h] at hin; cases hin
    · exact h hdirty
  · rfl

/-- With coherence, with no dirty copy, or for a command that writes no memory, a start overtakes no copy. -/
theorem overtakeCopies_none {w : Word} {s : State}
    (h : s.platform.dmaCoherent = true ∨ s.hostDirty = [] ∨ (w ≠ 0x00000005#32 ∧ w ≠ 0x00000006#32)) :
    (overtakeCopies w s).mem = s.mem ∧ (overtakeCopies w s).draws = s.draws ∧
      (overtakeCopies w s).hostDirty = s.hostDirty := by
  rcases h with h | h | h
  · rw [overtakeCopies_coherent h]
    exact ⟨rfl, rfl, rfl⟩
  · have hd : dirtyDestination s = [] := by rw [dirtyDestination, h, List.filter_nil]
    unfold overtakeCopies
    rw [hd, drawBytes_nil, h]
    split <;> exact ⟨rfl, rfl, by simp [h]⟩
  · have hw : writesMemory w = false := by
      rw [← Bool.not_eq_true, writesMemory_iff, not_or]
      exact h
    unfold overtakeCopies
    rw [hw, Bool.and_false]
    exact ⟨rfl, rfl, rfl⟩

/-- Settles O6: a CMD write while Idle is refused for the host's caches or is `startCommand`. -/
theorem commandStartEffects : Obligations.CommandStartEffects := by
  intro s w hi
  have hwrite := regAccess_cmd_idle hi w
  refine ⟨fun hc hw hd => hwrite.trans (if_pos (sourceUnwritten_of_dirty hc hw hd)), fun h => hwrite.trans (if_pos h),
    fun h => ?_⟩
  refine ⟨answer .done (startCommand w s), hwrite.trans (if_neg (by simp [h])), ?_, fun a => overtakeCopies_read w,
    overtakeCopies_none, ?_⟩
  · simp only [startClears_test]
    exact startBlock_eq w s.block
  · simp

/-! ### One command at a time (R125) -/

theorem writeOperand_engine (l : Loc) (v : Word) (b : Block) : (writeOperand l v b).engine = b.engine := by
  cases l <;> rfl

/-- Every move of the block by what it does to the engine: nothing, a start from Idle, or an end: a completion in the
engine's turn, or a reset. -/
theorem BlockMove.engine_cases {s : State} {b : Block} (m : BlockMove s b) :
    b.engine = s.block.engine ∨
    (∃ w, s.block.engine = .idle ∧ NextWrites s 0x008 w ∧ b.engine = .busy w ∧ b.lastCmd = w) ∨
    (b.engine = .idle ∧
      ((NextIsEngineTurn s ∧ (b.done = true ∨ b.err = true)) ∨ (NextResets s ∧ b = Block.reset))) := by
  cases m with
  | same => exact .inl rfl
  | dropped _ => exact .inl rfl
  | reset h => exact .inr (.inr ⟨rfl, .inr ⟨h, rfl⟩⟩)
  | status v _ => exact .inl rfl
  | irqEn v _ => exact .inl rfl
  | start w hi h => exact .inr (.inl ⟨w, hi, h, rfl, rfl⟩)
  | operand o v _ _ => exact .inl (writeOperand_engine _ _ _)
  | command i u _ _ h => exact .inr (.inr ⟨finish_engine _, .inl ⟨h, finish_recorded _⟩⟩)
  | illegal w _ _ h => exact .inr (.inr ⟨rfl, .inl ⟨h, .inr rfl⟩⟩)

/-- Settles O55: only a start makes an Idle engine Busy, and only an end takes a Busy one out of its command. -/
theorem engineRunsOneCommandAtATime : Obligations.EngineRunsOneCommandAtATime := by
  intro s t h
  rcases (step_blockMove h).engine_cases with hsame | ⟨w, hi, hwrite, hb, hlast⟩ | ⟨hidle, hend⟩
  · exact ⟨fun hi w hw => (by rw [hsame, hi] at hw; cases hw), fun w hb => .inl (hsame.trans hb)⟩
  · refine ⟨fun _ v hv => ?_, fun v hv => by rw [hi] at hv; cases hv⟩
    obtain rfl : w = v := Engine.busy.inj (hb.symm.trans hv)
    exact ⟨hwrite, hlast⟩
  · exact ⟨fun _ w hw => (by rw [hidle] at hw; cases hw), fun _ _ => .inr ⟨hidle, hend⟩⟩

/-! ### The destination write (R133, R204) -/

/-- Settles O29: the three outcomes of `put`; no address but the one written reads differently. -/
theorem emissionIsBoundedByCapacity : Obligations.EmissionIsBoundedByCapacity := by
  intro b s hwf
  rw [put_eq]
  refine ⟨fun hfull => if_pos hfull, fun hroom => ?_⟩
  rw [if_neg hroom]
  refine ⟨fun hok => ?_, fun hfail => ?_⟩
  · exact ⟨_, if_pos hok, rfl, Memory.read_write_same hwf _ _,
      fun a ha => Memory.read_write_other _ _ (by omega), .refl _⟩
  · exact ⟨_, if_neg (by simp [hfail]), rfl, rfl, .refl _⟩

end Sys2Proof.Machine
end

section
/-! SUPPORT. Two runs of one command, on memories that agree on its source, end alike (40_dispatch.md R134): said once
for each piece of a command. -/

namespace Sys2Proof.Machine

/-! ### Twin states -/

/-- Two states that one command has reached from `s₀` and from `u₀`: they have the same block and the same busOk, made
the same accesses since, and their memories agree on the source region of `s₀` and on the destination bytes put since
OUT_LEN was `first`. -/
structure Twins (first : Nat) (s₀ u₀ s u : State) : Prop where
  block : u.block = s.block
  busOk : ∀ a k, u.platform.busOk a k = s.platform.busOk a k
  wf : s.mem.wf = true ∧ u.mem.wf = true
  source : ∀ a, (srcRegion s₀.block).has a = true → u.mem.read a = s.mem.read a
  output : ∀ k, first ≤ k → k < s.block.outLen.toNat →
    u.mem.read (s.block.dstAddr.toNat + k) = s.mem.read (s.block.dstAddr.toNat + k)
  bus : ∃ new, s.bus = new ++ s₀.bus ∧ u.bus = new ++ u₀.bus

/-- Two results of a piece of a command: the same value or the same error, in states that `R` relates. -/
inductive ResTwins {α : Type} (R : State → State → Prop) : Res α → Res α → Prop where
  | ok {a : α} {s u : State} (h : R s u) : ResTwins R (.ok a s) (.ok a u)
  | raised {e : Err} {s u : State} (h : R s u) : ResTwins R (.raised e s) (.raised e u)

theorem ResTwins.andThen {α β : Type} {R : State → State → Prop} {r r' : Res α} {f g : α → State → Res β}
    (h : ResTwins R r r') (k : ∀ a s u, R s u → ResTwins R (f a s) (g a u)) :
    ResTwins R (r.andThen f) (r'.andThen g) := by
  cases h with
  | ok h => exact k _ _ _ h
  | raised h => exact .raised h

section
variable {first : Nat} {s₀ u₀ s u : State}

/-- The same new block, with OUT_LEN and DST_ADDR as they were. -/
theorem Twins.setBlock {b c : Block} (h : Twins first s₀ u₀ s u) (hbc : c = b)
    (hout : b.outLen = s.block.outLen) (hdst : b.dstAddr = s.block.dstAddr) :
    Twins first s₀ u₀ { s with block := b } { u with block := c } where
  block := hbc
  busOk := h.busOk
  wf := h.wf
  source := h.source
  output := by rw [hout, hdst]; exact h.output
  bus := h.bus

theorem Twins.noteBus (h : Twins first s₀ u₀ s u) (k : AccessKind) (a : Nat) :
    Twins first s₀ u₀ (noteBus k a s) (noteBus k a u) := by
  obtain ⟨new, hs, hu⟩ := h.bus
  exact ⟨h.block, h.busOk, h.wf, h.source, h.output, ⟨k, a⟩ :: new, congrArg _ hs, congrArg _ hu⟩

theorem Twins.setDecNode (h : Twins first s₀ u₀ s u) (v : NodeIx) :
    Twins first s₀ u₀ (setDecNode v s) (setDecNode v u) := h.setBlock (by rw [h.block]) rfl rfl

theorem Twins.setDecBits (h : Twins first s₀ u₀ s u) (v : Word) :
    Twins first s₀ u₀ (setDecBits v s) (setDecBits v u) := h.setBlock (by rw [h.block]) rfl rfl

theorem Twins.setTotalBits (h : Twins first s₀ u₀ s u) (v : Word) :
    Twins first s₀ u₀ (setTotalBits v s) (setTotalBits v u) := h.setBlock (by rw [h.block]) rfl rfl

theorem Twins.setFreq (h : Twins first s₀ u₀ s u) (t : Vector Word 256) :
    Twins first s₀ u₀ (setFreq t s) (setFreq t u) := h.setBlock (by rw [h.block]) rfl rfl

/-- One byte more: the same byte is written at the next place in both memories, so they agree there too. -/
theorem Twins.emit (h : Twins first s₀ u₀ s u) (b : Byte) :
    Twins first s₀ u₀
      (setOutLen (s.block.outLen + 1)
        { s with mem := s.mem.write (s.block.dstAddr.toNat + s.block.outLen.toNat) b })
      (setOutLen (s.block.outLen + 1)
        { u with mem := u.mem.write (s.block.dstAddr.toNat + s.block.outLen.toNat) b }) := by
  obtain ⟨hs, hu⟩ := h.wf
  have agree : ∀ a, (a ≠ s.block.dstAddr.toNat + s.block.outLen.toNat → u.mem.read a = s.mem.read a) →
      (u.mem.write (s.block.dstAddr.toNat + s.block.outLen.toNat) b).read a =
        (s.mem.write (s.block.dstAddr.toNat + s.block.outLen.toNat) b).read a := by
    intro a ha
    rw [Memory.read_write hs, Memory.read_write hu]
    split
    · rfl
    · exact ha ‹_›
  refine ⟨by simp [h.block], h.busOk, ⟨Memory.wf_write hs _ _, Memory.wf_write hu _ _⟩,
    fun a ha => agree a fun _ => h.source a ha, fun k hfirst hk => agree _ fun hne => h.output k hfirst ?_, h.bus⟩
  have hle : (s.block.outLen + 1).toNat ≤ s.block.outLen.toNat + 1 := by
    rw [BitVec.toNat_add]; exact Nat.mod_le _ _
  have hk : k < (s.block.outLen + 1).toNat := hk
  have hne : s.block.dstAddr.toNat + k ≠ s.block.dstAddr.toNat + s.block.outLen.toNat := hne
  omega

/-! ### Accesses (R83, R133) -/

theorem busRead_twins (h : Twins first s₀ u₀ s u) {a : Nat} (ha : (srcRegion s₀.block).has a = true) :
    ResTwins (Twins first s₀ u₀) (busRead a s) (busRead a u) := by
  rw [busRead_eq, busRead_eq, h.busOk, h.source a ha]
  split
  · exact .ok (h.noteBus _ _)
  · exact .raised (h.noteBus _ _)

theorem put_twins (h : Twins first s₀ u₀ s u) (b : Byte) :
    ResTwins (Twins first s₀ u₀) (put b s) (put b u) := by
  rw [put_eq, put_eq, h.block, h.busOk]
  split
  · exact .raised h
  · split
    · exact .ok ((h.noteBus _ _).emit b)
    · exact .raised (h.noteBus _ _)

/-! ### ENCODE -/

theorem packBit_twins (h : Twins first s₀ u₀ s u) (bit : Bool) (p : Packer) :
    ResTwins (Twins first s₀ u₀) (packBit bit p s) (packBit bit p u) := by
  unfold packBit
  split
  · exact (put_twins h _).andThen fun _ _ _ h => .ok h
  · exact .ok h

theorem packBits_twins (h : Twins first s₀ u₀ s u) (bits : List Bool) (p : Packer) :
    ResTwins (Twins first s₀ u₀) (packBits bits p s) (packBits bits p u) := by
  induction bits generalizing p s u with
  | nil => exact .ok h
  | cons b rest ih => exact (packBit_twins h b p).andThen fun q _ _ h => ih h q

theorem packSymbol_twins (h : Twins first s₀ u₀ s u) (j : Nat) (sym : Byte) (p : Packer) :
    ResTwins (Twins first s₀ u₀) (packSymbol j sym p s) (packSymbol j sym p u) := by
  unfold packSymbol
  rw [h.block]
  split
  · exact .raised h
  · split
    · exact .raised h
    · exact packBits_twins h _ p

theorem packLoop_twins (h : Twins first s₀ u₀ s u) {base remaining j : Nat} (p : Packer)
    (hsrc : ∀ k, j ≤ k → k < j + remaining → (srcRegion s₀.block).has (base + k) = true) :
    ResTwins (Twins first s₀ u₀) (packLoop base remaining j p s) (packLoop base remaining j p u) := by
  induction remaining generalizing j p s u with
  | zero => exact .ok h
  | succ n ih =>
    rw [packLoop_succ, packLoop_succ]
    refine (busRead_twins h (hsrc j (by omega) (by omega))).andThen fun sym _ _ h => ?_
    refine (packSymbol_twins h j sym p).andThen fun q _ _ h => ?_
    exact ih h q fun k h₁ h₂ => hsrc k (by omega) (by omega)

theorem packTail_twins (h : Twins first s₀ u₀ s u) (p : Packer) :
    ResTwins (Twins first s₀ u₀) (packTail p s) (packTail p u) := by
  unfold packTail
  split
  · exact put_twins h _
  · exact .ok h

theorem pack_twins (h : Twins first s₀ u₀ s u) {base n : Nat}
    (hsrc : ∀ k, k < n → (srcRegion s₀.block).has (base + k) = true) :
    ResTwins (Twins first s₀ u₀) (pack base n s) (pack base n u) := by
  refine (packLoop_twins h Packer.empty fun k _ hk => hsrc k (by omega)).andThen fun p _ _ h => ?_
  exact (packTail_twins h p).andThen fun _ _ _ h => .ok (h.setTotalBits _)

/-! ### DECODE -/

theorem fetchByte_twins (h : Twins first s₀ u₀ s u) {base i : Nat} (kept : Byte)
    (hsrc : (srcRegion s₀.block).has (base + i / 8) = true) :
    ResTwins (Twins first s₀ u₀) (fetchByte base i kept s) (fetchByte base i kept u) := by
  unfold fetchByte
  split
  · exact busRead_twins h hsrc
  · exact .ok h

theorem singleLeafBit_twins (h : Twins first s₀ u₀ s u) (r : NodeIx) (i : Nat) (bit : Bool) (c : Cursor) :
    ResTwins (Twins first s₀ u₀) (singleLeafBit r i bit c s) (singleLeafBit r i bit c u) := by
  unfold singleLeafBit
  rw [h.block]
  split
  · exact .raised h
  · exact (put_twins h _).andThen fun _ _ _ h => .ok h

theorem treeBit_twins (h : Twins first s₀ u₀ s u) (r : NodeIx) (i : Nat) (bit : Bool) (c : Cursor) :
    ResTwins (Twins first s₀ u₀) (treeBit r i bit c s) (treeBit r i bit c u) := by
  unfold treeBit
  rw [h.block]
  simp only
  split
  · exact (put_twins (h.setDecNode _) _).andThen fun _ _ _ h => .ok (h.setDecNode _)
  · exact .ok (h.setDecNode _)

theorem decodeBit_twins (h : Twins first s₀ u₀ s u) {base i : Nat} (r : NodeIx) (c : Cursor)
    (hsrc : (srcRegion s₀.block).has (base + i / 8) = true) :
    ResTwins (Twins first s₀ u₀) (decodeBit base r i c s) (decodeBit base r i c u) := by
  refine (fetchByte_twins h c.byte hsrc).andThen fun byte t v h => ?_
  have h := h.setDecBits (BitVec.ofNat 32 (i + 1))
  simp only
  rw [h.block]
  split
  · exact singleLeafBit_twins h _ _ _ _
  · exact treeBit_twins h _ _ _ _

theorem decodeLoop_twins (h : Twins first s₀ u₀ s u) {base remaining i : Nat} (r : NodeIx) (c : Cursor)
    (hsrc : ∀ k, i ≤ k → k < i + remaining → (srcRegion s₀.block).has (base + k / 8) = true) :
    ResTwins (Twins first s₀ u₀) (decodeLoop base r remaining i c s) (decodeLoop base r remaining i c u) := by
  induction remaining generalizing i c s u with
  | zero => exact .ok h
  | succ n ih =>
    refine (decodeBit_twins h r c (hsrc i (by omega) (by omega))).andThen fun d _ _ h => ?_
    exact ih h d fun k h₁ h₂ => hsrc k (by omega) (by omega)

theorem walkBits_twins (h : Twins first s₀ u₀ s u) {base tb : Nat} (r : NodeIx)
    (hsrc : ∀ k, k < tb → (srcRegion s₀.block).has (base + k / 8) = true) :
    ResTwins (Twins first s₀ u₀) (walkBits base r tb s) (walkBits base r tb u) := by
  refine (decodeLoop_twins h r _ fun k _ hk => hsrc k (by omega)).andThen fun c _ _ h => ?_
  split
  · exact .ok h
  · exact .raised h

/-! ### FREQ_COUNT -/

/-- The counting loop as pieces that go on from one another. -/
theorem countLoop_succ (base remaining j : Nat) (f : Vector Word 256) (s : State) :
    countLoop base (remaining + 1) j f s = (busRead (base + j) s).andThen fun b t =>
      if entry f b = Config.countMax then .raised ⟨.freqRange, b.zeroExtend 32⟩ t
      else countLoop base remaining (j + 1) (setEntry f b (entry f b + 1)) t := by
  rw [countLoop]
  cases busRead (base + j) s <;> rfl

theorem countLoop_twins (h : Twins first s₀ u₀ s u) {base remaining j : Nat} (f : Vector Word 256)
    (hsrc : ∀ k, j ≤ k → k < j + remaining → (srcRegion s₀.block).has (base + k) = true) :
    ResTwins (Twins first s₀ u₀) (countLoop base remaining j f s) (countLoop base remaining j f u) := by
  induction remaining generalizing j f s u with
  | zero => exact .ok h
  | succ n ih =>
    rw [countLoop_succ, countLoop_succ]
    refine (busRead_twins h (hsrc j (by omega) (by omega))).andThen fun b _ _ h => ?_
    split
    · exact .raised h
    · exact ih h _ fun k h₁ h₂ => hsrc k (by omega) (by omega)

/-! ### Rules and completion -/

theorem finish_twins {r r' : Res Unit} (h : ResTwins (Twins first s₀ u₀) r r') :
    Twins first s₀ u₀ (finish r) (finish r') := by
  cases h with
  | ok h => exact h.setBlock (by rw [h.block]) rfl rfl
  | raised h => exact h.setBlock (by rw [h.block]) rfl rfl

end

/-- Two states that start a command with the same block, the same busOk and the same source bytes: the premise of R134. -/
structure StartTwins (s u : State) : Prop where
  block : u.block = s.block
  busOk : ∀ a k, u.platform.busOk a k = s.platform.busOk a k
  wf : s.mem.wf = true ∧ u.mem.wf = true
  source : ∀ a, (srcRegion s.block).has a = true → u.mem.read a = s.mem.read a

section
variable {s u : State}

/-- Nothing is put yet: with a block whose OUT_LEN is `first`, start twins are twins. -/
theorem StartTwins.setBlock {first : Nat} {b c : Block} (h : StartTwins s u) (hbc : c = b)
    (hfirst : b.outLen.toNat = first) : Twins first s u { s with block := b } { u with block := c } where
  block := hbc
  busOk := h.busOk
  wf := h.wf
  source := h.source
  output := fun _ h₁ h₂ => absurd h₂ (Nat.not_lt_of_le (hfirst.trans_le h₁))
  bus := ⟨[], rfl, rfl⟩

theorem StartTwins.twins (h : StartTwins s u) : Twins s.block.outLen.toNat s u s u := h.setBlock h.block rfl

theorem encodeRule_twins (h : StartTwins s u) : ResTwins (Twins 0 s u) (encodeRule s) (encodeRule u) := by
  have hstart : Twins 0 s u (setOutLen 0 s) (setOutLen 0 u) := h.setBlock (by rw [h.block]) rfl
  unfold encodeRule
  rw [h.block]
  split
  · exact .raised hstart
  · split
    · exact .raised hstart
    · cases checkRegions s.block with
      | some e => exact .raised hstart
      | none => exact pack_twins hstart fun k hk => srcRegion_has hk

theorem decodeRule_twins (h : StartTwins s u) : ResTwins (Twins 0 s u) (decodeRule s) (decodeRule u) := by
  have hstart : Twins 0 s u (decodeStart s) (decodeStart u) := h.setBlock (by rw [h.block]) rfl
  unfold decodeRule
  rw [h.block]
  split
  · exact .raised hstart
  · split
    · exact .raised hstart
    · rename_i hbits
      cases checkRegions s.block with
      | some e => exact .raised hstart
      | none =>
        refine walkBits_twins hstart _ fun k hk => srcRegion_has ?_
        simp only [neededBytes, ceilDiv8] at hbits
        omega

theorem freqCountRule_twins (h : StartTwins s u) :
    ResTwins (Twins s.block.outLen.toNat s u) (freqCountRule s) (freqCountRule u) := by
  have hstart := h.twins.setFreq zeroFreq
  unfold freqCountRule
  rw [h.block]
  split
  · exact .raised hstart
  · cases checkSrc s.block with
    | some e => exact .raised hstart
    | none =>
      refine (countLoop_twins hstart zeroFreq fun k _ hk => srcRegion_has (by omega)).andThen fun f _ _ h => ?_
      exact .ok (h.setFreq f)

theorem buildTreeRule_twins (h : StartTwins s u) :
    ResTwins (Twins s.block.outLen.toNat s u) (buildTreeRule s) (buildTreeRule u) := by
  unfold buildTreeRule
  rw [h.block]
  cases checkFreqRange s.block.freq with
  | some e => exact .raised h.twins
  | none =>
    simp only [require_none, Res.andThen_ok]
    rw [h.block]
    split
    · exact .raised h.twins
    · exact .ok (h.setBlock (by rw [h.block]) rfl)

theorem genCodesRule_twins (h : StartTwins s u) :
    ResTwins (Twins s.block.outLen.toNat s u) (genCodesRule s) (genCodesRule u) := by
  unfold genCodesRule
  rw [h.block]
  split
  · exact .ok (h.setBlock (by rw [h.block]) rfl)
  · exact .raised h.twins

/-- Every command ends alike from start twins; ENCODE and DECODE put their bytes from OUT_LEN = 0 on (R185, R201). -/
theorem rule_twins (i : Instr) (h : StartTwins s u) :
    ∃ first, ResTwins (Twins first s u) (rule i s) (rule i u) ∧ (i = .encode ∨ i = .decode → first = 0) := by
  cases i with
  | freqClear => exact ⟨_, .ok (h.twins.setFreq zeroFreq), nofun⟩
  | freqCount => exact ⟨_, freqCountRule_twins h, nofun⟩
  | buildTree => exact ⟨_, buildTreeRule_twins h, nofun⟩
  | genCodes => exact ⟨_, genCodesRule_twins h, nofun⟩
  | encode => exact ⟨_, encodeRule_twins h, fun _ => rfl⟩
  | decode => exact ⟨_, decodeRule_twins h, fun _ => rfl⟩

end

/-- Settles O34: the two runs end as twins. -/
theorem outcomeDependsOnSourceAlone : Obligations.OutcomeDependsOnSourceAlone := by
  intro i s u hs hu hblock hbusOk hsource
  obtain ⟨first, hrule, hfirst⟩ :=
    rule_twins i ⟨hblock.symm, fun a k => (hbusOk a k).symm, ⟨hs, hu⟩, fun a ha => (hsource a ha).symm⟩
  have h := finish_twins hrule
  obtain ⟨new, hbusL, hbusR⟩ := h.bus
  refine ⟨_, _, new, exec_eq i s, exec_eq i u, h.block.symm, hbusL, hbusR, fun hi k hk => ?_⟩
  obtain ⟨-, -, -, -, -, -, hdst, -⟩ := finish_rule_sameHostRegisters i s
  rw [← hdst]
  exact (h.output k ((hfirst hi).trans_le (Nat.zero_le k)) hk).symm

end Sys2Proof.Machine
end

section
/-! SUPPORT. The frequency commands: the table FREQ_COUNT holds after any number of source bytes, and from it how the
command ends; what FREQ_CLEAR does from its CMD write on (41_frequency.md R140 to R143). -/

namespace Sys2Proof.Machine

/-! ### The histogram of a list of bytes -/

/-- One more occurrence of a byte value. -/
def countByte (f : Vector Word 256) (b : Byte) : Vector Word 256 := setEntry f b (entry f b + 1)

/-- The counters after the bytes of a list were counted from zero on. -/
def histogram (l : List Byte) : Vector Word 256 := l.foldl countByte zeroFreq

theorem histogram_append_singleton (l : List Byte) (b : Byte) :
    histogram (l ++ [b]) = countByte (histogram l) b := by
  rw [histogram, List.foldl_append]
  rfl

/-- Each counter is the number of occurrences of its byte, modulo 2^32. -/
theorem entry_histogram (l : List Byte) (b : Byte) : entry (histogram l) b = BitVec.ofNat 32 (l.count b) := by
  induction l using List.reverseRecOn with
  | nil => exact entry_zeroFreq b
  | append_singleton l c ih =>
    rw [histogram_append_singleton, countByte, entry_setEntry, List.count_append, List.count_singleton]
    by_cases h : b = c
    · subst h
      rw [if_pos rfl, ih, beq_self_eq_true, if_pos rfl, BitVec.ofNat_add]
      rfl
    · rw [if_neg h, ih, if_neg (by simpa using Ne.symm h), Nat.add_zero]

theorem toNat_entry_histogram {l : List Byte} {b : Byte} (h : l.count b ≤ 2147483647) :
    (entry (histogram l) b).toNat = l.count b := by
  rw [entry_histogram, BitVec.toNat_ofNat]
  omega

/-- A counter stands at COUNT_MAX exactly where its byte has occurred 2^31 - 1 times. -/
theorem entry_histogram_eq_countMax {l : List Byte} {b : Byte} (h : l.count b ≤ 2147483647) :
    entry (histogram l) b = Config.countMax ↔ l.count b = 2147483647 := by
  rw [← BitVec.toNat_inj, toNat_entry_histogram h]
  rfl

theorem nodup_allBytes : allBytes.Nodup := allBytes_ascending.imp fun h he => by rw [he] at h; exact h.ne rfl

/-- Every byte of a list is counted under one byte value (R143). -/
theorem freqSum_histogram {l : List Byte} (h : ∀ b : Byte, l.count b ≤ 2147483647) :
    freqSum (histogram l) = l.length := by
  calc freqSum (histogram l)
      = (allBytes.map fun b => l.count b).sum :=
        congrArg List.sum (List.map_congr_left fun b _ => toNat_entry_histogram (h b))
    _ = ∑ b ∈ allBytes.toFinset, l.count b := (List.sum_toFinset (l.count ·) nodup_allBytes).symm
    _ = l.length := by
        simpa only [Multiset.coe_count, Multiset.coe_card] using
          Multiset.sum_count_eq_card (m := (l : Multiset Byte)) fun b _ => List.mem_toFinset.mpr (mem_allBytes b)

/-! ### The counting loop (R142) -/

/-- The state after the reads of the first `n` bytes from `base` on: only the record of accesses has grown. -/
def noteReads (base n : Nat) (s : State) : State :=
  { s with bus := ((List.range n).map fun j => (⟨.read, base + j⟩ : BusAccess)).reverse ++ s.bus }

theorem noteReads_succ (base n : Nat) (s : State) :
    noteReads base (n + 1) s = noteBus .read (base + n) (noteReads base n s) := by
  simp [noteReads, noteBus, List.range_succ]

/-- A pass on a byte that can be read and whose counter is below COUNT_MAX. -/
theorem countLoop_counts {base j : Nat} {f : Vector Word 256} {s : State} (m : Nat)
    (hread : s.platform.busOk (base + j) .read = true) (hf : entry f (s.mem.read (base + j)) ≠ Config.countMax) :
    countLoop base (m + 1) j f s =
      countLoop base m (j + 1) (countByte f (s.mem.read (base + j))) (noteBus .read (base + j) s) := by
  rw [countLoop_succ, busRead_eq, if_pos hread, Res.andThen_ok, if_neg hf, countByte]

/-- A pass on a byte that cannot be read: BUS_ERROR with its address. -/
theorem countLoop_busError {base j : Nat} {f : Vector Word 256} {s : State} (m : Nat)
    (hread : s.platform.busOk (base + j) .read = false) :
    countLoop base (m + 1) j f s =
      .raised ⟨.busError, BitVec.ofNat 32 (base + j)⟩ (noteBus .read (base + j) s) := by
  rw [countLoop_succ, busRead_eq, if_neg (by simp [hread]), Res.andThen_raised]

/-- A pass on a byte whose counter stands at COUNT_MAX: FREQ_RANGE with the byte. -/
theorem countLoop_freqRange {base j : Nat} {f : Vector Word 256} {s : State} (m : Nat)
    (hread : s.platform.busOk (base + j) .read = true) (hf : entry f (s.mem.read (base + j)) = Config.countMax) :
    countLoop base (m + 1) j f s =
      .raised ⟨.freqRange, (s.mem.read (base + j)).zeroExtend 32⟩ (noteBus .read (base + j) s) := by
  rw [countLoop_succ, busRead_eq, if_pos hread, Res.andThen_ok, if_pos hf]

/-- Where `n` bytes can be read and none of their counts passes COUNT_MAX, the loop gets past them with their histogram
in its counters. -/
theorem countLoop_counted {base n : Nat} {s : State} (m : Nat)
    (hread : ∀ j, j < n → s.platform.busOk (base + j) .read = true)
    (hcount : ∀ b : Byte, (s.mem.bytes base n).count b ≤ 2147483647) :
    countLoop base (n + m) 0 zeroFreq s =
      countLoop base m n (histogram (s.mem.bytes base n)) (noteReads base n s) := by
  induction n generalizing m with
  | zero =>
    rw [Nat.zero_add]
    rfl
  | succ n ih =>
    have hsplit : ∀ b : Byte, (s.mem.bytes base (n + 1)).count b =
        (s.mem.bytes base n).count b + [s.mem.read (base + n)].count b := fun b => by
      rw [Memory.bytes_succ, List.count_append]
    have hbefore : ∀ b : Byte, (s.mem.bytes base n).count b ≤ 2147483647 := fun b => by
      have := hcount b
      rw [hsplit] at this
      omega
    have hbelow : (s.mem.bytes base n).count (s.mem.read (base + n)) ≠ 2147483647 := by
      have := hcount (s.mem.read (base + n))
      rw [hsplit, List.count_singleton_self] at this
      omega
    rw [Nat.add_right_comm, Nat.add_assoc, ih (m + 1) (fun j hj => hread j (by omega)) hbefore,
      countLoop_counts (s := noteReads base n s) m (hread n (by omega))
        (mt (entry_histogram_eq_countMax (hbefore _)).mp hbelow),
      noteReads_succ, Memory.bytes_succ, histogram_append_singleton]
    rfl

/-! ### FREQ_COUNT (R142, R143) -/

/-- FREQ_COUNT on a legal source, with `n` source bytes counted and `m` still to come. -/
theorem freqCountRule_counted {s : State} {n m : Nat} (hsize : s.block.srcLen.toNat = n + m)
    (hlen : s.block.srcLen ≠ 0) (hin : s.block.srcAddr.toNat + s.block.srcLen.toNat ≤ 4294967296)
    (hread : SourceReadable s n) (hcount : ∀ b : Byte, (sourcePrefix s n).count b ≤ 2147483647) :
    freqCountRule s =
      (countLoop s.block.srcAddr.toNat m n (histogram (sourcePrefix s n))
        (noteReads s.block.srcAddr.toNat n (setFreq zeroFreq s))).andThen fun h u => .ok () (setFreq h u) := by
  rw [freqCountRule, if_neg hlen, checkSrc_eq_none.mpr hin, require_none, Res.andThen_ok, hsize]
  exact congrArg (Res.andThen · _) (countLoop_counted (s := setFreq zeroFreq s) m hread hcount)

/-- The rule of a FREQ_COUNT that succeeds: every source byte is read and their histogram is in FREQ. -/
theorem freqCountRule_ok {s : State} (hlen : s.block.srcLen ≠ 0)
    (hin : s.block.srcAddr.toNat + s.block.srcLen.toNat ≤ 4294967296) (hread : SourceReadable s s.block.srcLen.toNat)
    (hcount : ∀ b : Byte, (sourceBytes s).count b ≤ 2147483647) :
    freqCountRule s = .ok () (setFreq (histogram (sourceBytes s))
      (noteReads s.block.srcAddr.toNat s.block.srcLen.toNat (setFreq zeroFreq s))) :=
  freqCountRule_counted (m := 0) rfl hlen hin hread hcount

/-- FREQ_COUNT completes as its rule ended. -/
theorem exec_freqCount_of_rule {s : State} {r : Res Unit} (h : freqCountRule s = r) :
    exec .freqCount s = .next (finish r) := by
  rw [exec_eq, rule, h]

/-- Settles O9: the counters are the histogram of the bytes read, and at the end that is all of them. -/
theorem freqCountIsHistogram : Obligations.FreqCountIsHistogram := by
  intro s hlen hin hread hcount
  have hentry : ∀ b : Byte, (entry (histogram (sourceBytes s)) b).toNat = (sourceBytes s).count b :=
    fun b => toNat_entry_histogram (hcount b)
  refine ⟨_, exec_freqCount_of_rule (freqCountRule_ok hlen hin hread hcount), hentry, ?_, fun b => ?_, rfl, rfl,
    .refl s, rfl⟩
  · exact (freqSum_histogram hcount).trans (Memory.length_bytes _ _ _)
  · exact (hentry b).symm ▸ List.one_le_count_iff

/-- Settles O10: the two checks come before the loop, and the loop reaches byte `j` with the histogram of those before
it. -/
theorem freqCountErrorsLeaveZeroTable : Obligations.FreqCountErrorsLeaveZeroTable := by
  intro s
  refine ⟨fun hlen => ?_, fun hlen hout => ?_, fun hin j hj hread hcount => ?_⟩
  · rw [exec_eq, rule, freqCountRule, if_pos hlen]
    rfl
  · rw [exec_eq, rule, freqCountRule, if_neg hlen, checkSrc, Config.spaceEnd, if_pos hout]
    rfl
  · have hlen : s.block.srcLen ≠ 0 := fun h => by rw [h] at hj; exact absurd hj (Nat.not_lt_zero j)
    obtain ⟨m, hsize⟩ := Nat.exists_eq_add_of_lt hj
    have hrule := freqCountRule_counted (m := m + 1) hsize hlen hin hread hcount
    refine ⟨fun hbus => ?_, fun hbus hmax => ?_⟩
    · rw [countLoop_busError (s := noteReads _ j (setFreq zeroFreq s)) m hbus, Res.andThen_raised] at hrule
      exact ⟨_, exec_freqCount_of_rule hrule, rfl, rfl, .refl s⟩
    · have hfull := (entry_histogram_eq_countMax (hcount _)).mpr hmax
      rw [countLoop_freqRange (s := noteReads _ j (setFreq zeroFreq s)) m hbus hfull, Res.andThen_raised] at hrule
      exact ⟨_, exec_freqCount_of_rule hrule, rfl, rfl, .refl s⟩

/-! ### FREQ_CLEAR (R126, R140) -/

/-- Settles O8: the start refuses nothing and overtakes no copy, since FREQ_CLEAR touches no memory. -/
theorem freqClearZeroesTable : Obligations.FreqClearZeroesTable := by
  intro s hi
  have hclean : sourceUnwritten 0x00000001#32 s = false := by
    rw [sourceUnwritten, show touchesMemory 0x00000001#32 = false from rfl, Bool.and_false, Bool.false_and]
  have hwrite := (regAccess_cmd_idle hi 0x00000001#32).trans (if_neg (by simp [hclean]))
  refine ⟨_, hwrite, by rw [exec_eq]; rfl, ?_, ?_⟩
  · exact (overtakeCopies_none (.inr (.inr (by decide)))).1
  · exact startCommand_bus _ _

end Sys2Proof.Machine
end


section
/-! SUPPORT. BUILD_TREE as a whole: which FREQ tables it refuses, what it writes for the others, and that the tree is a
function of FREQ (42_tree_builder.md R150, R151, R155, R156). -/

namespace Sys2Proof.Machine

/-! ### The count range check (R151) -/

theorem countMax_lt_iff {c : Word} : Config.countMax < c ↔ 2147483647 < c.toNat := Iff.rfl

/-- The check passes exactly when no count passes COUNT_MAX. -/
theorem checkFreqRange_eq_none {freq : Vector Word 256} :
    checkFreqRange freq = none ↔ ∀ b : Byte, (entry freq b).toNat ≤ 2147483647 := by
  have hfind : checkFreqRange freq = none ↔
      allBytes.find? (fun s => decide (Config.countMax < entry freq s)) = none := by
    unfold checkFreqRange
    split <;> simp_all
  simp [hfind, countMax_lt_iff, mem_allBytes]

/-- The check reports the first byte value whose count passes COUNT_MAX. -/
theorem checkFreqRange_eq_some {freq : Vector Word 256} {b : Byte} (hb : 2147483647 < (entry freq b).toNat)
    (hbefore : ∀ c : Byte, c.toNat < b.toNat → (entry freq c).toNat ≤ 2147483647) :
    checkFreqRange freq = some ⟨.freqRange, b.zeroExtend 32⟩ := by
  obtain ⟨before, after, hsplit⟩ := List.append_of_mem (mem_allBytes b)
  have hsorted := allBytes_ascending
  rw [hsplit, List.pairwise_append] at hsorted
  obtain ⟨-, -, hlt⟩ := hsorted
  have hfind : allBytes.find? (fun s => decide (Config.countMax < entry freq s)) = some b := by
    refine List.find?_eq_some_iff_append.mpr
      ⟨by simpa [countMax_lt_iff] using hb, before, after, hsplit, fun c hc => ?_⟩
    simpa [countMax_lt_iff] using hbefore c (hlt c hc b List.mem_cons_self)
  rw [checkFreqRange, hfind]

/-! ### The leaves of a table (R152, R155) -/

/-- One leaf for each counted byte value. -/
theorem leaves_eq_map (freq : Vector Word 256) :
    leaves freq = (allBytes.filter fun s => entry freq s ≠ 0).map fun s => leafNode s (entry freq s) := by
  rw [← List.filterMap_eq_map, List.filterMap_filter]
  refine List.filterMap_congr fun s _ => ?_
  by_cases h : entry freq s = 0 <;> simp [h]

theorem length_leaves (freq : Vector Word 256) : (leaves freq).length = distinctSymbols freq := by
  rw [leaves_eq_map, List.length_map, distinctSymbols]

theorem leaves_ne_nil_iff {freq : Vector Word 256} : leaves freq ≠ [] ↔ 1 ≤ distinctSymbols freq := by
  rw [← length_leaves]
  exact List.length_pos_iff.symm

theorem leaves_prefix_buildArena (freq : Vector Word 256) : leaves freq <+: buildArena freq := mergeLoop_prefix _ _ _

/-- A table without counts has no leaf. -/
theorem leaves_eq_nil {freq : Vector Word 256} (h : ∀ b : Byte, entry freq b = 0) : leaves freq = [] := by
  simp [leaves_eq_map, h]

/-- A table with one counted byte value has one leaf (R155). -/
theorem leaves_eq_singleton {freq : Vector Word 256} {b : Byte} (hb : entry freq b ≠ 0)
    (hothers : ∀ c : Byte, c ≠ b → entry freq c = 0) : leaves freq = [leafNode b (entry freq b)] := by
  have hcounted : ∀ c : Byte, decide (entry freq c ≠ 0) = (c == b) := fun c => by
    by_cases hc : c = b
    · subst hc; simpa using hb
    · simp [hc, hothers c hc]
  rw [leaves_eq_map, List.filter_congr fun c _ => hcounted c, List.filter_beq,
    List.count_eq_one_of_mem nodup_allBytes (mem_allBytes b)]
  rfl

/-! ### How BUILD_TREE ends (R150) -/

theorem exec_buildTree_ok {s : State} (hrange : checkFreqRange s.block.freq = none)
    (hleaves : leaves s.block.freq ≠ []) : exec .buildTree s =
      .next (completeOk (writeTree (buildArena s.block.freq) (leaves s.block.freq).length s)) := by
  rw [exec_eq, rule, buildTreeRule, hrange, require_none, Res.andThen_ok, if_neg hleaves]
  rfl

theorem exec_buildTree_freqRange {s : State} {e : Err} (h : checkFreqRange s.block.freq = some e) :
    exec .buildTree s = .next (raise e s) := by
  rw [exec_eq, rule, buildTreeRule, h]
  rfl

theorem exec_buildTree_treeEmpty {s : State} (hrange : checkFreqRange s.block.freq = none)
    (hleaves : leaves s.block.freq = []) : exec .buildTree s = .next (raise ⟨.treeEmpty, 0⟩ s) := by
  rw [exec_eq, rule, buildTreeRule, hrange, require_none, Res.andThen_ok, if_pos hleaves]
  rfl

theorem toNat_slotIndex {i : Nat} (h : i < 511) : (BitVec.ofNat 9 i).toNat = i := by
  rw [BitVec.toNat_ofNat]
  omega

/-- The slots past the tree are not written (log 24). -/
theorem slot_writeTree_of_le {arena : List Node} {n i : Nat} {s : State} (h : arena.length ≤ i) (hi : i < 511) :
    slot (writeTree arena n s).block i = slot s.block i := by
  have hold : slot s.block i = s.block.node[i] := by simp [slot, nodeAt, toNat_slotIndex hi, hi]
  exact (slot_overlay arena s.block.node hi).trans ((if_neg (by omega)).trans hold.symm)

/-- Settles O11: the leaves number the counted byte values, and the arena one less than twice that. -/
theorem buildTreeCompletes : Obligations.BuildTreeCompletes := by
  intro s hcounts hsome
  have hrange := checkFreqRange_eq_none.mpr hcounts
  have hleaves := leaves_ne_nil_iff.mpr hsome
  have hlen := length_buildArena hleaves
  rw [length_leaves] at hlen
  refine ⟨_, exec_buildTree_ok hrange hleaves, ?_,
    fun i hi h511 => slot_writeTree_of_le (n := (leaves s.block.freq).length) (by omega) h511,
    treeInv_completeOk.mpr (treeInv_writeTree hrange hleaves), rfl, rfl, .refl s⟩
  rw [show 2 * distinctSymbols s.block.freq - 1 = (buildArena s.block.freq).length by omega,
    show 2 * distinctSymbols s.block.freq - 2 = (buildArena s.block.freq).length - 1 by omega, ← length_leaves]
  rfl

/-- Settles O12: the range check comes first and finds the smallest byte value; without counts there is no leaf. -/
theorem buildTreeRefusesBadTables : Obligations.BuildTreeRefusesBadTables := by
  intro s
  refine ⟨fun b hb hbefore => exec_buildTree_freqRange (checkFreqRange_eq_some hb hbefore), fun hzero => ?_⟩
  exact exec_buildTree_treeEmpty (checkFreqRange_eq_none.mpr fun b => by simp [hzero b]) (leaves_eq_nil hzero)

/-- Settles O16: O11 with one leaf, which the merge loop keeps as node 0. -/
theorem singleSymbolGivesSingleLeaf : Obligations.SingleSymbolGivesSingleLeaf := by
  intro s b hb hmax hothers
  have hleaves := leaves_eq_singleton hb hothers
  have hone : distinctSymbols s.block.freq = 1 := by rw [← length_leaves, hleaves]; rfl
  have hcounts : ∀ c : Byte, (entry s.block.freq c).toNat ≤ 2147483647 := fun c => by
    by_cases hc : c = b
    · rwa [hc]
    · simp [hothers c hc]
  obtain ⟨t, hexec, hblock, hslots, htree, -⟩ := buildTreeCompletes s hcounts hone.ge
  rw [hone] at hblock hslots
  have hvalid : t.block.treeValid = true := by rw [hblock]
  have hfreq : t.block.freq = s.block.freq := by rw [hblock]
  obtain ⟨-, -, -, -, -, -, hslot⟩ := treeInv_slots hvalid htree
  rw [hfreq, hleaves] at hslot
  have hroot : slot t.block 0 = leafNode b (entry s.block.freq b) := by
    rw [hslot 0 Nat.one_pos, arenaAt_prefix (leaves_prefix_buildArena _) (by simp [hleaves]), hleaves]
    rfl
  exact ⟨t, hexec, by rw [hblock], by rw [hblock], by rw [hblock], hroot, hslots, hvalid, by rw [hblock]⟩

/-! ### The tree is a function of FREQ (R156) -/

/-- Two valid trees over one FREQ table are the same tree. -/
theorem treeInv_unique {b c : Block} (hfreq : b.freq = c.freq) (hb : b.treeValid = true) (hc : c.treeValid = true)
    (tb : treeInv b) (tc : treeInv c) :
    b.nleaf = c.nleaf ∧ b.nnode = c.nnode ∧ b.root = c.root ∧ ∀ i, i < b.nnode.toNat → slot b i = slot c i := by
  obtain ⟨-, -, hlen, -, hnnode, -, -⟩ := treeInv_slots hb tb
  obtain ⟨-, -, bleaf, bnode, broot, bslots⟩ := tb hb
  obtain ⟨-, -, cleaf, cnode, croot, cslots⟩ := tc hc
  rw [← hfreq] at cleaf cnode croot cslots
  refine ⟨bleaf.trans cleaf.symm, bnode.trans cnode.symm, broot.trans croot.symm, fun i hi => ?_⟩
  have hi' : i < (buildArena b.freq).length := by omega
  exact (bslots i hi').trans (cslots i hi').symm

/-- A BUILD_TREE leaves the tables as TREE_VALID says, and FREQ alone decides whether it builds. -/
theorem exec_buildTree_tables {s : State} (hs : s.block.treeValid = false) :
    ∃ t, exec .buildTree s = .next t ∧ t.block.freq = s.block.freq ∧ treeInv t.block ∧
      (t.block.treeValid = true ↔ checkFreqRange s.block.freq = none ∧ leaves s.block.freq ≠ []) := by
  cases hrange : checkFreqRange s.block.freq with
  | some e => exact ⟨_, exec_buildTree_freqRange hrange, rfl, treeInv_of_clear hs, by simp [hs]⟩
  | none =>
    by_cases hleaves : leaves s.block.freq = []
    · exact ⟨_, exec_buildTree_treeEmpty hrange hleaves, rfl, treeInv_of_clear hs, by simp [hs, hleaves]⟩
    · exact ⟨_, exec_buildTree_ok hrange hleaves, rfl, treeInv_completeOk.mpr (treeInv_writeTree hrange hleaves),
        iff_of_true rfl ⟨rfl, hleaves⟩⟩

/-- Settles O15: FREQ alone decides whether a tree is built, and a valid tree is the one of its FREQ. -/
theorem treeDependsOnFreqAlone : Obligations.TreeDependsOnFreqAlone := by
  intro s u hfreq hs hu
  obtain ⟨t, ht, tfreq, ttree, tvalid⟩ := exec_buildTree_tables hs
  obtain ⟨v, hv, vfreq, vtree, vvalid⟩ := exec_buildTree_tables hu
  rw [← hfreq] at vvalid
  have hvalid : t.block.treeValid = v.block.treeValid := Bool.eq_iff_iff.mpr (tvalid.trans vvalid.symm)
  exact ⟨t, v, ht, hv, hvalid, fun h =>
    treeInv_unique (tfreq.trans (hfreq.trans vfreq.symm)) h (hvalid ▸ h) ttree vtree⟩

end Sys2Proof.Machine
end


section
/-! SUPPORT. The order of the merges: extraction takes the first node by frequency, then index, and every internal node
is made of the two that were extracted at its moment (42_tree_builder.md R152, R153). -/

namespace Sys2Proof.Machine

/-! ### Extraction (R153) -/

/-- key(i) = (NODE[i].FREQ, i), in the lexicographic order of R9. -/
def key (arena : List Node) (i : Nat) : ℕ ×ₗ ℕ := toLex ((arenaAt arena i).freq.toNat, i)

theorem key_lt_key {arena : List Node} {i j : Nat} :
    key arena i < key arena j ↔ (arenaAt arena i).freq.toNat < (arenaAt arena j).freq.toNat ∨
      ((arenaAt arena i).freq.toNat = (arenaAt arena j).freq.toNat ∧ i < j) :=
  Prod.Lex.toLex_lt_toLex

theorem key_injective (arena : List Node) : Function.Injective (key arena) := fun _ _ h =>
  congrArg (fun k => (ofLex k).2) h

theorem keyLt_iff {arena : List Node} {i j : Nat} : keyLt arena i j = true ↔ key arena i < key arena j := by
  simp [keyLt, key_lt_key, BitVec.lt_def, BitVec.toNat_inj]

/-- No key is smaller than that of `minKey`. -/
theorem key_minKey_le (arena : List Node) (i : Nat) (l : List Nat) :
    ∀ j ∈ i :: l, key arena (minKey arena i l) ≤ key arena j := by
  induction l generalizing i with
  | nil => simp [minKey]
  | cons k rest ih =>
    rw [minKey]
    by_cases hki : keyLt arena k i = true
    · rw [if_pos hki]
      exact List.forall_mem_cons.mpr ⟨(ih k k List.mem_cons_self).trans (keyLt_iff.mp hki).le, ih k⟩
    · rw [if_neg hki]
      obtain ⟨hi, hrest⟩ := List.forall_mem_cons.mp (ih i)
      have hik : key arena i ≤ key arena k := not_lt.mp fun h => hki (keyLt_iff.mpr h)
      exact List.forall_mem_cons.mpr ⟨hi, List.forall_mem_cons.mpr ⟨hi.trans hik, hrest⟩⟩

/-- What `takeMin` takes comes before every other active node. -/
theorem takeMin_key_lt {arena : List Node} {active rest : List Nat} {a j : Nat}
    (h : takeMin arena active = some (a, rest)) (hj : j ∈ active) (hne : j ≠ a) : key arena a < key arena j := by
  cases active with
  | nil => cases h
  | cons i l =>
    cases h
    exact lt_of_le_of_ne (key_minKey_le arena i l j hj) fun he => hne (key_injective arena he).symm

theorem takeMin_perm {arena : List Node} {active rest : List Nat} {a : Nat}
    (h : takeMin arena active = some (a, rest)) : active.Perm (a :: rest) := by
  obtain ⟨ha, rfl⟩ := takeMin_some h
  exact List.perm_cons_erase ha

/-! ### The merges (R152) -/

/-- Node `j` is active when node `i` is made: it is there, and no node before `i` has it as a child. -/
def ActiveAt (n : Nat) (arena : List Node) (i j : Nat) : Prop :=
  j < i ∧ ∀ k, n ≤ k → k < i → (arenaAt arena k).left.toNat ≠ j ∧ (arenaAt arena k).right.toNat ≠ j

/-- The active nodes are those that are no child yet. -/
theorem MergeInv.mem_active_iff {n total : Nat} {active : List Nat} {arena : List Node}
    (h : MergeInv n total active arena) (j : Nat) : j ∈ active ↔ ActiveAt n arena arena.length j := by
  have hnodup := h.parents.nodup_iff.mpr List.nodup_range
  have hstart := h.start
  have hchild : j ∉ innerChildren n arena ↔
      ∀ k, n ≤ k → k < arena.length → (arenaAt arena k).left.toNat ≠ j ∧ (arenaAt arena k).right.toNat ≠ j := by
    simp only [innerChildren, childIndices, List.mem_flatMap, List.mem_range'_1, Nat.add_sub_cancel' hstart]
    grind
  rw [ActiveAt, ← hchild]
  constructor
  · exact fun hj => ⟨h.active_lt hj, fun hc => (List.disjoint_of_nodup_append hnodup) hc hj⟩
  · rintro ⟨hlt, hc⟩
    exact (List.mem_append.mp (h.parents.mem_iff.mpr (List.mem_range.mpr hlt))).resolve_left hc

theorem MergeInv.nodup_active {n total : Nat} {active : List Nat} {arena : List Node}
    (h : MergeInv n total active arena) : active.Nodup :=
  (h.parents.nodup_iff.mpr List.nodup_range).of_append_right

/-- Node `i` is the merge of the two nodes extracted from the active set of the nodes before it. -/
def MergesFirstTwo (n total : Nat) (arena : List Node) (i : Nat) : Prop :=
  ∃ active a rest b rest', MergeInv n total active (arena.take i) ∧
    takeMin (arena.take i) active = some (a, rest) ∧ takeMin (arena.take i) rest = some (b, rest') ∧
    arenaAt arena i = internalNode (arena.take i) a b

/-- Every node the loop adds merges the first two of its moment. -/
theorem MergeInv.mergesFirstTwo {n total fuel i : Nat} {active : List Nat} {arena : List Node}
    (h : MergeInv n total active arena) (hn : n ≤ 256) (htotal : total < 2 ^ 40) (h₁ : arena.length ≤ i)
    (h₂ : i < (Machine.mergeLoop fuel active arena).length) :
    MergesFirstTwo n total (Machine.mergeLoop fuel active arena) i := by
  induction fuel generalizing active arena with
  | zero => exact absurd h₂ (Nat.not_lt.mpr h₁)
  | succ fuel ih =>
    rw [Machine.mergeLoop] at h₂ ⊢
    cases ha : takeMin arena active with
    | none => rw [ha] at h₂; exact absurd h₂ (Nat.not_lt.mpr h₁)
    | some p =>
      obtain ⟨a, rest⟩ := p
      rw [ha] at h₂
      simp only at h₂ ⊢
      cases hb : takeMin arena rest with
      | none => rw [hb] at h₂; exact absurd h₂ (Nat.not_lt.mpr h₁)
      | some q =>
        obtain ⟨b, rest'⟩ := q
        rw [hb] at h₂
        simp only at h₂ ⊢
        have hp : active.Perm (a :: b :: rest') := (takeMin_perm ha).trans ((takeMin_perm hb).cons a)
        have hgrows := mergeLoop_prefix fuel (rest' ++ [arena.length]) (arena ++ [internalNode arena a b])
        rcases h₁.eq_or_lt with rfl | hlt
        · have htake := List.prefix_iff_eq_take.mp ((List.prefix_append arena _).trans hgrows)
          refine ⟨active, a, rest, b, rest', ?_⟩
          rw [← htake, arenaAt_prefix hgrows (by simp), arenaAt_append_self]
          exact ⟨h, ha, hb, rfl⟩
        · exact ih (h.merge hn htotal hp) (by simpa using hlt) h₂

/-! ### The children of an internal node (R153) -/

/-- Nodes `a` and `b` are, in this order, the first two of those active when node `i` is made. -/
structure FirstTwoAt (n : Nat) (arena : List Node) (i a b : Nat) : Prop where
  left_active : ActiveAt n arena i a
  right_active : ActiveAt n arena i b
  ne : a ≠ b
  left_first : ∀ j, ActiveAt n arena i j → j ≠ a → key arena a < key arena j
  right_second : ∀ j, ActiveAt n arena i j → j ≠ a → j ≠ b → key arena b < key arena j

/-- The children of a merge are the first two of its moment. -/
theorem MergesFirstTwo.firstTwoAt {n total i : Nat} {arena : List Node} (h : MergesFirstTwo n total arena i)
    (hi : i < arena.length) (hsize : arena.length ≤ 511) :
    FirstTwoAt n arena i (arenaAt arena i).left.toNat (arenaAt arena i).right.toNat := by
  obtain ⟨active, a, rest, b, rest', hinv, ha, hb, hnode⟩ := h
  have hlen : (arena.take i).length = i := List.length_take_of_le hi.le
  have hbefore : ∀ {k}, k < i → arenaAt (arena.take i) k = arenaAt arena k := fun hk =>
    (arenaAt_prefix (List.take_prefix i arena) (hlen.symm ▸ hk)).symm
  have hactive : ∀ {j}, j ∈ active ↔ ActiveAt n arena i j := fun {j} => by
    rw [hinv.mem_active_iff j, hlen, ActiveAt, ActiveAt]
    exact and_congr_right fun _ => forall_congr' fun k => forall_congr' fun _ => forall_congr' fun hk => by
      rw [hbefore hk]
  have hkey : ∀ {j}, j ∈ active → key (arena.take i) j = key arena j := fun hj => by
    rw [key, hbefore (hactive.mp hj).1, key]
  obtain ⟨haActive, rfl⟩ := takeMin_some ha
  obtain ⟨hbRest, -⟩ := takeMin_some hb
  have hrest : ∀ {j}, j ∈ active.erase a ↔ j ≠ a ∧ j ∈ active := hinv.nodup_active.mem_erase_iff
  obtain ⟨hba, hbActive⟩ := hrest.mp hbRest
  have hindex : ∀ {j}, j ∈ active → (BitVec.ofNat 9 j).toNat = j := fun hj =>
    toNat_slotIndex (by have := (hactive.mp hj).1; omega)
  have hleft : (arenaAt arena i).left.toNat = a := by rw [hnode]; exact hindex haActive
  have hright : (arenaAt arena i).right.toNat = b := by rw [hnode]; exact hindex hbActive
  rw [hleft, hright]
  exact
    { left_active := hactive.mp haActive
      right_active := hactive.mp hbActive
      ne := hba.symm
      left_first := fun j hj hja => by
        have hmem := hactive.mpr hj
        rw [← hkey haActive, ← hkey hmem]
        exact takeMin_key_lt ha hmem hja
      right_second := fun j hj hja hjb => by
        have hmem := hactive.mpr hj
        rw [← hkey hbActive, ← hkey hmem]
        exact takeMin_key_lt hb (hrest.mpr ⟨hja, hmem⟩) hjb }

/-- Every internal node of a finished tree has the first two of its moment as children. -/
theorem firstTwoAt_buildArena {freq : Vector Word 256} (h : leaves freq ≠ []) {i : Nat} (h₁ : (leaves freq).length ≤ i)
    (h₂ : i < (buildArena freq).length) :
    FirstTwoAt (leaves freq).length (buildArena freq) i (arenaAt (buildArena freq) i).left.toNat
      (arenaAt (buildArena freq) i).right.toNat :=
  MergesFirstTwo.firstTwoAt
    ((mergeInv_leaves freq).mergesFirstTwo (length_leaves_le freq) (freqSum_lt freq) h₁ h₂) h₂ (length_buildArena_le h)

/-- Settles O14: `takeMin` takes the smallest key, and each node of the merge loop has the two nodes so taken as its
children. -/
theorem extractionFollowsPriority : Obligations.ExtractionFollowsPriority := by
  refine ⟨fun arena active hne => ?_, fun b hv ht i h₁ h₂ => ?_⟩
  · obtain ⟨⟨a, rest⟩, h⟩ := Option.ne_none_iff_exists'.mp fun h => hne (takeMin_none.mp h)
    obtain ⟨ha, hrest⟩ := takeMin_some h
    exact ⟨a, rest, h, ha, hrest, fun j hj hja => key_lt_key.mp (takeMin_key_lt h hj hja)⟩
  · obtain ⟨-, hne, -⟩ := ht hv
    obtain ⟨-, -, hlen, hnleaf, hnnode, -, hslot⟩ := treeInv_slots hv ht
    rw [hnleaf] at h₁
    rw [hnnode] at h₂
    obtain ⟨hleft, hright, hdistinct, hfirst, hsecond⟩ := firstTwoAt_buildArena hne h₁ (hlen ▸ h₂)
    intro isActive precedes left right
    have hactive : ∀ j, isActive j ↔ ActiveAt (leaves b.freq).length (buildArena b.freq) i j := fun j => by
      simp only [isActive, ActiveAt, hnleaf]
      exact and_congr_right fun _ => forall_congr' fun k => forall_congr' fun _ => forall_congr' fun hk => by
        rw [hslot k (by omega)]
    have hprecedes : ∀ {j k}, j < i → k < i → key (buildArena b.freq) j < key (buildArena b.freq) k → precedes j k :=
      fun hj hk h => by
        simp only [precedes]
        rw [hslot _ (by omega), hslot _ (by omega)]
        exact key_lt_key.mp h
    simp only [left, right, hactive, hslot i h₂]
    exact ⟨hleft, hright, hdistinct, fun j hj hjl => ⟨hprecedes hleft.1 hj.1 (hfirst j hj hjl),
      fun hjr => hprecedes hright.1 hj.1 (hsecond j hj hjl hjr)⟩⟩

end Sys2Proof.Machine
end


section
/-! SUPPORT. GEN_CODES as a whole: the binary tree a valid NODE table holds, the list of codes it gives its byte values,
and from it what the CODE table holds, that no code begins another, and the Kraft sum (43_code_generator.md R170 to R175). -/

namespace Sys2Proof.Machine

/-! ### Codes as paths (10_state.md R48) -/

/-- The code whose bits are a path from the root. -/
def pathCode (path : List Bool) : Code := ⟨BitVec.ofNat 8 path.length, BitVec.ofNat 256 (bitsValue path)⟩

theorem bitsValue_concat (path : List Bool) (b : Bool) : bitsValue (path ++ [b]) = Nat.bit b (bitsValue path) := by
  rw [bitsValue, List.foldl_append, Nat.bit_val]
  rfl

/-- The bits of a path's value, the most significant first, are the path. -/
theorem map_testBit_bitsValue (path : List Bool) :
    (List.range path.length).reverse.map (bitsValue path).testBit = path := by
  induction path using List.reverseRecOn with
  | nil => rfl
  | append_singleton path b ih =>
    rw [List.length_append, List.length_singleton, List.range_succ_eq_map, List.reverse_cons, ← List.map_reverse,
      List.map_append, List.map_map, bitsValue_concat]
    simp only [Function.comp_def, Nat.succ_eq_add_one, Nat.testBit_bit_succ, List.map_singleton, Nat.testBit_bit_zero]
    rw [ih]

theorem toNat_len_pathCode {path : List Bool} (h : path.length ≤ 255) : (pathCode path).len.toNat = path.length := by
  rw [pathCode, BitVec.toNat_ofNat]
  omega

/-- The bits of the code of a path are the path. -/
theorem codeBits_pathCode {path : List Bool} (h : path.length ≤ 255) : codeBits (pathCode path) = path := by
  rw [codeBits, toNat_len_pathCode h]
  refine Eq.trans (List.map_congr_left fun t ht => ?_) (map_testBit_bitsValue path)
  rw [List.mem_reverse, List.mem_range] at ht
  rw [pathCode, BitVec.getLsbD_ofNat, decide_eq_true (by omega), Bool.true_and]

/-! ### The code table of a list of codes (R170) -/

/-- The table with the codes of a list of byte values and paths written to it in order. -/
def recordCodes (codes : List (Byte × List Bool)) (table : Vector Code 256) : Vector Code 256 :=
  codes.foldl (fun t c => setEntry t c.1 (pathCode c.2)) table

theorem recordCodes_append (l r : List (Byte × List Bool)) (table : Vector Code 256) :
    recordCodes (l ++ r) table = recordCodes r (recordCodes l table) :=
  List.foldl_append

theorem entry_recordCodes_of_notMem {codes : List (Byte × List Bool)} {s : Byte} (h : s ∉ codes.map Prod.fst)
    (table : Vector Code 256) : entry (recordCodes codes table) s = entry table s := by
  induction codes generalizing table with
  | nil => rfl
  | cons c rest ih =>
    rw [List.map_cons, List.mem_cons, not_or] at h
    exact (ih h.2 _).trans ((entry_setEntry _ _ _ _).trans (if_neg h.1))

theorem entry_recordCodes_of_mem {codes : List (Byte × List Bool)} {c : Byte × List Bool}
    (hnodup : (codes.map Prod.fst).Nodup) (h : c ∈ codes) (table : Vector Code 256) :
    entry (recordCodes codes table) c.1 = pathCode c.2 := by
  induction codes generalizing table with
  | nil => cases h
  | cons d rest ih =>
    obtain ⟨hd, hrest⟩ := List.nodup_cons.mp hnodup
    rcases List.mem_cons.mp h with rfl | h
    · exact (entry_recordCodes_of_notMem hd _).trans (entry_setEntry_same _ _ _)
    · exact ih hrest h _

/-! ### Binary trees and their codes (R171) -/

/-- A binary tree with a byte value at each leaf. -/
inductive CodeTree where
  | leaf (sym : Byte)
  | fork (left right : CodeTree)

/-- Puts a bit before the path of a code. -/
def prependBit (b : Bool) (c : Byte × List Bool) : Byte × List Bool := (c.1, b :: c.2)

/-- The path of each leaf from the root, 0 for left and 1 for right. -/
def CodeTree.paths : CodeTree → List (Byte × List Bool)
  | .leaf s => [(s, [])]
  | .fork l r => l.paths.map (prependBit false) ++ r.paths.map (prependBit true)

/-- The codes of a tree: the paths, but for a single leaf the 1-bit code 0 (R172). -/
def CodeTree.codes : CodeTree → List (Byte × List Bool)
  | .leaf s => [(s, [false])]
  | .fork l r => (CodeTree.fork l r).paths

/-- The byte values at the leaves. -/
def CodeTree.symbols (t : CodeTree) : List Byte := t.paths.map Prod.fst

theorem CodeTree.symbols_fork (l r : CodeTree) : (fork l r).symbols = l.symbols ++ r.symbols := by
  simp [symbols, paths, prependBit, Function.comp_def]

theorem CodeTree.map_fst_codes (t : CodeTree) : t.codes.map Prod.fst = t.symbols := by cases t <;> rfl

theorem CodeTree.mem_paths_fork {l r : CodeTree} {s : Byte} {path : List Bool} :
    (s, path) ∈ (fork l r).paths ↔
      ∃ b tail, path = b :: tail ∧ (s, tail) ∈ (if b then r else l).paths := by
  simp only [paths, List.mem_append, List.mem_map, prependBit, Prod.mk.injEq, Prod.exists, Bool.exists_bool]
  grind

theorem CodeTree.length_paths_pos (t : CodeTree) : 0 < t.paths.length := by
  induction t with
  | leaf s => exact Nat.one_pos
  | fork l r ihl ihr => simp only [paths, List.length_append, List.length_map]; omega

theorem CodeTree.two_le_length_paths_fork (l r : CodeTree) : 2 ≤ (fork l r).paths.length := by
  rw [paths, List.length_append, List.length_map, List.length_map]
  exact Nat.add_le_add l.length_paths_pos r.length_paths_pos

theorem CodeTree.length_codes (t : CodeTree) : t.codes.length = t.paths.length := by cases t <;> rfl

/-- A path is shorter than the number of leaves (R175). -/
theorem CodeTree.length_lt_of_mem_paths {t : CodeTree} {s : Byte} {path : List Bool} (h : (s, path) ∈ t.paths) :
    path.length < t.paths.length := by
  induction t generalizing path with
  | leaf s => simp_all [paths]
  | fork l r ihl ihr =>
    obtain ⟨b, tail, rfl, htail⟩ := mem_paths_fork.mp h
    have hl := l.length_paths_pos
    have hr := r.length_paths_pos
    simp only [paths, List.length_append, List.length_map, List.length_cons]
    cases b with
    | false => have := ihl htail; omega
    | true => have := ihr htail; omega

/-- A path that begins another one is the same one: a leaf has no descendant (R174). -/
theorem CodeTree.eq_of_prefix {t : CodeTree} {s r : Byte} {p q : List Bool} (hp : (s, p) ∈ t.paths)
    (hq : (r, q) ∈ t.paths) (h : p <+: q) : s = r := by
  induction t generalizing p q with
  | leaf u => simp_all [paths]
  | fork left right ihl ihr =>
    obtain ⟨b, p', rfl, hp'⟩ := mem_paths_fork.mp hp
    obtain ⟨c, q', rfl, hq'⟩ := mem_paths_fork.mp hq
    obtain ⟨rfl, hprefix⟩ := List.cons_prefix_cons.mp h
    cases b with
    | false => exact ihl hp' hq' hprefix
    | true => exact ihr hp' hq' hprefix

/-- The Kraft sum of the paths is 1, scaled by any `2 ^ bound` that makes it whole (R175). -/
theorem CodeTree.kraft_paths {t : CodeTree} {bound : Nat} (h : ∀ c ∈ t.paths, c.2.length ≤ bound) :
    (t.paths.map fun c => 2 ^ (bound - c.2.length)).sum = 2 ^ bound := by
  induction t generalizing bound with
  | leaf s => simp [paths]
  | fork l r ihl ihr =>
    simp only [paths, List.forall_mem_append, List.forall_mem_map, prependBit, List.length_cons] at h
    obtain ⟨hl, hr⟩ := h
    obtain ⟨c, hc⟩ := List.exists_mem_of_length_pos l.length_paths_pos
    obtain ⟨k, rfl⟩ : ∃ k, bound = k + 1 := Nat.exists_eq_add_one.mpr (by have := hl c hc; omega)
    simp only [paths, List.map_append, List.map_map, List.sum_append, Function.comp_def, prependBit, List.length_cons,
      Nat.add_sub_add_right]
    rw [ihl fun c hc => by have := hl c hc; omega, ihr fun c hc => by have := hr c hc; omega]
    omega

/-- A code has at least one bit, and one less than the leaves at most, when they are two or more (R175). -/
theorem CodeTree.length_of_mem_codes {t : CodeTree} {s : Byte} {path : List Bool} (h : (s, path) ∈ t.codes) :
    1 ≤ path.length ∧ path.length ≤ max 1 (t.paths.length - 1) := by
  cases t with
  | leaf r => simp_all [codes]
  | fork l r =>
    have hlt := length_lt_of_mem_paths (t := .fork l r) h
    obtain ⟨b, tail, rfl, -⟩ := mem_paths_fork.mp h
    rw [List.length_cons] at hlt ⊢
    omega

/-- No code of a tree begins the code of another byte value (R174). -/
theorem CodeTree.eq_of_prefix_codes {t : CodeTree} {s r : Byte} {p q : List Bool} (hp : (s, p) ∈ t.codes)
    (hq : (r, q) ∈ t.codes) (h : p <+: q) : s = r := by
  cases t with
  | leaf u => simp_all [codes]
  | fork left right => exact eq_of_prefix hp hq h

/-! ### The tree in a NODE table (10_state.md R44, R47) -/

/-- The nodes of the table from `i` down form the tree. -/
inductive HoldsTree (node : Vector Node 511) : NodeIx → CodeTree → Prop where
  | leaf {i : NodeIx} (h : (nodeAt node i).leaf = true) : HoldsTree node i (.leaf (nodeAt node i).sym)
  | fork {i : NodeIx} {l r : CodeTree} (h : (nodeAt node i).leaf = false) (hl : HoldsTree node (nodeAt node i).left l)
      (hr : HoldsTree node (nodeAt node i).right r) : HoldsTree node i (.fork l r)

theorem HoldsTree.unique {node : Vector Node 511} {i : NodeIx} {t u : CodeTree} (ht : HoldsTree node i t)
    (hu : HoldsTree node i u) : t = u := by
  induction ht generalizing u with
  | leaf h =>
    cases hu with
    | leaf => rfl
    | fork h' => rw [h] at h'; cases h'
  | fork h _ _ ihl ihr =>
    cases hu with
    | leaf h' => rw [h] at h'; cases h'
    | fork _ hl hr => rw [ihl hl, ihr hr]

/-- A path to a leaf of the table is the path of that leaf in the tree. -/
theorem HoldsTree.mem_paths_of_descend {node : Vector Node 511} {i j : NodeIx} {t : CodeTree} (ht : HoldsTree node i t)
    {path : List Bool} (hpath : descend node i path = some j) (hj : (nodeAt node j).leaf = true) :
    ((nodeAt node j).sym, path) ∈ t.paths := by
  induction path generalizing i t with
  | nil =>
    cases hpath
    cases ht with
    | leaf => exact List.mem_singleton_self _
    | fork h => rw [h] at hj; cases hj
  | cons b rest ih =>
    cases ht with
    | leaf h => rw [descend, if_pos h] at hpath; cases hpath
    | fork h hl hr =>
      rw [descend, if_neg (Bool.not_eq_true _ ▸ h)] at hpath
      refine CodeTree.mem_paths_fork.mpr ⟨b, rest, rfl, ?_⟩
      cases b with
      | false => exact ih hl hpath
      | true => exact ih hr hpath

theorem HoldsTree.codes_eq_paths {node : Vector Node 511} {r : NodeIx} {t : CodeTree} (ht : HoldsTree node r t)
    (h : (nodeAt node r).leaf = false) : t.codes = t.paths := by
  cases ht with
  | leaf h' => rw [h] at h'; cases h'
  | fork => rfl

theorem HoldsTree.mem_codes_of_leaf {node : Vector Node 511} {r : NodeIx} {t : CodeTree} (ht : HoldsTree node r t)
    (h : (nodeAt node r).leaf = true) : ((nodeAt node r).sym, [false]) ∈ t.codes := by
  rw [ht.unique (.leaf h)]
  exact List.mem_singleton_self _

/-- The walk from the node at the end of a path records the codes of the leaves below it (R171). -/
theorem HoldsTree.walk_eq_recordCodes {node : Vector Node 511} {i : NodeIx} {t : CodeTree} (ht : HoldsTree node i t)
    (above : List Bool) {fuel : Nat} (hfuel : t.paths.length ≤ fuel) (table : Vector Code 256) :
    walk node fuel i above.length (BitVec.ofNat 256 (bitsValue above)) table =
      recordCodes (t.paths.map fun c => (c.1, above ++ c.2)) table := by
  induction ht generalizing above fuel table with
  | @leaf i h =>
    obtain ⟨fuel, rfl⟩ := Nat.exists_eq_add_one.mpr hfuel
    rw [walk, if_pos h]
    simp [CodeTree.paths, recordCodes, pathCode]
  | @fork i l r h _ _ ihl ihr =>
    have hlpos := l.length_paths_pos
    have hrpos := r.length_paths_pos
    simp only [CodeTree.paths, List.length_append, List.length_map] at hfuel
    obtain ⟨fuel, rfl⟩ : ∃ k, fuel = k + 1 := Nat.exists_eq_add_one.mpr (by omega)
    have hleft : 2 * BitVec.ofNat 256 (bitsValue above) = BitVec.ofNat 256 (bitsValue (above ++ [false])) := by
      rw [bitsValue_concat, Nat.bit_false, BitVec.ofNat_mul]
      rfl
    have hright : 2 * BitVec.ofNat 256 (bitsValue above) + 1 = BitVec.ofNat 256 (bitsValue (above ++ [true])) := by
      rw [bitsValue_concat, Nat.bit_true, BitVec.ofNat_add, BitVec.ofNat_mul]
      rfl
    have hl := ihl (above ++ [false]) (fuel := fuel) (by omega) table
    have hr := ihr (above ++ [true]) (fuel := fuel) (by omega)
      (recordCodes (l.paths.map fun c => (c.1, above ++ [false] ++ c.2)) table)
    rw [List.length_append, List.length_singleton] at hl hr
    rw [walk, if_neg (Bool.not_eq_true _ ▸ h), hright, hleft, hl, hr]
    simp [CodeTree.paths, recordCodes_append, Function.comp_def, prependBit]

/-- GEN_CODES records the codes of the tree (R170, R172). -/
theorem HoldsTree.genTable_eq_recordCodes {node : Vector Node 511} {r : NodeIx} {t : CodeTree}
    (ht : HoldsTree node r t) (hsize : t.paths.length ≤ 256) : genTable node r = recordCodes t.codes noCodes := by
  cases ht with
  | leaf h => rw [genTable, if_pos h]; rfl
  | fork h hl hr =>
    rw [genTable, if_neg (Bool.not_eq_true _ ▸ h)]
    exact ((HoldsTree.fork h hl hr).walk_eq_recordCodes [] hsize noCodes).trans (by simp [CodeTree.codes])

/-! ### The tree of a valid NODE table (R47) -/

theorem slot_toNat (b : Block) (i : NodeIx) : slot b i.toNat = nodeAt b.node i := by
  rw [slot, BitVec.ofNat_toNat, BitVec.setWidth_eq]

/-- What every internal node has as the sum over its children, the last active nodes have as the sum over the leaves. -/
theorem MergeInv.sum_active {M : Type} [AddCancelCommMonoid M] {n total : Nat} {active : List Nat} {arena : List Node}
    (h : MergeInv n total active arena) (f : Nat → M) (hf : ∀ i, n ≤ i → i < arena.length →
      f i = f (arenaAt arena i).left.toNat + f (arenaAt arena i).right.toNat) :
    (active.map f).sum = ((List.range n).map f).sum := by
  have hchildren : ((innerChildren n arena).map f).sum = ((List.range' n (arena.length - n)).map f).sum := by
    have hstart := h.start
    rw [innerChildren, List.map_flatMap, List.flatMap_def, List.sum_flatten, List.map_map]
    refine congrArg List.sum (List.map_congr_left fun i hi => ?_)
    rw [List.mem_range'_1] at hi
    simp [childIndices, hf i hi.1 (by omega)]
  have hsum := (h.parents.map f).sum_eq
  have hrange : List.range arena.length = List.range n ++ List.range' n (arena.length - n) := by
    have := List.range'_append (s := 0) (m := n) (n := arena.length - n) (step := 1)
    rw [List.range_eq_range', List.range_eq_range', ← Nat.add_sub_cancel' h.start, ← this]
    simp
  rw [hrange, List.map_append, List.map_append, List.sum_append, List.sum_append, hchildren, add_comm] at hsum
  exact add_right_cancel hsum

/-- Every node of a valid table is the root of a tree, since children come before their parent. -/
theorem exists_holdsTree {b : Block} (hv : b.treeValid = true) (ht : treeInv b) {i : Nat}
    (hi : i < (buildArena b.freq).length) : ∃ t, HoldsTree b.node (BitVec.ofNat 9 i) t := by
  obtain ⟨-, hne, -, -, -, hslot⟩ := ht hv
  induction i using Nat.strong_induction_on with
  | _ i ih =>
    have hnode : nodeAt b.node (BitVec.ofNat 9 i) = arenaAt (buildArena b.freq) i := hslot i hi
    by_cases hn : i < (leaves b.freq).length
    · refine ⟨_, .leaf ?_⟩
      rw [hnode, arenaAt_prefix (leaves_prefix_buildArena _) hn]
      exact (isLeafOf_of_mem (arenaAt_mem hn)).leaf
    · have m := (mergeInv_buildArena hne).merges i (not_lt.mp hn) hi
      obtain ⟨l, hl⟩ := ih _ m.left_lt (m.left_lt.trans hi)
      obtain ⟨r, hr⟩ := ih _ m.right_lt (m.right_lt.trans hi)
      rw [BitVec.ofNat_toNat, BitVec.setWidth_eq, ← hnode] at hl hr
      exact ⟨_, .fork (hnode ▸ m.leaf) hl hr⟩

theorem map_sym_leaves (freq : Vector Word 256) :
    (leaves freq).map Node.sym = allBytes.filter fun s => entry freq s ≠ 0 := by
  simp [leaves_eq_map, leafNode, Function.comp_def]

theorem map_arenaAt_range (arena : List Node) : (List.range arena.length).map (arenaAt arena) = arena :=
  List.ext_getElem (by simp) fun i _ h => by simp [arenaAt_eq_getElem h]

/-- The byte values of the leaves are the counted ones. -/
theorem sum_singleton_sym_leaves (freq : Vector Word 256) :
    ((List.range (leaves freq).length).map fun i => ({(arenaAt (leaves freq) i).sym} : Multiset Byte)).sum =
      (allBytes.filter fun s => entry freq s ≠ 0 : List Byte) := by
  rw [← map_sym_leaves, ← Multiset.sum_map_singleton ((leaves freq).map Node.sym : Multiset Byte)]
  conv_rhs => rw [← map_arenaAt_range (leaves freq)]
  simp [Function.comp_def]

/-- The tree in the NODE table of a block, with the counted byte values at its leaves. -/
structure IsTreeOf (b : Block) (t : CodeTree) : Prop where
  holds : HoldsTree b.node b.root t
  symbols : t.symbols.Perm (allBytes.filter fun s => entry b.freq s ≠ 0)

/-- A valid NODE table holds a tree at ROOT, whose leaves are the counted byte values. -/
theorem exists_isTreeOf {b : Block} (hv : b.treeValid = true) (ht : treeInv b) : ∃ t, IsTreeOf b t := by
  obtain ⟨-, hne, -, -, hroot, hslot⟩ := ht hv
  have hlen := length_buildArena hne
  have hpos := List.length_pos_of_ne_nil hne
  have hmerge := mergeInv_buildArena hne
  have : Nonempty CodeTree := ⟨.leaf 0⟩
  choose! tree htree using fun i : Nat => exists_holdsTree hv ht (i := i)
  refine ⟨tree ((buildArena b.freq).length - 1), hroot ▸ htree _ (by omega), Multiset.coe_eq_coe.mp ?_⟩
  have hfork : ∀ i, (leaves b.freq).length ≤ i → i < (buildArena b.freq).length →
      ((tree i).symbols : Multiset Byte) = (tree (arenaAt (buildArena b.freq) i).left.toNat).symbols +
        (tree (arenaAt (buildArena b.freq) i).right.toNat).symbols := fun i h₁ h₂ => by
    have m := hmerge.merges i h₁ h₂
    have hl := htree _ (m.left_lt.trans h₂)
    have hr := htree _ (m.right_lt.trans h₂)
    rw [BitVec.ofNat_toNat, BitVec.setWidth_eq, ← hslot i h₂] at hl hr
    rw [(htree i h₂).unique (.fork ((congrArg Node.leaf (hslot i h₂)).trans m.leaf) hl hr), CodeTree.symbols_fork,
      Multiset.coe_add, ← hslot i h₂]
  have hleaf : ∀ i ∈ List.range (leaves b.freq).length,
      ((tree i).symbols : Multiset Byte) = {(arenaAt (leaves b.freq) i).sym} := fun i hi => by
    rw [List.mem_range] at hi
    have hnode : slot b i = arenaAt (leaves b.freq) i :=
      (hslot i (by omega)).trans (arenaAt_prefix (leaves_prefix_buildArena _) hi)
    have hisLeaf : (slot b i).leaf = true := hnode ▸ (isLeafOf_of_mem (arenaAt_mem hi)).leaf
    rw [(htree i (by omega)).unique (.leaf hisLeaf), ← hnode]
    rfl
  have hsum := hmerge.sum_active _ hfork
  rw [List.map_congr_left hleaf, sum_singleton_sym_leaves, List.map_singleton, List.sum_singleton] at hsum
  rwa [show (buildArena b.freq).length - 1 = 2 * (leaves b.freq).length - 2 by omega]

/-! ### The codes of a valid tree (R170 to R175) -/

section
variable {b : Block} {t : CodeTree} {s : Byte} {path : List Bool}

theorem IsTreeOf.length_paths (h : IsTreeOf b t) : t.paths.length = (leaves b.freq).length := by
  rw [length_leaves, distinctSymbols, ← h.symbols.length_eq, CodeTree.symbols, List.length_map]

theorem IsTreeOf.length_of_mem_codes (h : IsTreeOf b t) (hc : (s, path) ∈ t.codes) :
    1 ≤ path.length ∧ path.length ≤ 255 := by
  have hlen := CodeTree.length_of_mem_codes hc
  have hle := length_leaves_le b.freq
  rw [h.length_paths] at hlen
  omega

theorem IsTreeOf.genTable_eq_recordCodes (h : IsTreeOf b t) : genTable b.node b.root = recordCodes t.codes noCodes :=
  h.holds.genTable_eq_recordCodes (h.length_paths.trans_le (length_leaves_le b.freq))

theorem IsTreeOf.exists_code_iff (h : IsTreeOf b t) : (∃ path, (s, path) ∈ t.codes) ↔ entry b.freq s ≠ 0 := by
  have hmem : s ∈ t.codes.map Prod.fst ↔ entry b.freq s ≠ 0 := by
    rw [CodeTree.map_fst_codes, h.symbols.mem_iff]
    simp [mem_allBytes]
  rw [← hmem]
  simp

/-- GEN_CODES gives a byte value at a leaf its code (R171, R172). -/
theorem IsTreeOf.entry_of_mem (h : IsTreeOf b t) (hc : (s, path) ∈ t.codes) :
    entry (genTable b.node b.root) s = pathCode path := by
  have hnodup : (t.codes.map Prod.fst).Nodup := by
    rw [CodeTree.map_fst_codes, h.symbols.nodup_iff]
    exact nodup_allBytes.filter _
  rw [h.genTable_eq_recordCodes]
  exact entry_recordCodes_of_mem hnodup hc noCodes

/-- GEN_CODES gives no code to a byte value without a count (R173). -/
theorem IsTreeOf.entry_of_uncounted (h : IsTreeOf b t) (hs : entry b.freq s = 0) :
    entry (genTable b.node b.root) s = ⟨0, 0⟩ := by
  rw [h.genTable_eq_recordCodes, entry_recordCodes_of_notMem, noCodes, entry_replicate]
  rw [List.mem_map]
  rintro ⟨⟨_, path⟩, hc, rfl⟩
  exact h.exists_code_iff.mp ⟨path, hc⟩ hs

theorem IsTreeOf.toNat_len (h : IsTreeOf b t) (hc : (s, path) ∈ t.codes) :
    (entry (genTable b.node b.root) s).len.toNat = path.length := by
  rw [h.entry_of_mem hc, toNat_len_pathCode (h.length_of_mem_codes hc).2]

/-- Exactly the counted byte values have a code. -/
theorem IsTreeOf.len_ne_zero_iff (h : IsTreeOf b t) :
    (entry (genTable b.node b.root) s).len ≠ 0 ↔ entry b.freq s ≠ 0 := by
  refine not_congr ⟨fun hlen => ?_, fun hs => by rw [h.entry_of_uncounted hs]⟩
  by_contra hs
  obtain ⟨path, hc⟩ := h.exists_code_iff.mpr hs
  have hpos := (h.length_of_mem_codes hc).1
  rw [← h.toNat_len hc, hlen] at hpos
  exact Nat.not_succ_le_zero 0 hpos

/-- The Kraft sum of the table is that of the tree's codes. -/
theorem IsTreeOf.kraft_eq (h : IsTreeOf b t) :
    ((allBytes.filter fun s => (entry (genTable b.node b.root) s).len ≠ 0).map
      fun s => 2 ^ (255 - (entry (genTable b.node b.root) s).len.toNat)).sum =
      (t.codes.map fun c => 2 ^ (255 - c.2.length)).sum := by
  have hfilter : (allBytes.filter fun s => (entry (genTable b.node b.root) s).len ≠ 0) =
      allBytes.filter fun s => entry b.freq s ≠ 0 :=
    List.filter_congr fun s _ => decide_eq_decide.mpr h.len_ne_zero_iff
  rw [hfilter, ← (h.symbols.map _).sum_eq, ← CodeTree.map_fst_codes, List.map_map]
  exact congrArg List.sum (List.map_congr_left fun c hc => by rw [Function.comp_apply, h.toNat_len hc])

end

/-! ### MAX_LEN (R170) -/

/-- MAX_LEN is the length of some entry, and no entry is longer. -/
theorem maxLenOf_isGreatest (codes : Vector Code 256) :
    (∃ s, (entry codes s).len = maxLenOf codes) ∧ ∀ s, (entry codes s).len.toNat ≤ (maxLenOf codes).toNat := by
  have hmax : (0 :: allBytes.map fun s => (entry codes s).len.toNat).max? =
      some (allBytes.foldl (fun m s => max m (entry codes s).len.toNat) 0) := by
    rw [List.max?_cons', List.foldl_map]
  obtain ⟨hmem, hle⟩ := List.max?_eq_some_iff.mp hmax
  rw [List.forall_mem_cons, List.forall_mem_map] at hle
  obtain ⟨s, hs⟩ : ∃ s, (entry codes s).len.toNat = allBytes.foldl (fun m s => max m (entry codes s).len.toNat) 0 := by
    rcases List.mem_cons.mp hmem with hzero | hmem
    · exact ⟨0, Nat.le_zero.mp (hzero ▸ hle.2 0 (mem_allBytes 0)) |>.trans hzero.symm⟩
    · obtain ⟨s, -, hs⟩ := List.mem_map.mp hmem
      exact ⟨s, hs⟩
  have hmaxLen : (entry codes s).len = maxLenOf codes := by
    rw [maxLenOf, ← hs, BitVec.ofNat_toNat, BitVec.setWidth_eq]
  exact ⟨⟨s, hmaxLen⟩, fun r => hmaxLen ▸ hs ▸ hle.2 r (mem_allBytes r)⟩

/-- MAX_LEN is the length of a code of the tree, so it has the bounds of one (R175). -/
theorem IsTreeOf.maxLen_bounds {b : Block} {t : CodeTree} (h : IsTreeOf b t) :
    1 ≤ (maxLenOf (genTable b.node b.root)).toNat ∧
      (maxLenOf (genTable b.node b.root)).toNat ≤ max 1 (t.paths.length - 1) := by
  obtain ⟨⟨s, hs⟩, hmax⟩ := maxLenOf_isGreatest (genTable b.node b.root)
  obtain ⟨c, hc⟩ := List.exists_mem_of_length_pos (t.length_codes ▸ t.length_paths_pos)
  have hpos : 1 ≤ (maxLenOf (genTable b.node b.root)).toNat :=
    (h.length_of_mem_codes hc).1.trans (h.toNat_len hc ▸ hmax c.1)
  have hcoded : (entry (genTable b.node b.root) s).len ≠ 0 := fun hzero => by
    rw [← hs, hzero] at hpos
    exact Nat.not_succ_le_zero 0 hpos
  obtain ⟨path, hpath⟩ := h.exists_code_iff.mpr (h.len_ne_zero_iff.mp hcoded)
  rw [← hs, h.toNat_len hpath]
  exact CodeTree.length_of_mem_codes hpath

/-! ### The command -/

/-- Settles O18: the rule of GEN_CODES raises before it writes. -/
theorem genCodesNeedsTree : Obligations.GenCodesNeedsTree := by
  intro s hv
  rw [exec_eq, rule, genCodesRule, hv]
  rfl

theorem exec_genCodes_ok {s : State} (hv : s.block.treeValid = true) :
    exec .genCodes s = .next (completeOk (writeCodes (genTable s.block.node s.block.root) s)) := by
  rw [exec_eq, rule, genCodesRule, hv]
  rfl

/-- Settles O17: the code table records the paths of the tree that the NODE table holds. -/
theorem genCodesRecordsPaths : Obligations.GenCodesRecordsPaths := by
  intro s hv ht
  obtain ⟨t, h⟩ := exists_isTreeOf hv ht
  obtain ⟨hexists, hmax⟩ := maxLenOf_isGreatest (genTable s.block.node s.block.root)
  refine ⟨_, exec_genCodes_ok hv, rfl, rfl, rfl, .refl s, fun hroot path i hpath hi => ?_, fun hroot => ?_,
    fun b hb => h.entry_of_uncounted hb, fun b hb => h.len_ne_zero_iff.mpr hb, hmax, hexists⟩
  · rw [slot_toNat] at hroot
    have hc := h.holds.mem_paths_of_descend hpath hi
    rw [← h.holds.codes_eq_paths hroot] at hc
    obtain ⟨hpos, hle⟩ := h.length_of_mem_codes hc
    exact ⟨hpos, hle, h.entry_of_mem hc⟩
  · rw [slot_toNat] at hroot ⊢
    exact h.entry_of_mem (h.holds.mem_codes_of_leaf hroot)

/-- Settles O19: the codes are paths to distinct leaves of one tree, and a leaf has no descendant. -/
theorem codesArePrefixFree : Obligations.CodesArePrefixFree := by
  intro b hv ht hc r s hne hr hs hprefix
  obtain ⟨htree, hcode, -⟩ := hc hv
  obtain ⟨t, h⟩ := exists_isTreeOf htree ht
  rw [hcode] at hr hs hprefix
  obtain ⟨p, hp⟩ := h.exists_code_iff.mpr (h.len_ne_zero_iff.mp hr)
  obtain ⟨q, hq⟩ := h.exists_code_iff.mpr (h.len_ne_zero_iff.mp hs)
  rw [h.entry_of_mem hp, h.entry_of_mem hq, codeBits_pathCode (h.length_of_mem_codes hp).2,
    codeBits_pathCode (h.length_of_mem_codes hq).2] at hprefix
  exact hne (CodeTree.eq_of_prefix_codes hp hq hprefix)

/-- Settles O20: by induction on the tree, whose leaves are the coded byte values and whose paths are shorter than the
number of leaves. -/
theorem codeLengthsFillTheTree : Obligations.CodeLengthsFillTheTree := by
  intro b hv ht hc
  obtain ⟨htree, hcode, hmaxLen⟩ := hc hv
  obtain ⟨t, h⟩ := exists_isTreeOf htree ht
  obtain ⟨-, -, -, hnleaf, -⟩ := treeInv_slots htree ht
  obtain ⟨hpos, hle⟩ := h.maxLen_bounds
  rw [← h.length_paths] at hnleaf
  rw [hmaxLen, hcode, hnleaf, h.kraft_eq]
  refine ⟨fun hn => ⟨?_, by omega⟩, fun hn => ⟨?_, by omega⟩⟩
  · cases t with
    | leaf s => exact absurd hn (Nat.not_succ_le_self 1)
    | fork l r => exact CodeTree.kraft_paths fun c hc => (h.length_of_mem_codes hc).2
  · cases t with
    | leaf s => simp [CodeTree.codes]
    | fork l r => exact absurd (CodeTree.two_le_length_paths_fork l r) (by omega)

end Sys2Proof.Machine
end

section
/-! SUPPORT. The bytes that a bitstream fills, and what a command that puts bytes one after the other has written so far
(20_memory.md R84; 40_dispatch.md R133). -/

namespace Sys2Proof.Machine

/-! ### The bytes of a bitstream (44_bit_packer.md R186; 20_memory.md R84) -/

/-- The byte that up to eight bits make, shifted in one after the other. -/
def packByte (bits : List Bool) : Byte := bits.foldl shiftIn 0

/-- The bytes that the bits fill. -/
def wholeBytes (bits : List Bool) : List Byte :=
  (List.range (bits.length / 8)).map fun k => packByte ((bits.drop (8 * k)).take 8)

/-- The bits after the last byte they fill. -/
def pendingBits (bits : List Bool) : List Bool := bits.drop (8 * (bits.length / 8))

/-- The bytes that `more` fills after `bits`. -/
def newBytes (bits more : List Bool) : List Byte := (wholeBytes (bits ++ more)).drop (bits.length / 8)

/-- The zero bits that fill the trailing partial byte. -/
def padding (bits : List Bool) : List Bool := List.replicate ((8 - bits.length % 8) % 8) false

@[simp] theorem length_codeBits (c : Code) : (codeBits c).length = c.len.toNat := by simp [codeBits]

@[simp] theorem length_wholeBytes (bits : List Bool) : (wholeBytes bits).length = bits.length / 8 := by
  simp [wholeBytes]

@[simp] theorem wholeBytes_nil : wholeBytes [] = [] := List.eq_nil_of_length_eq_zero (length_wholeBytes [])

theorem getLsbD_shiftIn_zero (acc : Byte) (b : Bool) : (shiftIn acc b).getLsbD 0 = b := by simp [shiftIn]

theorem getLsbD_shiftIn_succ (acc : Byte) (b : Bool) {j : Nat} (h : j + 1 < 8) :
    (shiftIn acc b).getLsbD (j + 1) = acc.getLsbD j := by
  simp [shiftIn, h, BitVec.getLsbD_eq_getElem (show j < 8 by omega)]

theorem shiftIn_false (acc : Byte) : shiftIn acc false = acc <<< 1 := by simp [shiftIn]

theorem packByte_concat (bits : List Bool) (b : Bool) : packByte (bits ++ [b]) = shiftIn (packByte bits) b := by
  rw [packByte, List.foldl_append]
  rfl

/-- The last bit packed is bit 0. -/
theorem getLsbD_packByte (bits : List Bool) {j : Nat} (h : j < 8) :
    (packByte bits).getLsbD j = bits.reverse.getD j false := by
  induction bits using List.reverseRecOn generalizing j with
  | nil => simp [packByte]
  | append_singleton bits b ih =>
    rw [packByte_concat, List.reverse_concat]
    cases j with
    | zero => exact getLsbD_shiftIn_zero _ _
    | succ j => exact (getLsbD_shiftIn_succ _ _ h).trans (ih (by omega))

/-- Padding with zero bits moves the byte to the left (R186). -/
theorem packByte_padded (bits : List Bool) (n : Nat) :
    packByte (bits ++ List.replicate n false) = packByte bits <<< n := by
  induction n with
  | zero => simp
  | succ n ih =>
    rw [List.replicate_succ', ← List.append_assoc, packByte_concat, ih, shiftIn_false, ← BitVec.shiftLeft_add]

/-- Where memory holds the first bytes of a stream, it holds its bits, the most significant first (R84). -/
theorem packedBit_of_bytes {m : Memory} {base whole i : Nat} {bits : List Bool} (hwhole : whole ≤ bits.length / 8)
    (h : m.bytes base whole = (wholeBytes bits).take whole) (hi : i < 8 * whole) :
    packedBit m base i = bits.getD i false := by
  have hbyte : m.read (base + i / 8) = packByte ((bits.drop (8 * (i / 8))).take 8) := by
    have hk : i / 8 < whole := by omega
    have := congrArg (fun l : List Byte => l[i / 8]?) h
    simpa [Memory.bytes, wholeBytes, hk, show i / 8 < bits.length / 8 by omega] using this
  have hlen : ((bits.drop (8 * (i / 8))).take 8).length = 8 := by
    rw [List.length_take, List.length_drop]
    omega
  rw [packedBit, hbyte, getLsbD_packByte _ (by omega), List.getD_eq_getElem?_getD, List.getD_eq_getElem?_getD,
    List.getElem?_reverse (by omega), hlen, List.getElem?_take_of_lt (by omega), List.getElem?_drop,
    show 8 * (i / 8) + (8 - 1 - (7 - i % 8)) = i by omega]

/-- Later bits leave the bytes filled before as they are. -/
theorem take_wholeBytes_append (bits more : List Bool) :
    (wholeBytes (bits ++ more)).take (bits.length / 8) = wholeBytes bits := by
  rw [wholeBytes, ← List.map_take, List.take_range, List.length_append, Nat.min_eq_left (by omega)]
  refine List.map_congr_left fun k hk => ?_
  rw [List.mem_range] at hk
  rw [List.drop_append_of_le_length (by omega), List.take_append_of_le_length (by rw [List.length_drop]; omega)]

theorem wholeBytes_append (bits more : List Bool) :
    wholeBytes (bits ++ more) = wholeBytes bits ++ newBytes bits more := by
  rw [newBytes, ← take_wholeBytes_append bits more, List.take_append_drop]

theorem newBytes_nil (bits : List Bool) : newBytes bits [] = [] := by simp [newBytes]

theorem length_newBytes (bits more : List Bool) :
    (newBytes bits more).length = (bits ++ more).length / 8 - bits.length / 8 := by
  rw [newBytes, List.length_drop, length_wholeBytes]

theorem newBytes_append (bits more rest : List Bool) :
    newBytes bits (more ++ rest) = newBytes bits more ++ newBytes (bits ++ more) rest := by
  refine List.append_cancel_left (as := wholeBytes bits) ?_
  rw [← wholeBytes_append, ← List.append_assoc, ← List.append_assoc, wholeBytes_append, wholeBytes_append]

/-- Bits that reach the end of the pending byte, and not past it, fill one byte. -/
theorem newBytes_full {bits more : List Bool} (h : bits.length % 8 + more.length = 8) :
    newBytes bits more = [packByte (pendingBits bits ++ more)] := by
  have hlen : (bits ++ more).length / 8 = bits.length / 8 + 1 := by rw [List.length_append]; omega
  rw [newBytes, wholeBytes, hlen, List.range_succ, List.map_append, List.drop_left' (by simp), List.map_singleton,
    List.drop_append_of_le_length (by omega), List.take_of_length_le, pendingBits]
  rw [List.length_append, List.length_drop]
  omega

theorem newBytes_partial {bits more : List Bool} (h : bits.length % 8 + more.length < 8) : newBytes bits more = [] :=
  List.eq_nil_of_length_eq_zero (by rw [length_newBytes, List.length_append]; omega)

theorem pendingBits_full {bits : List Bool} (h : bits.length % 8 = 0) : pendingBits bits = [] :=
  List.drop_of_length_le (by omega)

theorem pendingBits_partial {bits more : List Bool} (h : bits.length % 8 + more.length < 8) :
    pendingBits (bits ++ more) = pendingBits bits ++ more := by
  rw [pendingBits, List.length_append, show (bits.length + more.length) / 8 = bits.length / 8 by omega,
    List.drop_append_of_le_length (by omega), pendingBits]

theorem length_padded (bits : List Bool) : (bits ++ padding bits).length = 8 * ceilDiv8 bits.length := by
  rw [padding, List.length_append, List.length_replicate, ceilDiv8]
  omega

/-- The padding bits are zero, as bits past the end of the stream read. -/
theorem getD_padded (bits : List Bool) (i : Nat) : (bits ++ padding bits).getD i false = bits.getD i false := by
  rcases Nat.lt_or_ge i bits.length with h | h
  · exact List.getD_append _ _ _ _ h
  · rw [List.getD_append_right _ _ _ _ h, List.getD_eq_default _ _ h, padding,
      List.getD_eq_getElem?_getD, List.getElem?_getD_replicate_default_eq]

/-! ### Putting bytes one after the other (40_dispatch.md R133) -/

/-- Puts bytes in order. -/
def putBytes : List Byte → State → Res Unit
  | [], s => .ok () s
  | b :: rest, s => (put b s).andThen fun _ t => putBytes rest t

/-- There is room for `n` bytes more, and the platform completes their writes. -/
def Fits (s : State) (n : Nat) : Prop :=
  s.block.outLen.toNat + n ≤ s.block.dstCap.toNat ∧
    ∀ k, k < n → s.platform.busOk (s.block.dstAddr.toNat + (s.block.outLen.toNat + k)) .write = true

/-- From `s` to `t` exactly these bytes were put at the destination. -/
structure Wrote (s : State) (out : List Byte) (t : State) : Prop where
  emits : Emits s t
  only : OnlyCursor s t
  outLen : t.block.outLen.toNat = s.block.outLen.toNat + out.length
  bytes : t.mem.bytes (s.block.dstAddr.toNat + s.block.outLen.toNat) out.length = out

theorem Res.andThen_assoc {α β γ : Type} (r : Res α) (f : α → State → Res β) (g : β → State → Res γ) :
    (r.andThen f).andThen g = r.andThen fun a t => (f a t).andThen g := by
  cases r <;> rfl

/-- A sequence ends well exactly where both pieces do. -/
theorem Res.andThen_eq_ok {α β : Type} {r : Res α} {f : α → State → Res β} {b : β} {u : State} :
    r.andThen f = .ok b u ↔ ∃ a t, r = .ok a t ∧ f a t = .ok b u := by
  cases r with
  | ok a t => exact ⟨fun h => ⟨a, t, rfl, h⟩, by rintro ⟨_, _, ⟨⟩, h⟩; exact h⟩
  | raised e t => exact ⟨nofun, by rintro ⟨_, _, ⟨⟩, _⟩⟩

theorem Res.andThen_ok_unit (r : Res Unit) : (r.andThen fun _ t => .ok () t) = r := by cases r <;> rfl

theorem putBytes_append (out more : List Byte) (s : State) :
    putBytes (out ++ more) s = (putBytes out s).andThen fun _ t => putBytes more t := by
  induction out generalizing s with
  | nil => rfl
  | cons b rest ih => simp only [List.cons_append, putBytes, ih, Res.andThen_assoc]

theorem Memory.bytes_congr {m n : Memory} {a len : Nat} (h : ∀ k, k < len → m.read (a + k) = n.read (a + k)) :
    m.bytes a len = n.bytes a len :=
  List.map_congr_left fun k hk => h k (List.mem_range.mp hk)

theorem Memory.bytes_add (m : Memory) (a n k : Nat) : m.bytes a (n + k) = m.bytes a n ++ m.bytes (a + n) k := by
  simp [Memory.bytes, List.range_add, Function.comp_def, Nat.add_assoc]

section
variable {s t u : State} {out more : List Byte} {b : Byte} {n : Nat}

/-- A change that emits nothing writes no byte. -/
theorem Wrote.nil (h : Emits s t) (ho : OnlyCursor s t) (hl : t.block.outLen = s.block.outLen) : Wrote s [] t :=
  ⟨h, ho, by rw [hl]; rfl, rfl⟩

theorem Wrote.refl (s : State) : Wrote s [] s := .nil (.refl s) rfl rfl

theorem Wrote.noteBus (k : AccessKind) (a : Nat) (s : State) : Wrote s [] (noteBus k a s) :=
  .nil (.of_same (.refl s) rfl rfl rfl rfl) rfl rfl

theorem Wrote.trans (h : Wrote s out t) (k : Wrote t more u) : Wrote s (out ++ more) u where
  emits := h.emits.trans k.emits
  only := h.only.trans k.only
  outLen := by rw [k.outLen, h.outLen, List.length_append, Nat.add_assoc]
  bytes := by
    have hold : u.mem.bytes (s.block.dstAddr.toNat + s.block.outLen.toNat) out.length = out := by
      refine (Memory.bytes_congr fun i hi => k.emits.mem _ ?_).trans h.bytes
      rw [h.emits.dstAddr, h.outLen]
      omega
    have hnew := k.bytes
    rw [h.emits.dstAddr, h.outLen, ← Nat.add_assoc] at hnew
    rw [List.length_append, Memory.bytes_add, hold, hnew]

theorem Wrote.busOk (h : Wrote s out t) (a : Nat) (k : AccessKind) : t.platform.busOk a k = s.platform.busOk a k := by
  obtain ⟨hplatform, -⟩ := h.emits.around
  rw [hplatform]

theorem Wrote.code (h : Wrote s out t) : t.block.code = s.block.code := by
  have := h.only
  unfold OnlyCursor at this
  rw [this]

/-- The bytes put are the only ones that may read differently. -/
theorem Wrote.read (h : Wrote s out t) {a : Nat}
    (ha : ¬(s.block.dstAddr.toNat ≤ a ∧ a < s.block.dstAddr.toNat + (s.block.outLen.toNat + out.length))) :
    t.mem.read a = s.mem.read a :=
  h.emits.mem a (by rw [h.outLen]; omega)

/-- What fits after bytes were put is what fitted beyond them. -/
theorem Wrote.fits_iff (h : Wrote s out t) : Fits t n ↔ s.block.outLen.toNat + out.length + n ≤ s.block.dstCap.toNat ∧
    ∀ k, k < n → s.platform.busOk (s.block.dstAddr.toNat + (s.block.outLen.toNat + out.length + k)) .write = true := by
  simp only [Fits, h.emits.dstAddr, h.emits.dstCap, h.outLen, h.busOk]

/-- From OUT_LEN = 0 on, OUT_LEN counts the bytes put. -/
theorem Wrote.outLen_of_start (h : Wrote (setOutLen 0 s) out t) : t.block.outLen.toNat = out.length :=
  h.outLen.trans (Nat.zero_add _)

/-- From OUT_LEN = 0 on, the bytes put are the first of the destination. -/
theorem Wrote.bytes_of_start (h : Wrote (setOutLen 0 s) out t) :
    t.mem.bytes s.block.dstAddr.toNat out.length = out := h.bytes

/-- From OUT_LEN = 0 on, what reads differently is a destination byte that OUT_LEN counts. -/
theorem Wrote.read_of_start (h : Wrote (setOutLen 0 s) out t) {a : Nat}
    (ha : ¬(s.block.dstAddr.toNat ≤ a ∧ a < s.block.dstAddr.toNat + out.length)) : t.mem.read a = s.mem.read a := by
  rw [← Nat.zero_add out.length] at ha
  exact h.read ha

theorem Wrote.length_le_of_start (h : Wrote (setOutLen 0 s) out t) : out.length ≤ s.block.dstCap.toNat :=
  h.outLen_of_start.symm.trans_le (h.emits.bound (Nat.zero_le _))

theorem Wrote.fits_iff_of_start (h : Wrote (setOutLen 0 s) out t) : Fits t n ↔
    out.length + n ≤ s.block.dstCap.toNat ∧
      ∀ k, k < n → s.platform.busOk (s.block.dstAddr.toNat + (out.length + k)) .write = true := by
  have hiff := h.fits_iff (n := n)
  rw [show (setOutLen 0 s).block.outLen.toNat = 0 from rfl, Nat.zero_add] at hiff
  exact hiff

theorem Fits.after (hf : Fits s (out.length + n)) (h : Wrote s out t) : Fits t n := by
  obtain ⟨hcap, hok⟩ := hf
  refine h.fits_iff.mpr ⟨by omega, fun k hk => ?_⟩
  rw [Nat.add_assoc]
  exact hok _ (by omega)

theorem Fits.mono {m : Nat} (hf : Fits s n) (h : m ≤ n) : Fits s m :=
  ⟨(Nat.add_le_add_left h _).trans hf.1, fun k hk => hf.2 k (hk.trans_le h)⟩

theorem Fits.add (hf : Fits s out.length) (h : Wrote s out t) (hn : Fits t n) : Fits s (out.length + n) := by
  obtain ⟨hcap, hok⟩ := h.fits_iff.mp hn
  refine ⟨by omega, fun k hk => ?_⟩
  rcases Nat.lt_or_ge k out.length with hlt | hge
  · exact hf.2 k hlt
  · have := hok (k - out.length) (by omega)
    rwa [Nat.add_assoc, Nat.add_sub_cancel' hge] at this

/-- A byte that fits is put. -/
theorem put_fits (hwf : s.mem.wf = true) (hf : Fits s 1) (b : Byte) : ∃ t, put b s = .ok () t ∧ Wrote s [b] t := by
  obtain ⟨hcap, hok⟩ := hf
  have hroom : s.block.outLen ≠ s.block.dstCap := fun h => by rw [h] at hcap; omega
  have hput := put_eq b s
  rw [if_neg hroom, if_pos (by simpa using hok 0 Nat.one_pos)] at hput
  have hends := put_ends b s (by omega)
  rw [hput] at hends
  refine ⟨_, hput, hends.emits, hends.only.cursor, ?_, ?_⟩
  · have := s.block.dstCap.isLt
    have hone : (s.block.outLen + 1#32).toNat = s.block.outLen.toNat + 1 := by
      rw [BitVec.toNat_add_of_lt (by simp; omega)]
      rfl
    exact hone
  · exact congrArg (· :: []) (Memory.read_write_same hwf _ _)

/-- Only a byte that fits is put. -/
theorem fits_of_put (hle : s.block.outLen.toNat ≤ s.block.dstCap.toNat) (h : put b s = .ok () t) : Fits s 1 := by
  rw [put_eq] at h
  split at h
  · cases h
  · rename_i hne
    split at h
    · rename_i hok
      have : s.block.outLen.toNat ≠ s.block.dstCap.toNat := fun h => hne (BitVec.eq_of_toNat_eq h)
      exact ⟨by omega, fun k hk => by rwa [Nat.lt_one_iff.mp hk]⟩
    · cases h

/-- Bytes that fit are put. -/
theorem putBytes_fits (hwf : s.mem.wf = true) (hf : Fits s out.length) :
    ∃ t, putBytes out s = .ok () t ∧ Wrote s out t := by
  induction out generalizing s with
  | nil => exact ⟨s, rfl, .refl s⟩
  | cons b rest ih =>
    obtain ⟨t, hput, ht⟩ := put_fits hwf (hf.mono (by simp)) b
    obtain ⟨u, hrest, hu⟩ := ih (ht.emits.wf hwf) ((hf.mono (Nat.add_comm 1 _).le).after ht)
    exact ⟨u, by rw [putBytes, hput, Res.andThen_ok, hrest], ht.trans hu⟩

/-- Only bytes that fit are put. -/
theorem fits_of_putBytes (hwf : s.mem.wf = true) (hle : s.block.outLen.toNat ≤ s.block.dstCap.toNat)
    (h : putBytes out s = .ok () t) : Fits s out.length := by
  induction out generalizing s with
  | nil => exact ⟨hle, nofun⟩
  | cons b rest ih =>
    obtain ⟨_, v, hv, hrest⟩ := Res.andThen_eq_ok.mp h
    have hb := fits_of_put hle hv
    obtain ⟨u, hu, hwrote⟩ := put_fits hwf hb b
    obtain rfl : u = v := by rw [hu] at hv; cases hv; rfl
    have hmore := ih (hwrote.emits.wf hwf) (hwrote.emits.hasRoom ⟨rfl, hle⟩).2 hrest
    exact (Fits.add (out := [b]) hb hwrote hmore).mono (Nat.add_comm _ 1).le

/-- The error that a put at OUT_LEN = `q` ends with: DST_OVERFLOW at capacity, or BUS_ERROR where the write fails. -/
inductive PutStops (s : State) (q : Nat) : Err → Prop where
  | full (h : q = s.block.dstCap.toNat) : PutStops s q ⟨.dstOverflow, BitVec.ofNat 32 q⟩
  | fails (h : q < s.block.dstCap.toNat) (hok : s.platform.busOk (s.block.dstAddr.toNat + q) .write = false) :
    PutStops s q ⟨.busError, BitVec.ofNat 32 (s.block.dstAddr.toNat + q)⟩

theorem PutStops.after {q : Nat} {e : Err} (h : PutStops s q e) (hw : Wrote s out t) : PutStops t q e := by
  cases h with
  | full h => exact .full (by rw [hw.emits.dstCap, h])
  | fails h hok =>
    rw [← hw.emits.dstAddr]
    exact .fails (by rwa [hw.emits.dstCap]) (by rwa [hw.busOk, hw.emits.dstAddr])

theorem PutStops.setOutLen {q : Nat} {e : Err} (h : PutStops s q e) (v : Word) : PutStops (setOutLen v s) q e := by
  cases h with
  | full h => exact .full h
  | fails h hok => exact .fails (s := Machine.setOutLen v s) h hok

/-- A put that stops writes nothing. -/
theorem put_stops {e : Err} (h : PutStops s s.block.outLen.toNat e) (b : Byte) :
    ∃ t, put b s = .raised e t ∧ Wrote s [] t := by
  rw [put_eq]
  cases h with
  | full h =>
    rw [if_pos (BitVec.eq_of_toNat_eq h), h, BitVec.ofNat_toNat, BitVec.setWidth_eq]
    exact ⟨s, rfl, .refl s⟩
  | fails h hok =>
    rw [if_neg fun he => by rw [he] at h; exact absurd h (lt_irrefl _), if_neg (by simp [hok])]
    exact ⟨_, rfl, .noteBus _ _ s⟩

/-- Bytes of which the first `n` fit and the next one stops: the first `n` are put. -/
theorem putBytes_stops {e : Err} (hwf : s.mem.wf = true) (hn : n < out.length) (hf : Fits s n)
    (h : PutStops s (s.block.outLen.toNat + n) e) : ∃ t, putBytes out s = .raised e t ∧ Wrote s (out.take n) t := by
  have hlen : (out.take n).length = n := List.length_take_of_le hn.le
  obtain ⟨t, hput, ht⟩ := putBytes_fits (out := out.take n) hwf (hlen.symm ▸ hf)
  have hstop : PutStops t t.block.outLen.toNat e := by
    rw [ht.outLen, hlen]
    exact h.after ht
  obtain ⟨u, hraised, hu⟩ := put_stops hstop out[n]
  refine ⟨u, ?_, by simpa using ht.trans hu⟩
  conv_lhs => rw [← List.take_append_drop n out, List.drop_eq_getElem_cons hn, putBytes_append, hput]
  rw [Res.andThen_ok, putBytes, hraised, Res.andThen_raised]

end

end Sys2Proof.Machine
end

section
/-! SUPPORT. ENCODE: the packer as the putting of the bytes its bits fill, and from the state it reaches after any number
of source bytes how the command ends (44_bit_packer.md R185 to R191). -/

namespace Sys2Proof.Machine

/-! ### The packer as the putting of bytes (R186) -/

/-- The packer once these bits are packed. -/
def Packer.after (bits : List Bool) : Packer := ⟨packByte (pendingBits bits), bits.length % 8, bits.length⟩

@[simp] theorem Packer.after_k (bits : List Bool) : (Packer.after bits).k = bits.length % 8 := rfl

theorem Packer.after_nil : Packer.after [] = .empty := by simp [after, empty, pendingBits, packByte]

theorem packBit_after (bits : List Bool) (b : Bool) (s : State) : packBit b (.after bits) s =
    (putBytes (newBytes bits [b]) s).andThen fun _ t => .ok (.after (bits ++ [b])) t := by
  by_cases hfull : bits.length % 8 + 1 = 8
  · have hafter : Packer.after (bits ++ [b]) = ⟨0, 0, bits.length + 1⟩ := by
      have hlen : (bits ++ [b]).length % 8 = 0 := by rw [List.length_append, List.length_singleton]; omega
      rw [Packer.after, pendingBits_full hlen, hlen, List.length_append, List.length_singleton]
      rfl
    rw [newBytes_full hfull, packByte_concat, hafter, packBit, Packer.after, if_pos hfull, putBytes, Res.andThen_assoc]
    rfl
  · have hpart : bits.length % 8 + [b].length < 8 := by rw [List.length_singleton]; omega
    rw [newBytes_partial hpart, packBit, Packer.after, if_neg hfull, putBytes, Res.andThen_ok, Packer.after,
      pendingBits_partial hpart, packByte_concat, List.length_append, List.length_singleton,
      show (bits.length + 1) % 8 = bits.length % 8 + 1 by omega]

/-- Packing bits puts the bytes they fill. -/
theorem packBits_after (bits more : List Bool) (s : State) : packBits more (.after bits) s =
    (putBytes (newBytes bits more) s).andThen fun _ t => .ok (.after (bits ++ more)) t := by
  induction more generalizing bits s with
  | nil => rw [newBytes_nil, List.append_nil]; rfl
  | cons b rest ih =>
    have hsplit : b :: rest = [b] ++ rest := rfl
    rw [packBits, packBit_after, Res.andThen_assoc, hsplit, newBytes_append, putBytes_append, Res.andThen_assoc]
    simp only [Res.andThen_ok, ih, List.append_assoc]

/-- The trailing partial byte is the one that zero padding fills. -/
theorem packTail_after (bits : List Bool) (s : State) :
    packTail (.after bits) s = putBytes (newBytes bits (padding bits)) s := by
  by_cases hpart : bits.length % 8 = 0
  · rw [packTail, if_neg (by simp [hpart]), padding, hpart, Nat.sub_zero, Nat.mod_self, List.replicate_zero,
      newBytes_nil]
    rfl
  · have hpad : (8 - bits.length % 8) % 8 = 8 - bits.length % 8 := Nat.mod_eq_of_lt (by omega)
    have hlen : bits.length % 8 + (padding bits).length = 8 := by rw [padding, List.length_replicate]; omega
    have hpos : (Packer.after bits).k > 0 := Nat.pos_of_ne_zero hpart
    rw [packTail, if_pos hpos, newBytes_full hlen, padding, packByte_padded, hpad, putBytes]
    exact (Res.andThen_ok_unit _).symm

/-! ### Checks before packing (R185, R132) -/

/-- In legal regions no source byte is a destination byte (R132). -/
theorem source_apart {b : Block} (h : RegionsLegal b) {j n : Nat} (hj : j < b.srcLen.toNat) (hn : n ≤ b.dstCap.toNat) :
    ¬(b.dstAddr.toNat ≤ b.srcAddr.toNat + j ∧ b.srcAddr.toNat + j < b.dstAddr.toNat + n) := by
  obtain ⟨-, -, hdisjoint⟩ := h
  rcases hdisjoint with h | h | h | h
  · rw [h] at hj
    exact absurd hj (Nat.not_lt_zero j)
  · have hnone : b.dstCap.toNat = 0 := by rw [h]; rfl
    omega
  · omega
  · omega

theorem exec_encode_of_rule {s : State} {r : Res Unit} (h : encodeRule s = r) : exec .encode s = .next (finish r) := by
  rw [exec_eq, rule, h]

/-- A region check that fails ends ENCODE with its error (R132, R240). -/
theorem encodeRule_of_checkRegions {s : State} {e : Err} (hv : s.block.codeValid = true) (hlen : s.block.srcLen ≠ 0)
    (h : checkRegions s.block = some e) : encodeRule s = .raised e (setOutLen 0 s) := by
  rw [encodeRule, if_neg (by simp [hv]), if_neg hlen, h, require_some, Res.andThen_raised]

/-- Regions in range that are not legal intersect (R132). -/
theorem checkRegions_of_overlap {b : Block} (hsrc : b.srcAddr.toNat + b.srcLen.toNat ≤ 4294967296)
    (hdst : b.dstAddr.toNat + b.dstCap.toNat ≤ 4294967296) (h : ¬RegionsLegal b) :
    checkRegions b = some ⟨.regionOverlap, 0⟩ := by
  have hne : checkRegions b ≠ none := fun hnone => h (checkRegions_eq_none.mp hnone)
  rw [checkRegions, checkSrc_eq_none.mpr hsrc, checkDst_eq_none.mpr hdst] at hne ⊢
  exact if_pos (ite_ne_right_iff.mp hne).1

/-- Settles O22: the rule of ENCODE makes these checks in order, before it accesses memory. -/
theorem encodeChecksInOrder : Obligations.EncodeChecksInOrder := by
  intro s failed
  have exec_of {c : ErrCode} {info : Word} (h : encodeRule s = .raised ⟨c, info⟩ (setOutLen 0 s)) :
      exec .encode s = .next (failed c info) := exec_encode_of_rule h
  refine ⟨fun hv => exec_of (if_pos hv), fun hv => ⟨fun hlen => exec_of ?_, fun hlen => ⟨fun hsrc => exec_of ?_,
    fun hsrc => ⟨fun hdst => exec_of ?_, fun hdst hlegal => exec_of ?_⟩⟩⟩⟩
  · rw [encodeRule, if_neg (by simp [hv]), if_pos hlen]
  · refine encodeRule_of_checkRegions hv hlen ?_
    rw [checkRegions, checkSrc, Config.spaceEnd, if_pos hsrc]
  · refine encodeRule_of_checkRegions hv hlen ?_
    rw [checkRegions, checkSrc_eq_none.mpr hsrc, checkDst, Config.spaceEnd, if_pos hdst]
  · exact encodeRule_of_checkRegions hv hlen (checkRegions_of_overlap hsrc hdst hlegal)

/-! ### Frame (R185, R189, R191) -/

theorem OnlyOutput.completeOk_block {s t : State} (h : OnlyOutput (setOutLen 0 s) t) : (completeOk t).block =
    { s.block with outLen := t.block.outLen, totalBits := t.block.totalBits, engine := .idle, done := true } := by
  unfold OnlyOutput at h
  rw [Machine.completeOk_block, h]
  rfl

theorem OnlyOutput.raise_block {s t : State} (h : OnlyOutput (setOutLen 0 s) t) (e : Err) : (raise e t).block =
    { s.block with
      outLen := t.block.outLen, totalBits := t.block.totalBits, errCode := e.code, errInfo := e.info
      engine := .idle, err := true } := by
  unfold OnlyOutput at h
  rw [Machine.raise_block, h]
  rfl

/-- Settles O25: what the rule of ENCODE may change, and that it raises before TOTAL_BITS is written. -/
theorem encodeFrame : Obligations.EncodeFrame := by
  intro s
  obtain ⟨⟨hemits, honly, -⟩, hbits⟩ := encodeRule_ends s
  have hcap := hemits.bound (Nat.zero_le _)
  refine ⟨_, exec_eq .encode s, ?_⟩
  rw [rule]
  cases hr : encodeRule s with
  | ok a t =>
    rw [hr, Res.state_ok] at hemits honly hcap
    have hblock := OnlyOutput.completeOk_block honly
    refine ⟨?_, fun h₀ h₁ => ?_, hcap, hemits.mem, hemits.around⟩
    · rw [finish_ok, hblock]
    · rw [finish_ok, hblock, h₀] at h₁
      cases h₁
  | raised e t =>
    rw [hr, Res.state_raised] at hemits honly hcap
    refine ⟨?_, fun _ _ => hbits e t hr, hcap, hemits.mem, hemits.around⟩
    rw [finish_raised, OnlyOutput.raise_block honly]

/-! ### From one source byte to the next (R186, R188, R190) -/

/-- ENCODE of `s` has packed the first `j` source bytes and stands at `t`. -/
def Packed (s : State) (j : Nat) (t : State) : Prop := Wrote (setOutLen 0 s) (wholeBytes (packedBits s j)) t

/-- What ENCODE of `s` does from `t` on, with the first `j` source bytes packed. -/
def packFrom (s : State) (j : Nat) (t : State) : Res Unit :=
  (packLoop s.block.srcAddr.toNat (s.block.srcLen.toNat - j) j (.after (packedBits s j)) t).andThen fun p u =>
    (packTail p u).andThen fun _ v => .ok () (setTotalBits (BitVec.ofNat 32 p.tb) v)

theorem packedBits_zero (s : State) : packedBits s 0 = [] := rfl

theorem packedBits_succ (s : State) (j : Nat) :
    packedBits s (j + 1) = packedBits s j ++ codeBits (entry s.block.code (sourceByte s j)) := by
  rw [packedBits, packedBits, sourcePrefix, Memory.bytes_succ, bitstream, bitstream, List.flatMap_append,
    List.flatMap_singleton]
  rfl

theorem encodeRule_eq_packFrom {s : State} (hv : s.block.codeValid = true) (hlen : s.block.srcLen ≠ 0)
    (hlegal : RegionsLegal s.block) : encodeRule s = packFrom s 0 (setOutLen 0 s) := by
  rw [encodeRule, if_neg (by simp [hv]), if_neg hlen, checkRegions_eq_none.mpr hlegal, packFrom,
    packedBits_zero, Packer.after_nil]
  rfl

theorem packSymbol_after (j : Nat) (sym : Byte) (bits : List Bool) (s : State) :
    packSymbol j sym (.after bits) s =
      if (entry s.block.code sym).len = 0 then .raised ⟨.noCode, BitVec.ofNat 32 j⟩ s
      else if (bits ++ codeBits (entry s.block.code sym)).length > 4294967295 then
        .raised ⟨.bitsOverflow, BitVec.ofNat 32 j⟩ s
      else (putBytes (newBytes bits (codeBits (entry s.block.code sym))) s).andThen fun _ t =>
        .ok (.after (bits ++ codeBits (entry s.block.code sym))) t := by
  rw [packSymbol, packBits_after, List.length_append, length_codeBits]
  rfl

section
variable {s t : State} {j : Nat}

theorem Packed.noteBus (h : Packed s j t) (k : AccessKind) (a : Nat) : Packed s j (noteBus k a t) := by
  simpa [Packed] using Wrote.trans h (.noteBus k a t)

theorem Packed.wf (h : Packed s j t) (hwf : s.mem.wf = true) : t.mem.wf = true := h.emits.wf hwf

theorem Packed.code (h : Packed s j t) : t.block.code = s.block.code :=
  Wrote.code (s := setOutLen 0 s) h

theorem Packed.busOk (h : Packed s j t) (a : Nat) (k : AccessKind) : t.platform.busOk a k = s.platform.busOk a k :=
  Wrote.busOk h a k

theorem Packed.outLen_le (h : Packed s j t) : t.block.outLen.toNat ≤ t.block.dstCap.toNat := by
  rw [h.emits.dstCap]
  exact h.emits.bound (Nat.zero_le _)

/-- The destination bytes written so far are no source bytes, so these read as before. -/
theorem Packed.sourceByte (h : Packed s j t) (hlegal : RegionsLegal s.block) (hj : j < s.block.srcLen.toNat) :
    t.mem.read (s.block.srcAddr.toNat + j) = sourceByte s j :=
  Wrote.read_of_start h (source_apart hlegal hj (Wrote.length_le_of_start h))

/-- What still fits once the first `j` source bytes are packed. -/
theorem Packed.fits_iff (h : Packed s j t) {n : Nat} : Fits t n ↔
    (packedBits s j).length / 8 + n ≤ s.block.dstCap.toNat ∧
      ∀ k, k < n → s.platform.busOk (s.block.dstAddr.toNat + ((packedBits s j).length / 8 + k)) .write = true := by
  rw [← length_wholeBytes]
  exact Wrote.fits_iff_of_start h

/-- The bytes that more bits fill are put where they fit. -/
theorem Packed.putBytes_fits (h : Packed s j t) (hwf : s.mem.wf = true) (more : List Bool)
    (hcap : (packedBits s j ++ more).length / 8 ≤ s.block.dstCap.toNat)
    (hok : DestWritable s ((packedBits s j ++ more).length / 8)) :
    ∃ u, putBytes (newBytes (packedBits s j) more) t = .ok () u ∧
      Wrote (setOutLen 0 s) (wholeBytes (packedBits s j ++ more)) u := by
  have hle : (packedBits s j).length / 8 ≤ (packedBits s j ++ more).length / 8 := by
    rw [List.length_append]; omega
  have hfits : Fits t (newBytes (packedBits s j) more).length := by
    rw [length_newBytes]
    exact h.fits_iff.mpr ⟨by omega, fun k hk => hok _ (by omega)⟩
  obtain ⟨u, hput, hu⟩ := Machine.putBytes_fits (h.wf hwf) hfits
  refine ⟨u, hput, ?_⟩
  rw [wholeBytes_append]
  exact Wrote.trans h hu

/-- The bytes that more bits fill are put only where they fit. -/
theorem Packed.fits_of_putBytes (h : Packed s j t) (hwf : s.mem.wf = true) {more : List Bool} {u : State}
    (hok : DestWritable s ((packedBits s j).length / 8))
    (hput : putBytes (newBytes (packedBits s j) more) t = .ok () u) :
    (packedBits s j ++ more).length / 8 ≤ s.block.dstCap.toNat ∧
      DestWritable s ((packedBits s j ++ more).length / 8) := by
  obtain ⟨hcap, hmore⟩ := h.fits_iff.mp (Machine.fits_of_putBytes (h.wf hwf) h.outLen_le hput)
  rw [length_newBytes] at hcap hmore
  have hle : (packedBits s j).length / 8 ≤ (packedBits s j ++ more).length / 8 := by
    rw [List.length_append]; omega
  refine ⟨by omega, fun k hk => ?_⟩
  rcases Nat.lt_or_ge k ((packedBits s j).length / 8) with hlt | hge
  · exact hok k hlt
  · obtain ⟨n, rfl⟩ := Nat.exists_eq_add_of_le hge
    exact hmore n (by omega)

/-- Where the byte `q` of those that more bits fill cannot be put, the bytes before it are. -/
theorem Packed.putBytes_stops (h : Packed s j t) (hwf : s.mem.wf = true) (more : List Bool) {q : Nat} {e : Err}
    (h₁ : (packedBits s j).length / 8 ≤ q) (h₂ : q < (packedBits s j ++ more).length / 8) (hok : DestWritable s q)
    (hstop : PutStops s q e) : ∃ u, putBytes (newBytes (packedBits s j) more) t = .raised e u ∧
      Wrote (setOutLen 0 s) ((wholeBytes (packedBits s j ++ more)).take q) u := by
  obtain ⟨n, rfl⟩ := Nat.exists_eq_add_of_le h₁
  have hcap : (packedBits s j).length / 8 + n ≤ s.block.dstCap.toNat := by cases hstop <;> omega
  have hfits : Fits t n := h.fits_iff.mpr ⟨hcap, fun k hk => hok _ (by omega)⟩
  have hout : t.block.outLen.toNat = (packedBits s j).length / 8 :=
    (Wrote.outLen_of_start h).trans (length_wholeBytes _)
  obtain ⟨u, hput, hu⟩ := Machine.putBytes_stops (out := newBytes (packedBits s j) more) (h.wf hwf)
    (by rw [length_newBytes]; omega) hfits (by rw [hout]; exact (hstop.setOutLen 0).after h)
  refine ⟨u, hput, ?_⟩
  rw [wholeBytes_append, ← length_wholeBytes, List.take_length_add_append]
  exact Wrote.trans h hu

/-- One source byte: it is read, has a code that the bit count allows, and the bytes its bits fill are put; else ENCODE
ends here. -/
theorem packFrom_step (h : Packed s j t) (hlegal : RegionsLegal s.block) (hj : j < s.block.srcLen.toNat) :
    packFrom s j t =
      if s.platform.busOk (s.block.srcAddr.toNat + j) .read = true then
        if (entry s.block.code (sourceByte s j)).len = 0 then
          .raised ⟨.noCode, BitVec.ofNat 32 j⟩ (noteBus .read (s.block.srcAddr.toNat + j) t)
        else if (packedBits s (j + 1)).length > 4294967295 then
          .raised ⟨.bitsOverflow, BitVec.ofNat 32 j⟩ (noteBus .read (s.block.srcAddr.toNat + j) t)
        else
          (putBytes (newBytes (packedBits s j) (codeBits (entry s.block.code (sourceByte s j))))
            (noteBus .read (s.block.srcAddr.toNat + j) t)).andThen fun _ u => packFrom s (j + 1) u
      else .raised ⟨.busError, BitVec.ofNat 32 (s.block.srcAddr.toNat + j)⟩
        (noteBus .read (s.block.srcAddr.toNat + j) t) := by
  have hcode : (noteBus .read (s.block.srcAddr.toNat + j) t).block.code = s.block.code := h.code
  rw [packFrom, show s.block.srcLen.toNat - j = s.block.srcLen.toNat - (j + 1) + 1 by omega, packLoop_succ, busRead_eq,
    h.busOk, h.sourceByte hlegal hj]
  split
  · rw [Res.andThen_ok, packSymbol_after, hcode, ← packedBits_succ]
    split
    · rfl
    · split
      · rfl
      · simp only [Res.andThen_assoc, Res.andThen_ok, packFrom]
  · rfl

/-- After the last source byte the trailing partial byte is put, and TOTAL_BITS is set. -/
theorem packFrom_end (s t : State) : packFrom s s.block.srcLen.toNat t =
    (putBytes (newBytes (packedBits s s.block.srcLen.toNat) (padding (packedBits s s.block.srcLen.toNat))) t).andThen
      fun _ u => .ok () (setTotalBits (BitVec.ofNat 32 (packedBits s s.block.srcLen.toNat).length) u) := by
  rw [packFrom, Nat.sub_self, packLoop, Res.andThen_ok, packTail_after]
  rfl

theorem sourcePrefix_coded_succ : (∀ b ∈ sourcePrefix s (j + 1), (entry s.block.code b).len ≠ 0) ↔
    (∀ b ∈ sourcePrefix s j, (entry s.block.code b).len ≠ 0) ∧ (entry s.block.code (sourceByte s j)).len ≠ 0 := by
  rw [sourcePrefix, Memory.bytes_succ, List.forall_mem_append, List.forall_mem_singleton]
  rfl

theorem packsFirst_of_succ (h : PacksFirst s (j + 1)) : PacksFirst s j := by
  obtain ⟨hj, hread, hcoded, hbits, hcap, hok⟩ := h
  rw [packedBits_succ, List.length_append] at hbits hcap hok
  refine ⟨by omega, fun k hk => hread k (by omega), (sourcePrefix_coded_succ.mp hcoded).1, by omega,
    by omega, fun k hk => hok k (by omega)⟩

theorem packsFirst_zero (s : State) : PacksFirst s 0 := by
  refine ⟨Nat.zero_le _, nofun, nofun, ?_, ?_, ?_⟩ <;> rw [packedBits_zero]
  · exact Nat.zero_le _
  · exact Nat.zero_le _
  · exact nofun

end

section
variable {s : State} {j : Nat}

/-- Where the first `j` source bytes pack, ENCODE gets past them with the bytes they fill written. -/
theorem encodeRule_packed (hwf : s.mem.wf = true) (hv : s.block.codeValid = true) (hlen : s.block.srcLen ≠ 0)
    (hlegal : RegionsLegal s.block) (h : PacksFirst s j) : ∃ t, Packed s j t ∧ encodeRule s = packFrom s j t := by
  induction j with
  | zero =>
    have hstart : Packed s 0 (setOutLen 0 s) := by
      rw [Packed, packedBits_zero, wholeBytes_nil]
      exact .refl _
    exact ⟨_, hstart, encodeRule_eq_packFrom hv hlen hlegal⟩
  | succ j ih =>
    obtain ⟨t, ht, hrule⟩ := ih (packsFirst_of_succ h)
    obtain ⟨hj, hread, hcoded, hbits, hcap, hok⟩ := h
    obtain ⟨u, hput, hu⟩ := (ht.noteBus .read (s.block.srcAddr.toNat + j)).putBytes_fits hwf _
      (packedBits_succ s j ▸ hcap) (packedBits_succ s j ▸ hok)
    rw [← packedBits_succ] at hu
    refine ⟨u, hu, hrule.trans ?_⟩
    rw [packFrom_step ht hlegal hj, if_pos (hread j (Nat.lt_succ_self j)),
      if_neg (sourcePrefix_coded_succ.mp hcoded).2, if_neg (Nat.not_lt.mpr hbits), hput, Res.andThen_ok]

end

/-! ### How ENCODE ends (R187 to R191) -/

/-- ENCODE ends with this error, the first `whole` bytes of a stream written and nothing else changed. -/
def EndsPacking (s : State) (e : Err) (whole : Nat) (bits : List Bool) : Prop :=
  ∃ t, exec .encode s = .next t ∧
    t.block = { s.block with
      outLen := BitVec.ofNat 32 whole, errCode := e.code, errInfo := e.info, engine := .idle, err := true } ∧
    (∀ i, i < 8 * whole → packedBit t.mem s.block.dstAddr.toNat i = bits.getD i false) ∧
    MemSameOutside s.mem t.mem s.block.dstAddr.toNat whole ∧ SameAround s t

section
variable {s t : State} {j : Nat}

theorem Wrote.outLen_eq_of_start {out : List Byte} (h : Wrote (setOutLen 0 s) out t) :
    t.block.outLen = BitVec.ofNat 32 out.length := by
  rw [← h.outLen_of_start, BitVec.ofNat_toNat, BitVec.setWidth_eq]

/-- An error raised with the first bytes of a stream written ends ENCODE so. -/
theorem endsPacking_of_raised {e : Err} {whole : Nat} {bits : List Bool} (h : encodeRule s = .raised e t)
    (hwhole : whole ≤ bits.length / 8) (hw : Wrote (setOutLen 0 s) ((wholeBytes bits).take whole) t) :
    EndsPacking s e whole bits := by
  have hlen : ((wholeBytes bits).take whole).length = whole := by
    rw [List.length_take, length_wholeBytes, Nat.min_eq_left hwhole]
  obtain ⟨⟨-, honly, -⟩, hbits⟩ := encodeRule_ends s
  rw [h, Res.state_raised] at honly
  have hblock := OnlyOutput.raise_block honly e
  rw [hbits e t h, hw.outLen_eq_of_start, hlen] at hblock
  have hbytes := hw.bytes_of_start
  rw [hlen] at hbytes
  refine ⟨raise e t, exec_encode_of_rule h, hblock, fun i hi => packedBit_of_bytes hwhole hbytes hi, fun a ha => ?_,
    hw.emits.around⟩
  exact hw.read_of_start (by rwa [hlen])

/-- An error raised at a byte boundary: all the bytes that the stream fills are written. -/
theorem Packed.endsPacking {e : Err} (h : Packed s j t) (hrule : encodeRule s = .raised e t) :
    EndsPacking s e ((packedBits s j).length / 8) (packedBits s j) := by
  refine endsPacking_of_raised hrule (Nat.le_refl _) ?_
  rw [← length_wholeBytes, List.take_length]
  exact h

/-- Settles O23: the bytes before pack, and the code of this one is looked at before any bit of it. -/
theorem encodeStopsAtUncodedByte : Obligations.EncodeStopsAtUncodedByte := by
  intro s j hwf hv hlegal hj hread hcoded hcode hbits hcap hok
  have hlen : s.block.srcLen ≠ 0 := fun h => by rw [h] at hj; exact absurd hj (Nat.not_lt_zero j)
  obtain ⟨t, ht, hrule⟩ := encodeRule_packed hwf hv hlen hlegal
    ⟨hj.le, fun k hk => hread k (by omega), hcoded, hbits, hcap, hok⟩
  rw [packFrom_step ht hlegal hj, if_pos (hread j (Nat.lt_succ_self j)), if_pos hcode] at hrule
  obtain ⟨u, hexec, hblock, hstream, hmem, -⟩ := (ht.noteBus _ _).endsPacking hrule
  have hout : u.block.outLen.toNat = (packedBits s j).length / 8 := by
    rw [hblock]
    exact Nat.mod_eq_of_lt (hcap.trans_lt s.block.dstCap.isLt)
  exact ⟨u, hexec, hblock, hout.symm ▸ hstream, hout.symm ▸ hmem⟩

/-- Settles O24: with the first bytes packed, the next pass of the loop, or the trailing byte, stops. -/
theorem encodeStopsWhilePacking : Obligations.EncodeStopsWhilePacking := by
  intro s j hwf hv hlegal h ends stopsAtByte packed next
  obtain ⟨hjle, -, -, -, -, hok⟩ := id h
  rcases eq_or_ne s.block.srcLen 0 with hzero | hlen
  · have hnone : s.block.srcLen.toNat = 0 := by rw [hzero]; rfl
    obtain rfl : j = 0 := by omega
    exact ⟨fun hj => by omega, fun hj => by omega, fun _ hpart => absurd rfl hpart⟩
  obtain ⟨t, ht, hrule⟩ := encodeRule_packed hwf hv hlen hlegal h
  have stops_of {q : Nat} {bits : List Bool} (hends : ∀ e, PutStops s q e → EndsPacking s e q bits) :
      stopsAtByte q bits := ⟨fun hq => hends _ (.full hq), fun hq hfail => hends _ (.fails hq hfail)⟩
  refine ⟨fun hj hfail => ?_, fun hj hread hcode => ⟨fun hbits => ?_, fun hbits q h₁ h₂ hok => stops_of fun e he => ?_⟩,
    fun hj hpart => stops_of fun e he => ?_⟩
  · rw [packFrom_step ht hlegal hj, if_neg (by simp [hfail])] at hrule
    exact (ht.noteBus _ _).endsPacking hrule
  · rw [packFrom_step ht hlegal hj, if_pos hread, if_neg hcode, if_pos hbits] at hrule
    exact (ht.noteBus _ _).endsPacking hrule
  · obtain ⟨u, hput, hu⟩ := (ht.noteBus .read (s.block.srcAddr.toNat + j)).putBytes_stops hwf
      (codeBits (entry s.block.code (sourceByte s j))) h₁ (by rwa [← packedBits_succ]) hok he
    rw [packFrom_step ht hlegal hj, if_pos hread, if_neg hcode, if_neg (Nat.not_lt.mpr hbits), hput,
      Res.andThen_raised] at hrule
    rw [← packedBits_succ] at hu
    exact endsPacking_of_raised hrule h₂.le hu
  · subst hj
    have hnext : packed.length / 8 < (packed ++ padding packed).length / 8 := by
      rw [length_padded, ceilDiv8]
      omega
    obtain ⟨u, hput, hu⟩ := ht.putBytes_stops hwf (padding packed) (Nat.le_refl _) hnext hok he
    rw [packFrom_end, hput, Res.andThen_raised] at hrule
    refine endsPacking_of_raised hrule (Nat.le_refl _) ?_
    rw [take_wholeBytes_append] at hu
    rwa [← length_wholeBytes, List.take_length]

/-- ENCODE packs the whole source and the trailing byte: the bit count fits, and the destination takes every byte. -/
def PacksAll (s : State) : Prop :=
  PacksFirst s s.block.srcLen.toNat ∧ ceilDiv8 (packedBits s s.block.srcLen.toNat).length ≤ s.block.dstCap.toNat ∧
    DestWritable s (ceilDiv8 (packedBits s s.block.srcLen.toNat).length)

theorem packedBits_all (s : State) : packedBits s s.block.srcLen.toNat = bitstream s.block.code (sourceBytes s) := rfl

theorem length_bitstream (code : Vector Code 256) (input : List Byte) :
    (bitstream code input).length = (input.map fun b => (entry code b).len.toNat).sum := by
  simp [bitstream, List.length_flatMap]

/-- Every code has a bit. -/
theorem length_le_length_bitstream {code : Vector Code 256} {input : List Byte}
    (h : ∀ b ∈ input, (entry code b).len ≠ 0) : input.length ≤ (bitstream code input).length := by
  rw [length_bitstream, ← List.length_map (fun b => (entry code b).len.toNat)]
  refine List.length_le_sum_of_one_le _ (List.forall_mem_map.mpr fun b hb => Nat.one_le_iff_ne_zero.mpr fun hzero => ?_)
  exact h b hb (BitVec.eq_of_toNat_eq hzero)

/-- An ENCODE that packs everything ends well, with the padded stream written. -/
theorem encodeRule_ok (hwf : s.mem.wf = true) (hv : s.block.codeValid = true) (hlen : s.block.srcLen ≠ 0)
    (hlegal : RegionsLegal s.block) (h : PacksAll s) :
    let bits := packedBits s s.block.srcLen.toNat
    ∃ u, encodeRule s = .ok () (setTotalBits (BitVec.ofNat 32 bits.length) u) ∧
      Wrote (setOutLen 0 s) (wholeBytes (bits ++ padding bits)) u := by
  intro bits
  obtain ⟨hfirst, hcap, hok⟩ := h
  obtain ⟨t, ht, hrule⟩ := encodeRule_packed hwf hv hlen hlegal hfirst
  have hbytes : (bits ++ padding bits).length / 8 = ceilDiv8 bits.length := by rw [length_padded]; omega
  obtain ⟨u, hput, hu⟩ := ht.putBytes_fits hwf (padding bits) (hbytes.trans_le hcap) (hbytes.symm ▸ hok)
  refine ⟨u, ?_, hu⟩
  rw [hrule, packFrom_end, hput, Res.andThen_ok]

/-- Settles O21: every byte packs, and the padded stream is what the destination holds. -/
theorem encodePacksBitstream : Obligations.EncodePacksBitstream := by
  intro s hwf hv hlen hlegal hread hcoded hbits hcap hok
  have hhalf : (bitstream s.block.code (sourceBytes s)).length / 8 ≤
      ceilDiv8 (bitstream s.block.code (sourceBytes s)).length := by rw [ceilDiv8]; omega
  obtain ⟨u, hrule, hu⟩ := encodeRule_ok hwf hv hlen hlegal
    ⟨⟨Nat.le_refl _, hread, hcoded, hbits, hhalf.trans hcap, fun k hk => hok k (hk.trans_le hhalf)⟩, hcap, hok⟩
  rw [packedBits_all] at hrule hu
  set bits := bitstream s.block.code (sourceBytes s)
  have hbytes : (wholeBytes (bits ++ padding bits)).length = ceilDiv8 bits.length := by
    rw [length_wholeBytes, length_padded]; omega
  obtain ⟨⟨-, honly, -⟩, -⟩ := encodeRule_ends s
  rw [hrule, Res.state_ok] at honly
  have hblock := OnlyOutput.completeOk_block honly
  rw [setTotalBits_block, hu.outLen_eq_of_start, hbytes] at hblock
  have hout : u.block.outLen.toNat = ceilDiv8 bits.length := hu.outLen_of_start.trans hbytes
  refine ⟨_, exec_encode_of_rule hrule, hblock, length_bitstream _ _, ?_, fun i hi => ?_, fun a ha => ?_,
    hu.emits.around⟩
  · have htotal : (completeOk (setTotalBits (BitVec.ofNat 32 bits.length) u)).block.totalBits.toNat = bits.length :=
      Nat.mod_eq_of_lt (by omega)
    have hle := length_le_length_bitstream hcoded
    rw [sourceBytes, sourcePrefix, Memory.length_bytes] at hle
    exact hle.trans_eq htotal.symm
  · have hstream := hu.bytes_of_start
    rw [hbytes] at hstream
    rw [← getD_padded]
    refine packedBit_of_bytes (length_wholeBytes (bits ++ padding bits) ▸ hbytes.ge) ?_
      (hi.trans_eq (congrArg (8 * ·) hout))
    rw [← hbytes, List.take_length, hbytes]
    exact hstream
  · refine hu.read_of_start ?_
    rw [hbytes, ← hout]
    exact ha

/-! ### What an ENCODE that succeeds has met -/

/-- ENCODE ends well only past its checks. -/
theorem checks_of_encodeRule_ok {v : State} (h : encodeRule s = .ok () v) :
    s.block.codeValid = true ∧ s.block.srcLen ≠ 0 ∧ RegionsLegal s.block := by
  unfold encodeRule at h
  split at h
  · cases h
  · rename_i hv
    split at h
    · cases h
    · rename_i hlen
      refine ⟨by simpa using hv, hlen, checkRegions_eq_none.mp ?_⟩
      cases hc : checkRegions s.block with
      | none => rfl
      | some e => rw [hc] at h; cases h

/-- One source byte of an ENCODE that ends well: none of the errors of the pass occurs. -/
theorem packsFirst_succ_of_ok {v : State} (hwf : s.mem.wf = true) (hlegal : RegionsLegal s.block)
    (hj : j < s.block.srcLen.toNat) (h : PacksFirst s j) (ht : Packed s j t) (hok : packFrom s j t = .ok () v) :
    PacksFirst s (j + 1) := by
  obtain ⟨-, hread, hcoded, -, -, hwritable⟩ := h
  rw [packFrom_step ht hlegal hj] at hok
  split at hok
  · rename_i hreadj
    split at hok
    · cases hok
    · rename_i hcode
      split at hok
      · cases hok
      · rename_i hbits
        obtain ⟨_, u, hput, -⟩ := Res.andThen_eq_ok.mp hok
        have hnoted := ht.noteBus .read (s.block.srcAddr.toNat + j)
        obtain ⟨hcap, hok⟩ := hnoted.fits_of_putBytes hwf hwritable hput
        rw [← packedBits_succ] at hcap hok
        exact ⟨hj, fun k hk => by
            rcases Nat.lt_succ_iff_lt_or_eq.mp hk with hk | rfl
            · exact hread k hk
            · exact hreadj,
          sourcePrefix_coded_succ.mpr ⟨hcoded, hcode⟩, Nat.not_lt.mp hbits, hcap, hok⟩
  · cases hok

/-- An ENCODE that ends well has packed everything. -/
theorem packsAll_of_encodeRule_ok {v : State} (hwf : s.mem.wf = true) (h : encodeRule s = .ok () v) : PacksAll s := by
  obtain ⟨hv, hlen, hlegal⟩ := checks_of_encodeRule_ok h
  have hfirst : ∀ j, j ≤ s.block.srcLen.toNat → PacksFirst s j := by
    intro j hj
    induction j with
    | zero => exact packsFirst_zero s
    | succ j ih =>
      obtain ⟨t, ht, hrule⟩ := encodeRule_packed hwf hv hlen hlegal (ih (by omega))
      exact packsFirst_succ_of_ok hwf hlegal hj (ih (by omega)) ht (hrule.symm.trans h)
  have hall := hfirst _ (Nat.le_refl _)
  obtain ⟨t, ht, hrule⟩ := encodeRule_packed hwf hv hlen hlegal hall
  rw [h, packFrom_end] at hrule
  obtain ⟨_, u, hput, -⟩ := Res.andThen_eq_ok.mp hrule.symm
  obtain ⟨-, -, -, -, -, hwritable⟩ := id hall
  have hfits := ht.fits_of_putBytes hwf hwritable hput
  rw [length_padded, Nat.mul_div_cancel_left _ (by decide)] at hfits
  exact ⟨hall, hfits⟩

end

end Sys2Proof.Machine
end

section
/-! SUPPORT. What ENCODE packs, DECODE unpacks: the automaton on encoded bytes emits them, and the loop of `walk_bits`
does what the automaton does on a stream that stays in memory (44_bit_packer.md R192; 45_decoder.md R202 to R205). -/

namespace Sys2Proof.Machine

/-! ### The automaton on encoded bytes -/

theorem HoldsTree.child {node : Vector Node 511} {i : NodeIx} {l r : CodeTree} (ht : HoldsTree node i (.fork l r))
    (b : Bool) : HoldsTree node (child (nodeAt node i) b) (if b then r else l) := by
  cases ht with
  | fork _ hl hr =>
    cases b with
    | false => exact hl
    | true => exact hr

/-- From a fork, the path of a leaf below it makes the automaton emit that leaf's byte and go back to the root. -/
theorem HoldsTree.automaton_path {node : Vector Node 511} {root cur : NodeIx} {l r : CodeTree}
    (hroot : (nodeAt node root).leaf = false) (ht : HoldsTree node cur (.fork l r)) {sym : Byte} {path : List Bool}
    (hpath : (sym, path) ∈ (CodeTree.fork l r).paths) (rest : List Bool) (i start : Nat) :
    automaton node root (path ++ rest) i cur start =
      (sym :: (automaton node root rest (i + path.length) root (i + path.length)).1,
        (automaton node root rest (i + path.length) root (i + path.length)).2) := by
  induction path generalizing cur l r i with
  | nil =>
    obtain ⟨_, _, hnil, -⟩ := CodeTree.mem_paths_fork.mp hpath
    cases hnil
  | cons b tail ih =>
    obtain ⟨_, _, hcons, htail⟩ := CodeTree.mem_paths_fork.mp hpath
    obtain ⟨rfl, rfl⟩ := List.cons.inj hcons
    have hchild := ht.child b
    generalize (if b then r else l) = below at htail hchild
    rw [List.cons_append, automaton, if_neg (by simp [hroot]), List.length_cons,
      show i + (tail.length + 1) = i + 1 + tail.length by omega]
    cases hchild with
    | leaf hleaf =>
      obtain ⟨rfl, rfl⟩ := Prod.mk.inj (List.mem_singleton.mp htail)
      exact if_pos hleaf
    | fork hinner hl hr => exact (if_neg (by simp [hinner])).trans (ih (.fork hinner hl hr) htail (i + 1))

section
variable {b : Block} {t : CodeTree}

/-- The code of a byte makes the automaton emit that byte and go back to the root. -/
theorem IsTreeOf.automaton_code (h : IsTreeOf b t) {sym : Byte} {path : List Bool} (hc : (sym, path) ∈ t.codes)
    (rest : List Bool) (i start : Nat) : automaton b.node b.root (path ++ rest) i b.root start =
      (sym :: (automaton b.node b.root rest (i + path.length) b.root (i + path.length)).1,
        (automaton b.node b.root rest (i + path.length) b.root (i + path.length)).2) := by
  obtain ⟨hholds, -⟩ := h
  cases hholds with
  | leaf hleaf =>
    obtain ⟨rfl, rfl⟩ := Prod.mk.inj (List.mem_singleton.mp hc)
    rw [List.singleton_append, automaton, if_pos hleaf]
    rfl
  | fork hroot hl hr => exact HoldsTree.automaton_path hroot (.fork hroot hl hr) hc rest i start

/-- The automaton on encoded bytes emits them and ends at the root (R192). -/
theorem IsTreeOf.automaton_bitstream (h : IsTreeOf b t) {input : List Byte}
    (hcoded : ∀ s ∈ input, (entry (genTable b.node b.root) s).len ≠ 0) (i start : Nat) :
    automaton b.node b.root (bitstream (genTable b.node b.root) input) i b.root start = (input, .atRoot) := by
  induction input generalizing i start with
  | nil => exact congrArg (Prod.mk []) (if_pos rfl)
  | cons s rest ih =>
    obtain ⟨hs, hrest⟩ := List.forall_mem_cons.mp hcoded
    obtain ⟨path, hc⟩ := h.exists_code_iff.mpr (h.len_ne_zero_iff.mp hs)
    rw [bitstream, List.flatMap_cons, h.entry_of_mem hc, codeBits_pathCode (h.length_of_mem_codes hc).2,
      h.automaton_code hc, ← bitstream, ih hrest]

end

/-! ### The loop of DECODE and the automaton (R202, R203) -/

/-- DECODE stands before bit `i` of a stream with the cursor `c`: the bits to come can be read where no destination byte
is, the byte being unpacked is at hand, and DEC_NODE and DEC_BITS show the cursor and the bits consumed. -/
structure Streams (base i : Nat) (bits : List Bool) (c : Cursor) (s : State) : Prop where
  readable : ∀ k, k < bits.length → s.platform.busOk (base + (i + k) / 8) .read = true
  holds : ∀ k (h : k < bits.length), packedBit s.mem base (i + k) = bits[k]
  apart : ∀ k, k < bits.length →
    ¬(s.block.dstAddr.toNat ≤ base + (i + k) / 8 ∧ base + (i + k) / 8 < s.block.dstAddr.toNat + s.block.dstCap.toNat)
  kept : i % 8 ≠ 0 → c.byte = s.mem.read (base + i / 8)
  decNode : s.block.decNode = c.cur
  decBits : s.block.decBits = BitVec.ofNat 32 i

theorem Wrote.node {s t : State} {out : List Byte} (h : Wrote s out t) : t.block.node = s.block.node := by
  have := h.only
  unfold OnlyCursor at this
  rw [this]

theorem Wrote.setDecBits (v : Word) (s : State) : Wrote s [] (setDecBits v s) :=
  .nil (.of_same (.refl s) rfl rfl rfl rfl) rfl rfl

theorem Wrote.setDecNode (v : NodeIx) (s : State) : Wrote s [] (setDecNode v s) :=
  .nil (.of_same (.refl s) rfl rfl rfl rfl) rfl rfl

/-- A put leaves the cursor registers alone. -/
theorem onlyOutLen_of_put {b : Byte} {s t : State} (h : put b s = .ok () t) : OnlyOutLen s t := by
  rw [put_eq] at h
  split at h
  · cases h
  · split at h
    · cases h; rfl
    · cases h

section
variable {base i : Nat} {b : Bool} {rest : List Bool} {c : Cursor} {s : State}

/-- The byte of the next bit is read, or at hand. -/
theorem Streams.fetchByte (h : Streams base i (b :: rest) c s) : ∃ t,
    fetchByte base i c.byte s = .ok (s.mem.read (base + i / 8)) t ∧ Wrote s [] t ∧ t.block = s.block := by
  rw [Machine.fetchByte]
  split
  · exact ⟨_, if_pos (h.readable 0 (Nat.succ_pos _)), .noteBus _ _ s, rfl⟩
  · exact ⟨s, by rw [h.kept ‹_›], .refl s, rfl⟩

theorem Streams.streamBit (h : Streams base i (b :: rest) c s) : streamBit (s.mem.read (base + i / 8)) i = b :=
  h.holds 0 (Nat.succ_pos _)

/-- What is put while a bit is consumed leaves the stream as it is. -/
theorem Streams.next (h : Streams base i (b :: rest) c s) {t : State} {out : List Byte} {d : Cursor}
    (hw : Wrote s out t) (hf : Fits s out.length) (hbyte : d.byte = s.mem.read (base + i / 8))
    (hnode : t.block.decNode = d.cur) (hbits : t.block.decBits = BitVec.ofNat 32 (i + 1)) :
    Streams base (i + 1) rest d t := by
  obtain ⟨hcap, -⟩ := hf
  have hread : ∀ k, k < (b :: rest).length → t.mem.read (base + (i + k) / 8) = s.mem.read (base + (i + k) / 8) :=
    fun k hk => hw.read fun hin => h.apart k hk ⟨hin.1, by omega⟩
  have hindex : ∀ k, i + 1 + k = i + (k + 1) := fun k => by omega
  exact
    { readable := fun k hk => by
        rw [hw.busOk, hindex]
        exact h.readable (k + 1) (Nat.succ_lt_succ hk)
      holds := fun k hk => by
        rw [hindex, packedBit, hread (k + 1) (Nat.succ_lt_succ hk)]
        exact h.holds (k + 1) (Nat.succ_lt_succ hk)
      apart := fun k hk => by
        rw [hw.emits.dstAddr, hw.emits.dstCap, hindex]
        exact h.apart (k + 1) (Nat.succ_lt_succ hk)
      kept := fun hmid => by
        rw [hbyte, show (i + 1) / 8 = i / 8 by omega]
        exact (hread 0 (Nat.succ_pos _)).symm
      decNode := hnode
      decBits := hbits }

/-- A symbol that fits is put, and the cursor registers stay. -/
theorem Wrote.put_symbol {s u : State} {n : Nat} (hu : Wrote s [] u) (hwf : s.mem.wf = true) (hf : Fits s (n + 1))
    (sym : Byte) : ∃ v, put sym u = .ok () v ∧ Wrote s [sym] v ∧ v.block.decNode = u.block.decNode ∧
      v.block.decBits = u.block.decBits := by
  have hone : Fits u 1 := Fits.after (out := []) (hf.mono (by simp)) hu
  obtain ⟨v, hput, hv⟩ := put_fits (hu.emits.wf hwf) hone sym
  have honly := onlyOutLen_of_put hput
  unfold OnlyOutLen at honly
  exact ⟨v, hput, hu.trans hv, by rw [honly], by rw [honly]⟩

/-- One bit that is not bad, with room for what it emits: the loop and the automaton make the same move. -/
theorem decodeBit_automaton {node : Vector Node 511} {r : NodeIx} (hnode : s.block.node = node)
    (hwf : s.mem.wf = true) (h : Streams base i (b :: rest) c s)
    (hf : Fits s (automaton node r (b :: rest) i c.cur c.start).1.length)
    (hbad : ∀ j, (automaton node r (b :: rest) i c.cur c.start).2 ≠ .badBit j) :
    ∃ out d t, decodeBit base r i c s = .ok d t ∧ Wrote s out t ∧ Streams base (i + 1) rest d t ∧
      automaton node r (b :: rest) i c.cur c.start =
        (out ++ (automaton node r rest (i + 1) d.cur d.start).1, (automaton node r rest (i + 1) d.cur d.start).2) := by
  obtain ⟨t, hfetch, ht, hblock⟩ := h.fetchByte
  have hu : Wrote s [] (setDecBits (BitVec.ofNat 32 (i + 1)) t) := ht.trans (.setDecBits _ t)
  have hunode : (setDecBits (BitVec.ofNat 32 (i + 1)) t).block.node = node := hu.node.trans hnode
  have hcur : (setDecBits (BitVec.ofNat 32 (i + 1)) t).block.decNode = c.cur :=
    (congrArg Block.decNode hblock).trans h.decNode
  have hbits : (setDecBits (BitVec.ofNat 32 (i + 1)) t).block.decBits = BitVec.ofNat 32 (i + 1) := rfl
  rw [decodeBit, hfetch, Res.andThen_ok, h.streamBit]
  generalize setDecBits (BitVec.ofNat 32 (i + 1)) t = u at hu hunode hcur hbits
  simp only [hunode]
  by_cases hroot : (nodeAt node r).leaf = true
  · cases b with
    | true => exact absurd (by rw [automaton, if_pos hroot]; rfl) (hbad i)
    | false =>
      rw [automaton, if_pos hroot] at hf ⊢
      obtain ⟨v, hput, hv, hvnode, hvbits⟩ := hu.put_symbol hwf hf (nodeAt node r).sym
      rw [if_pos hroot, singleLeafBit, hunode, hput]
      exact ⟨_, _, v, rfl, hv, h.next hv (hf.mono (by simp)) rfl (hvnode.trans hcur) (hvbits.trans hbits), rfl⟩
  · rw [automaton, if_neg hroot] at hf ⊢
    rw [if_neg hroot, treeBit, hunode]
    simp only at hf ⊢
    by_cases hleaf : (nodeAt node (Machine.child (nodeAt node c.cur) b)).leaf = true
    · rw [if_pos hleaf] at hf ⊢
      obtain ⟨v, hput, hv, -, hvbits⟩ := (hu.trans (.setDecNode _ u)).put_symbol hwf hf
        (nodeAt node (Machine.child (nodeAt node c.cur) b)).sym
      rw [if_pos hleaf, hput]
      have hw := hv.trans (.setDecNode r v)
      exact ⟨_, _, _, rfl, hw, h.next hw (hf.mono (by simp)) rfl rfl (hvbits.trans hbits), rfl⟩
    · rw [if_neg hleaf, if_neg hleaf]
      have hw := hu.trans (.setDecNode (Machine.child (nodeAt node c.cur) b) u)
      exact ⟨_, _, _, rfl, hw, h.next hw (hf.mono (Nat.zero_le _)) rfl rfl hbits, rfl⟩

end

/-- On a stream without a bad bit, with room for what the automaton emits, the loop writes that and its cursor ends
where the automaton ends. -/
theorem decodeLoop_automaton {base : Nat} {node : Vector Node 511} {r : NodeIx} {bits : List Bool} {i : Nat}
    {c : Cursor} {s : State} (hnode : s.block.node = node) (hwf : s.mem.wf = true) (h : Streams base i bits c s)
    (hf : Fits s (automaton node r bits i c.cur c.start).1.length)
    (hbad : ∀ j, (automaton node r bits i c.cur c.start).2 ≠ .badBit j) :
    ∃ d t, decodeLoop base r bits.length i c s = .ok d t ∧ Wrote s (automaton node r bits i c.cur c.start).1 t ∧
      Streams base (i + bits.length) [] d t ∧
      (automaton node r bits i c.cur c.start).2 = if d.cur = r then .atRoot else .midCode d.cur d.start := by
  induction bits generalizing i c s with
  | nil => exact ⟨c, s, rfl, .refl s, h, rfl⟩
  | cons b rest ih =>
    obtain ⟨out, d, t, hbit, ht, hnext, hauto⟩ := decodeBit_automaton hnode hwf h hf hbad
    rw [hauto] at hf hbad ⊢
    rw [List.length_append] at hf
    obtain ⟨e, u, hloop, hu, hend, hcur⟩ := ih (ht.node.trans hnode) (ht.emits.wf hwf) hnext (hf.after ht) hbad
    refine ⟨e, u, ?_, ht.trans hu, ?_, hcur⟩
    · rw [List.length_cons, decodeLoop, hbit, Res.andThen_ok, hloop]
    · rwa [List.length_cons, Nat.add_comm rest.length, ← Nat.add_assoc]

/-! ### DECODE of what ENCODE packed (R192) -/

/-- DECODE past its checks walks the bits from the root (R201). -/
theorem decodeRule_of_checks {s : State} (hv : s.block.treeValid = true)
    (hbody : ceilDiv8 s.block.totalBits.toNat ≤ s.block.srcLen.toNat) (hlegal : RegionsLegal s.block) :
    decodeRule s =
      walkBits s.block.srcAddr.toNat s.block.root s.block.totalBits.toNat (decodeStart s) := by
  have hneeded : ¬neededBytes s.block > s.block.srcLen.toNat := Nat.not_lt.mpr hbody
  rw [decodeRule, if_neg (by simp [hv]), if_neg hneeded, checkRegions_eq_none.mpr hlegal, require_none, Res.andThen_ok]

theorem length_streamBits (s : State) : (streamBits s).length = s.block.totalBits.toNat := by simp [streamBits]

/-- DECODE past its checks stands before bit 0 of the stream in its source region. -/
theorem streams_decodeStart {s : State} (hv : s.block.treeValid = true)
    (hbody : ceilDiv8 s.block.totalBits.toNat ≤ s.block.srcLen.toNat) (hlegal : RegionsLegal s.block)
    (hread : SourceReadable s (ceilDiv8 s.block.totalBits.toNat)) :
    Streams s.block.srcAddr.toNat 0 (streamBits s) ⟨s.block.root, 0, 0⟩ (decodeStart s) := by
  have hbyte : ∀ k, k < (streamBits s).length → (0 + k) / 8 < ceilDiv8 s.block.totalBits.toNat := fun k hk => by
    rw [length_streamBits] at hk
    rw [ceilDiv8]
    omega
  exact
    { readable := fun k hk => hread _ (hbyte k hk)
      holds := fun k hk => by
        simp only [streamBits, List.getElem_map, List.getElem_range, Nat.zero_add]
        rfl
      apart := fun k hk => source_apart hlegal ((hbyte k hk).trans_le hbody) (Nat.le_refl _)
      kept := fun h => absurd rfl h
      decNode := if_pos hv
      decBits := rfl }

/-- A DECODE whose stream takes the automaton back to the root, with room for what it emits, writes that. -/
theorem decodeRule_atRoot {s : State} {out : List Byte} (hwf : s.mem.wf = true) (hv : s.block.treeValid = true)
    (hbody : ceilDiv8 s.block.totalBits.toNat ≤ s.block.srcLen.toNat) (hlegal : RegionsLegal s.block)
    (hread : SourceReadable s (ceilDiv8 s.block.totalBits.toNat))
    (hauto : automaton s.block.node s.block.root (streamBits s) 0 s.block.root 0 = (out, .atRoot))
    (hcap : out.length ≤ s.block.dstCap.toNat) (hok : DestWritable s out.length) :
    ∃ t, decodeRule s = .ok () t ∧ Wrote (decodeStart s) out t := by
  have hf : Fits (decodeStart s) out.length :=
    ⟨(Nat.zero_add _).trans_le hcap, fun k hk => by simpa using hok k hk⟩
  obtain ⟨d, t, hloop, ht, -, hcur⟩ := decodeLoop_automaton (s := decodeStart s) (node := s.block.node)
    (r := s.block.root) rfl hwf (streams_decodeStart hv hbody hlegal hread) (by rwa [hauto]) (by simp [hauto])
  rw [hauto] at ht hcur
  have hroot : d.cur = s.block.root := by
    by_contra hne
    rw [if_neg hne] at hcur
    cases hcur
  refine ⟨t, ?_, ht⟩
  rw [decodeRule_of_checks hv hbody hlegal, walkBits, ← length_streamBits, hloop, Res.andThen_ok, if_pos hroot]

/-- Where memory holds TOTAL_BITS bits, they are the stream. -/
theorem streamBits_eq {s : State} {bits : List Bool} (htotal : s.block.totalBits.toNat = bits.length)
    (h : ∀ i, i < bits.length → packedBit s.mem s.block.srcAddr.toNat i = bits.getD i false) :
    streamBits s = bits := by
  refine List.ext_getElem ((length_streamBits s).trans htotal) fun i h₁ h₂ => ?_
  rw [← List.getD_eq_getElem bits false h₂, ← h i h₂]
  simp [streamBits]

/-- An ENCODE that ends without ERR has met the premises of R186 and left the whole stream in memory. -/
theorem encode_of_not_err {s t : State} (hwf : s.mem.wf = true) (hexec : exec .encode s = .next t)
    (herr : t.block.err = false) :
    let bits := bitstream s.block.code (sourceBytes s)
    s.block.codeValid = true ∧ (∀ b ∈ sourceBytes s, (entry s.block.code b).len ≠ 0) ∧ bits.length ≤ 4294967295 ∧
      t.block = { s.block with
        totalBits := BitVec.ofNat 32 bits.length
        outLen := BitVec.ofNat 32 (ceilDiv8 bits.length)
        engine := .idle
        done := true } ∧
      t.mem.wf = true ∧
      ∀ i, i < 8 * t.block.outLen.toNat → packedBit t.mem s.block.dstAddr.toNat i = bits.getD i false := by
  obtain rfl : finish (encodeRule s) = t := by rw [exec_eq] at hexec; exact Host.Outcome.next.inj hexec
  cases hrule : encodeRule s with
  | raised e v => rw [hrule] at herr; cases herr
  | ok a v =>
    obtain ⟨hv, hlen, hlegal⟩ := checks_of_encodeRule_ok hrule
    obtain ⟨⟨-, hread, hcoded, hbits, -, -⟩, hcap, hok⟩ := packsAll_of_encodeRule_ok hwf hrule
    obtain ⟨t, ht, hblock, -, -, hstream, -⟩ := encodePacksBitstream s hwf hv hlen hlegal hread hcoded hbits hcap hok
    obtain rfl := Host.Outcome.next.inj (ht.symm.trans hexec)
    rw [hrule] at hblock hstream
    refine ⟨hv, hcoded, hbits, hblock, ?_, hstream⟩
    have hends := (encodeRule_ends s).1.emits.wf hwf
    rwa [hrule] at hends

/-- Settles O33: ENCODE leaves the stream of the source bytes, on which the automaton emits these bytes. -/
theorem decodeInvertsEncode : Obligations.DecodeInvertsEncode := by
  intro s t dst cap hwf htree hcode _ hexec herr u hlegal hcap hread hok
  obtain ⟨hv, hcoded, hbits, hblock, htwf, hstream⟩ := encode_of_not_err hwf hexec herr
  obtain ⟨hvalid, htable, -⟩ := hcode hv
  obtain ⟨tree, hisTree⟩ := exists_isTreeOf hvalid htree
  rw [htable] at hcoded
  have hauto := hisTree.automaton_bitstream hcoded 0 0
  rw [← htable] at hauto
  set bits := bitstream s.block.code (sourceBytes s)
  have htotal : u.block.totalBits.toNat = bits.length := by
    simp only [u, hblock]
    exact Nat.mod_eq_of_lt (by omega)
  have hout : t.block.outLen.toNat = ceilDiv8 bits.length := by
    rw [hblock]
    exact Nat.mod_eq_of_lt (by rw [ceilDiv8]; omega)
  have hstreamBits : streamBits u = bits :=
    streamBits_eq htotal fun i hi => hstream i (by rw [hout, ceilDiv8]; omega)
  have hnode : u.block.node = s.block.node := by simp only [u, hblock]
  have hroot : u.block.root = s.block.root := by simp only [u, hblock]
  have huvalid : u.block.treeValid = true := by simp only [u, hblock, hvalid]
  have hlen : (sourceBytes s).length = s.block.srcLen.toNat := Memory.length_bytes _ _ _
  have hneed : ceilDiv8 u.block.totalBits.toNat = u.block.srcLen.toNat := by rw [htotal, ← hout]
  rw [← hlen] at hcap hok
  obtain ⟨v, hrule, hw⟩ := decodeRule_atRoot (s := u) htwf huvalid hneed.le hlegal (by rwa [hneed])
    (by rwa [hstreamBits, hnode, hroot]) hcap hok
  have honly := hw.only
  unfold OnlyCursor at honly
  refine ⟨completeOk v, by rw [exec_eq, rule, hrule, finish_ok], rfl, ?_, ?_, ?_⟩
  · rw [completeOk_block, honly]
    exact herr
  · exact BitVec.eq_of_toNat_eq ((hw.outLen.trans (Nat.zero_add _)).trans hlen)
  · rw [← hlen]
    exact hw.bytes

end Sys2Proof.Machine
end

section
/-! SUPPORT. DECODE: its checks, its frame, and what it does with no bits (45_decoder.md R201, R208 to R210). -/

namespace Sys2Proof.Machine

theorem exec_decode_of_rule {s : State} {r : Res Unit} (h : decodeRule s = r) : exec .decode s = .next (finish r) := by
  rw [exec_eq, rule, h]

/-! ### Checks before reading (R201, R132) -/

/-- A body shorter than TOTAL_BITS asks ends DECODE with BODY_SHORT (R201). -/
theorem decodeRule_of_short_body {s : State} (hv : s.block.treeValid = true)
    (h : ceilDiv8 s.block.totalBits.toNat > s.block.srcLen.toNat) :
    decodeRule s = .raised ⟨.bodyShort, BitVec.ofNat 32 (ceilDiv8 s.block.totalBits.toNat)⟩ (decodeStart s) := by
  rw [decodeRule, if_neg (by simp [hv])]
  exact if_pos h

/-- A region check that fails ends DECODE with its error (R132, R240). -/
theorem decodeRule_of_checkRegions {s : State} {e : Err} (hv : s.block.treeValid = true)
    (hbody : ceilDiv8 s.block.totalBits.toNat ≤ s.block.srcLen.toNat) (h : checkRegions s.block = some e) :
    decodeRule s = .raised e (decodeStart s) := by
  have hneeded : ¬neededBytes s.block > s.block.srcLen.toNat := Nat.not_lt.mpr hbody
  rw [decodeRule, if_neg (by simp [hv]), if_neg hneeded, h, require_some, Res.andThen_raised]

/-- Settles O27: the rule of DECODE makes these checks in order, before it accesses memory. -/
theorem decodeChecksInOrder : Obligations.DecodeChecksInOrder := by
  intro s failed need
  have exec_of {c : ErrCode} {info : Word} (h : decodeRule s = .raised ⟨c, info⟩ (decodeStart s)) :
      exec .decode s = .next (failed c info) := exec_decode_of_rule h
  refine ⟨fun hv => exec_of (if_pos hv), fun hv => ⟨fun hshort => exec_of (decodeRule_of_short_body hv hshort),
    fun hbody => ⟨fun hsrc => exec_of ?_, fun hsrc =>
      ⟨fun hdst => exec_of ?_, fun hdst hlegal => exec_of ?_⟩⟩⟩⟩
  · refine decodeRule_of_checkRegions hv hbody ?_
    rw [checkRegions, checkSrc, Config.spaceEnd, if_pos hsrc]
  · refine decodeRule_of_checkRegions hv hbody ?_
    rw [checkRegions, checkSrc_eq_none.mpr hsrc, checkDst, Config.spaceEnd, if_pos hdst]
  · exact decodeRule_of_checkRegions hv hbody (checkRegions_of_overlap hsrc hdst hlegal)

/-- Settles O32: BODY_SHORT is raised before any access, with a count that fits ERR_INFO. -/
theorem truncatedBodyIsDetected : Obligations.TruncatedBodyIsDetected := by
  intro s hv hlen
  refine ⟨_, exec_decode_of_rule (decodeRule_of_short_body hv (by omega)), rfl, rfl, ?_, rfl, rfl, rfl⟩
  have hfits := s.block.srcLen.isLt
  exact Nat.mod_eq_of_lt (by rw [ceilDiv8]; omega)

/-- Settles O30: no bit is walked, so the cursor is still at the root. -/
theorem decodeOfZeroBitsSucceeds : Obligations.DecodeOfZeroBitsSucceeds := by
  intro s hv hzero hlegal
  have hrule : decodeRule s = .ok () (decodeStart s) := by
    rw [decodeRule_of_checks hv (by simp [hzero, ceilDiv8]) hlegal, hzero]
    exact if_pos rfl
  rw [exec_decode_of_rule hrule, finish_ok, completeOk, decodeStart_block, rootReg, if_pos hv]
  rfl

/-! ### Frame (R204, R208) -/

theorem put_decBits (b : Byte) (s : State) : (put b s).state.block.decBits = s.block.decBits := by
  rw [put_eq]
  split
  · rfl
  · split <;> rfl

theorem fetchByte_block (base i : Nat) (kept : Byte) (s : State) :
    (fetchByte base i kept s).state.block = s.block := by
  rw [fetchByte]
  split
  · rw [busRead_state]; rfl
  · rfl

theorem singleLeafBit_decBits (r : NodeIx) (i : Nat) (bit : Bool) (c : Cursor) (s : State) :
    (singleLeafBit r i bit c s).state.block.decBits = s.block.decBits := by
  rw [singleLeafBit]
  split
  · rfl
  · have h := put_decBits (nodeAt s.block.node r).sym s
    exact Res.andThen_state (P := fun t => t.block.decBits = s.block.decBits) h fun _ t ht => by rwa [ht] at h

theorem treeBit_decBits (r : NodeIx) (i : Nat) (bit : Bool) (c : Cursor) (s : State) :
    (treeBit r i bit c s).state.block.decBits = s.block.decBits := by
  rw [treeBit]
  split
  · have h := put_decBits (nodeAt s.block.node (child (nodeAt s.block.node c.cur) bit)).sym
      (setDecNode (child (nodeAt s.block.node c.cur) bit) s)
    exact Res.andThen_state (P := fun t => t.block.decBits = s.block.decBits) h fun _ t ht => by rwa [ht] at h
  · rfl

/-- DEC_BITS counts a bit once its byte is at hand, and stays where the read fails. -/
theorem decodeBit_decBits_le {base i : Nat} {r : NodeIx} {c : Cursor} {s : State} (h : s.block.decBits.toNat ≤ i) :
    (decodeBit base r i c s).state.block.decBits.toNat ≤ i + 1 := by
  refine Res.andThen_state (P := fun t => t.block.decBits.toNat ≤ i + 1) ?_ fun byte t _ => ?_
  · rw [fetchByte_block]
    exact h.trans (Nat.le_succ i)
  · simp only
    split
    · rw [singleLeafBit_decBits]
      exact Nat.mod_le _ _
    · rw [treeBit_decBits]
      exact Nat.mod_le _ _

theorem decodeLoop_decBits_le {base remaining i : Nat} {r : NodeIx} {c : Cursor} {s : State}
    (h : s.block.decBits.toNat ≤ i) :
    (decodeLoop base r remaining i c s).state.block.decBits.toNat ≤ i + remaining := by
  induction remaining generalizing i c s with
  | zero => exact h
  | succ n ih =>
    have hbit := decodeBit_decBits_le (base := base) (r := r) (c := c) h
    refine Res.andThen_state (P := fun t => t.block.decBits.toNat ≤ i + (n + 1)) (hbit.trans (by omega))
      fun d t ht => ?_
    rw [ht] at hbit
    exact (ih hbit).trans (by omega)

theorem walkBits_decBits_le {base tb : Nat} {r : NodeIx} {s : State} (h : s.block.decBits = 0) :
    (walkBits base r tb s).state.block.decBits.toNat ≤ tb := by
  have hloop := decodeLoop_decBits_le (base := base) (remaining := tb) (r := r) (c := ⟨r, 0, 0⟩) (s := s)
    (i := 0) (by rw [h]; exact Nat.le_refl 0)
  rw [Nat.zero_add] at hloop
  refine Res.andThen_state (P := fun t => t.block.decBits.toNat ≤ tb) hloop fun c t ht => ?_
  rw [ht] at hloop
  split <;> exact hloop

theorem decodeRule_decBits_le (s : State) :
    (decodeRule s).state.block.decBits.toNat ≤ s.block.totalBits.toNat := by
  rw [decodeRule]
  split
  · exact Nat.zero_le _
  · split
    · exact Nat.zero_le _
    · cases checkRegions s.block with
      | some e => exact Nat.zero_le _
      | none => exact walkBits_decBits_le rfl

theorem OnlyCursor.completeOk_block {s t : State} (h : OnlyCursor s t) : (completeOk t).block =
    { s.block with
      outLen := t.block.outLen, decNode := t.block.decNode, decBits := t.block.decBits, engine := .idle
      done := true } := by
  unfold OnlyCursor at h
  rw [Machine.completeOk_block, h]

theorem OnlyCursor.raise_block {s t : State} (h : OnlyCursor s t) (e : Err) : (raise e t).block =
    { s.block with
      outLen := t.block.outLen, decNode := t.block.decNode, decBits := t.block.decBits, errCode := e.code
      errInfo := e.info, engine := .idle, err := true } := by
  unfold OnlyCursor at h
  rw [Machine.raise_block, h]

/-- Settles O28: what the rule of DECODE may change, and that DEC_BITS counts bits of the stream. -/
theorem decodeFrame : Obligations.DecodeFrame := by
  intro s
  obtain ⟨hemits, honly, -⟩ := decodeRule_ends s
  have hbits := decodeRule_decBits_le s
  have hcap := hemits.bound (Nat.zero_le _)
  replace honly := (decodeStart_only s).trans honly
  refine ⟨_, exec_eq .decode s, ?_⟩
  rw [rule]
  cases hr : decodeRule s with
  | ok a t =>
    rw [hr, Res.state_ok] at hemits honly hbits hcap
    refine ⟨?_, hbits, hcap, hemits.mem, hemits.around⟩
    rw [finish_ok, honly.completeOk_block]
  | raised e t =>
    rw [hr, Res.state_raised] at hemits honly hbits hcap
    refine ⟨?_, hbits, hcap, hemits.mem, hemits.around⟩
    rw [finish_raised, honly.raise_block]

end Sys2Proof.Machine
end

section
/-! SUPPORT. DECODE depends on the TOTAL_BITS bits of its stream alone: on two memories that hold the same bits it makes
the same moves, whatever else the bytes of the stream hold (45_decoder.md R206). -/

namespace Sys2Proof.Machine

/-! ### The loop from any bit on (R202) -/

/-- What DECODE does before bit `i` with `remaining` bits to come: the loop, and then the end at the root or inside a
code. -/
def walkFrom (base : Nat) (r : NodeIx) (remaining i : Nat) (c : Cursor) (s : State) : Res Unit :=
  (decodeLoop base r remaining i c s).andThen fun d t =>
    if d.cur = r then .ok () t else .raised ⟨.endMidCode, BitVec.ofNat 32 d.start⟩ t

theorem walkBits_eq_walkFrom (base : Nat) (r : NodeIx) (tb : Nat) (s : State) :
    walkBits base r tb s = walkFrom base r tb 0 ⟨r, 0, 0⟩ s := rfl

theorem walkFrom_succ (base : Nat) (r : NodeIx) (remaining i : Nat) (c : Cursor) (s : State) :
    walkFrom base r (remaining + 1) i c s =
      (decodeBit base r i c s).andThen fun d t => walkFrom base r remaining (i + 1) d t := by
  rw [walkFrom, decodeLoop, Res.andThen_assoc]
  rfl

/-! ### A pass of the loop on a given bit (R202) -/

/-- The read of the byte that holds bit `i`, whatever it holds. -/
def readFor (base i : Nat) (s : State) : Res Unit := (fetchByte base i 0 s).andThen fun _ t => .ok () t

/-- The pass of the loop on bit `i` of value `bit`: the byte is read, and its other bits are not looked at. -/
def moveOn (base : Nat) (r : NodeIx) (i : Nat) (bit : Bool) (c : Cursor) (s : State) : Res Cursor :=
  (readFor base i s).andThen fun _ t =>
    let u := setDecBits (BitVec.ofNat 32 (i + 1)) t
    if (nodeAt u.block.node r).leaf then singleLeafBit r i bit c u else treeBit r i bit c u

section
variable {base i : Nat} {r : NodeIx} {c : Cursor} {s : State}

/-- The byte unpacked is the one that memory holds, read now or kept since it was read. -/
theorem fetchByte_eq_readFor (h : i % 8 ≠ 0 → c.byte = s.mem.read (base + i / 8)) :
    fetchByte base i c.byte s = (readFor base i s).andThen fun _ t => .ok (s.mem.read (base + i / 8)) t := by
  rw [readFor, fetchByte, fetchByte]
  split
  · rw [busRead_eq]
    split <;> rfl
  · rw [h ‹_›]
    rfl

theorem singleLeafBit_byte (r : NodeIx) (i : Nat) (bit : Bool) (c : Cursor) (b : Byte) (s : State) :
    singleLeafBit r i bit { c with byte := b } s =
      (singleLeafBit r i bit c s).andThen fun d t => .ok { d with byte := b } t := by
  rw [singleLeafBit, singleLeafBit]
  split
  · rfl
  · rw [Res.andThen_assoc]
    rfl

theorem treeBit_byte (r : NodeIx) (i : Nat) (bit : Bool) (c : Cursor) (b : Byte) (s : State) :
    treeBit r i bit { c with byte := b } s =
      (treeBit r i bit c s).andThen fun d t => .ok { d with byte := b } t := by
  rw [treeBit, treeBit]
  split
  · rw [Res.andThen_assoc]
    rfl
  · rfl

/-- A pass of the loop moves on the bit that memory holds, and keeps the byte (R202; 20_memory.md R84). -/
theorem decodeBit_eq_moveOn (h : i % 8 ≠ 0 → c.byte = s.mem.read (base + i / 8)) :
    decodeBit base r i c s = (moveOn base r i (packedBit s.mem base i) { c with byte := 0 } s).andThen fun d t =>
      .ok { d with byte := s.mem.read (base + i / 8) } t := by
  rw [decodeBit, fetchByte_eq_readFor h, moveOn, Res.andThen_assoc, Res.andThen_assoc]
  congr 1
  funext _ t
  rw [Res.andThen_ok]
  simp only
  split
  · exact singleLeafBit_byte _ _ _ { c with byte := 0 } _ _
  · exact treeBit_byte _ _ _ { c with byte := 0 } _ _

end

/-! ### Two runs on the same bits -/

section
variable {first : Nat} {s₀ u₀ s u : State}

theorem readFor_twins (h : Twins first s₀ u₀ s u) (base i : Nat) :
    ResTwins (Twins first s₀ u₀) (readFor base i s) (readFor base i u) := by
  rw [readFor, readFor, fetchByte, fetchByte]
  split
  · rw [busRead_eq, busRead_eq, h.busOk]
    split
    · exact .ok (h.noteBus _ _)
    · exact .raised (h.noteBus _ _)
  · exact .ok h

theorem moveOn_twins (h : Twins first s₀ u₀ s u) (base : Nat) (r : NodeIx) (i : Nat) (bit : Bool) (c : Cursor) :
    ResTwins (Twins first s₀ u₀) (moveOn base r i bit c s) (moveOn base r i bit c u) := by
  refine (readFor_twins h base i).andThen fun _ t v h => ?_
  replace h := h.setDecBits (BitVec.ofNat 32 (i + 1))
  simp only
  rw [h.block]
  split
  · exact singleLeafBit_twins h _ _ _ _
  · exact treeBit_twins h _ _ _ _

end

/-- DECODE stands before bit `i` with `n` bits to come: the byte being unpacked is at hand, and the bits to come lie
where no byte is put. -/
structure AtBit (base n i : Nat) (c : Cursor) (s : State) : Prop where
  kept : i % 8 ≠ 0 → c.byte = s.mem.read (base + i / 8)
  room : s.block.outLen.toNat ≤ s.block.dstCap.toNat
  apart : ∀ k, k < n →
    ¬(s.block.dstAddr.toNat ≤ base + (i + k) / 8 ∧
      base + (i + k) / 8 < s.block.dstAddr.toNat + s.block.dstCap.toNat)

/-- A pass of the loop changes no byte of the bits that were to come. -/
theorem AtBit.read {base n i : Nat} {r : NodeIx} {c d : Cursor} {s t : State} (h : AtBit base n i c s)
    (hbit : decodeBit base r i c s = .ok d t) {k : Nat} (hk : k < n) :
    t.mem.read (base + (i + k) / 8) = s.mem.read (base + (i + k) / 8) := by
  have hends := (decodeBit_ends base r i c s h.room).emits
  rw [hbit] at hends
  have hcap := hends.bound h.room
  exact hends.mem _ fun hin => h.apart k hk ⟨(Nat.le_add_right _ _).trans hin.1, hin.2.trans_le (by omega)⟩

theorem AtBit.next {base n i : Nat} {r : NodeIx} {c d : Cursor} {s t : State} (h : AtBit base (n + 1) i c s)
    (hbit : decodeBit base r i c s = .ok d t) (hbyte : d.byte = s.mem.read (base + i / 8)) :
    AtBit base n (i + 1) d t := by
  have hends := (decodeBit_ends base r i c s h.room).emits
  rw [hbit, Res.state_ok] at hends
  exact
    { kept := fun hmid => by
        rw [hbyte, show (i + 1) / 8 = i / 8 by omega]
        exact (h.read hbit (Nat.succ_pos n)).symm
      room := (hends.hasRoom ⟨rfl, h.room⟩).2
      apart := fun k hk => by
        rw [hends.dstAddr, hends.dstCap, show i + 1 + k = i + (k + 1) by omega]
        exact h.apart (k + 1) (by omega) }

/-- Two runs that stand before the same bit with the same cursor, on memories with the same bits to come, end as
twins. -/
theorem walkFrom_twins {first base n i : Nat} {r : NodeIx} {c : Cursor} {b : Byte} {s₀ u₀ s u : State}
    (h : Twins first s₀ u₀ s u) (hs : AtBit base n i c s) (hu : AtBit base n i { c with byte := b } u)
    (hbits : ∀ k, k < n → packedBit u.mem base (i + k) = packedBit s.mem base (i + k)) :
    ResTwins (Twins first s₀ u₀) (walkFrom base r n i c s) (walkFrom base r n i { c with byte := b } u) := by
  induction n generalizing i c b s u with
  | zero =>
    simp only [walkFrom, decodeLoop, Res.andThen_ok]
    split
    · exact .ok h
    · exact .raised h
  | succ n ih =>
    have hmove := moveOn_twins h base r i (packedBit s.mem base i) { c with byte := 0 }
    have hsbit := decodeBit_eq_moveOn (r := r) hs.kept
    have hubit := decodeBit_eq_moveOn (r := r) hu.kept
    rw [show packedBit u.mem base i = packedBit s.mem base i from hbits 0 (Nat.succ_pos n)] at hubit
    rw [walkFrom_succ, walkFrom_succ]
    generalize moveOn base r i (packedBit s.mem base i) { c with byte := 0 } s = x at hmove hsbit
    generalize moveOn base r i (packedBit s.mem base i) { c with byte := 0 } u = y at hmove hubit
    cases hmove with
    | raised h => rw [hsbit, hubit]; exact .raised h
    | @ok d v w h =>
      rw [hsbit, hubit]
      refine ih (c := { d with byte := _ }) h (hs.next hsbit rfl) (hu.next hubit rfl) fun k hk => ?_
      rw [show i + 1 + k = i + (k + 1) by omega, packedBit, packedBit, hs.read hsbit (by omega),
        hu.read hubit (by omega)]
      exact hbits (k + 1) (by omega)

/-- DECODE past its checks stands before bit 0. -/
theorem atBit_decodeStart {s : State} (hbody : ceilDiv8 s.block.totalBits.toNat ≤ s.block.srcLen.toNat)
    (hlegal : RegionsLegal s.block) :
    AtBit s.block.srcAddr.toNat s.block.totalBits.toNat 0 ⟨s.block.root, 0, 0⟩ (decodeStart s) where
  kept := fun h => absurd rfl h
  room := Nat.zero_le _
  apart := fun k hk => source_apart hlegal (by rw [ceilDiv8] at hbody; omega) (Nat.le_refl _)

/-- The state with an empty source region: twins of it need to agree on no source byte. -/
def withoutSource (s : State) : State := { s with block := { s.block with srcLen := 0 } }

/-- Two runs of DECODE on memories with the same TOTAL_BITS bits end as twins. -/
theorem decodeRule_twins_of_bits {s u : State} (hblock : u.block = s.block) (hplatform : u.platform = s.platform)
    (hwf : s.mem.wf = true ∧ u.mem.wf = true) (hbits : ∀ i, i < s.block.totalBits.toNat →
      packedBit u.mem s.block.srcAddr.toNat i = packedBit s.mem s.block.srcAddr.toNat i) :
    ResTwins (Twins 0 (withoutSource s) u) (decodeRule s) (decodeRule u) := by
  have hstart : Twins 0 (withoutSource s) u (decodeStart s) (decodeStart u) :=
    { block := by rw [decodeStart_block, decodeStart_block, hblock]
      busOk := fun _ _ => by rw [decodeStart_platform, decodeStart_platform, hplatform]
      wf := hwf
      source := fun a ha => by simp [Region.has, srcRegion, withoutSource] at ha; omega
      output := fun k _ hk => absurd hk (Nat.not_lt_zero k)
      bus := ⟨[], rfl, rfl⟩ }
  unfold decodeRule
  rw [hblock]
  split
  · exact .raised hstart
  · split
    · exact .raised hstart
    · rename_i hneeded
      cases hc : checkRegions s.block with
      | some e => exact .raised hstart
      | none =>
        have hlegal : RegionsLegal s.block := checkRegions_eq_none.mp hc
        have hbody : ceilDiv8 s.block.totalBits.toNat ≤ s.block.srcLen.toNat := Nat.not_lt.mp hneeded
        have hu := atBit_decodeStart (s := u) (by rwa [hblock]) (by rwa [hblock])
        rw [hblock] at hu
        refine walkFrom_twins (b := 0) hstart (atBit_decodeStart hbody hlegal) hu fun k hk => ?_
        rw [Nat.zero_add]
        exact hbits k hk

/-- Settles O31: the two runs end as twins. -/
theorem paddingNeverAffectsDecode : Obligations.PaddingNeverAffectsDecode := by
  intro s m hwf hm hbits
  have h := finish_twins (decodeRule_twins_of_bits (s := s) (u := { s with mem := m }) rfl rfl ⟨hwf, hm⟩ hbits)
  obtain ⟨new, hbus, hbus'⟩ := h.bus
  obtain ⟨-, -, -, -, -, -, hdst, -⟩ := finish_rule_sameHostRegisters .decode s
  refine ⟨_, _, exec_eq .decode s, exec_eq .decode _, h.block, hbus'.trans hbus.symm, fun k hk => ?_⟩
  rw [← hdst]
  exact h.output k (Nat.zero_le k) hk

end Sys2Proof.Machine
end

section
/-! SUPPORT. DECODE and the automaton: where DECODE stands once it has consumed the first bits of its stream, and how
the next bit, or the end of the stream, ends it (45_decoder.md R202 to R208). -/

namespace Sys2Proof.Machine

/-! ### The automaton on the first bits (R202, R203) -/

section
variable {node : Vector Node 511} {r cur : NodeIx} {bits : List Bool} {i start : Nat}

/-- After bits without a bad one the automaton goes on from its cursor. -/
theorem automaton_append (hbad : ∀ j, (automaton node r bits i cur start).2 ≠ .badBit j) (rest : List Bool) :
    ∃ start', (automaton node r (bits ++ rest) i cur start).1 = (automaton node r bits i cur start).1 ++
      (automaton node r rest (i + bits.length) ((automaton node r bits i cur start).2.cursor r) start').1 := by
  induction bits generalizing i cur start with
  | nil =>
    refine ⟨start, ?_⟩
    have hcur : (automaton node r [] i cur start).2.cursor r = cur := by
      rw [automaton]
      split
      · exact Eq.symm ‹_›
      · rfl
    rw [hcur]
    rfl
  | cons b tail ih =>
    have hindex : i + (b :: tail).length = i + 1 + tail.length := by rw [List.length_cons]; omega
    rw [hindex]
    rw [automaton] at hbad ⊢
    rw [List.cons_append, automaton]
    by_cases hroot : (nodeAt node r).leaf = true
    · simp only [if_pos hroot] at hbad ⊢
      cases b with
      | true => exact absurd rfl (hbad i)
      | false =>
        obtain ⟨start', h⟩ := ih hbad
        exact ⟨start', congrArg (List.cons _) h⟩
    · simp only [if_neg hroot] at hbad ⊢
      by_cases hleaf : (nodeAt node (child (nodeAt node cur) b)).leaf = true
      · simp only [if_pos hleaf] at hbad ⊢
        obtain ⟨start', h⟩ := ih hbad
        exact ⟨start', congrArg (List.cons _) h⟩
      · simp only [if_neg hleaf] at hbad ⊢
        exact ih hbad

/-- In a single-leaf tree the cursor never leaves the root (R203). -/
theorem automaton_cursor_of_leaf (hroot : (nodeAt node r).leaf = true) :
    (automaton node r bits i r start).2.cursor r = r := by
  induction bits generalizing i start with
  | nil => rw [automaton, if_pos rfl]; rfl
  | cons b tail ih =>
    rw [automaton, if_pos hroot]
    cases b with
    | true => rfl
    | false => exact ih

/-- A bad bit is a 1 in a single-leaf tree, and the bits before it emit all that is emitted (R203). -/
theorem automaton_eq_badBit {j : Nat} (h : (automaton node r bits i cur start).2 = .badBit j) :
    ∃ k, j = i + k ∧ bits[k]? = some true ∧ (nodeAt node r).leaf = true ∧
      (automaton node r (bits.take k) i cur start).1 = (automaton node r bits i cur start).1 ∧
      ∀ l, (automaton node r (bits.take k) i cur start).2 ≠ .badBit l := by
  induction bits generalizing i cur start with
  | nil =>
    rw [automaton] at h
    split at h <;> cases h
  | cons b tail ih =>
    rw [automaton] at h
    by_cases hroot : (nodeAt node r).leaf = true
    · rw [if_pos hroot] at h
      cases b with
      | true =>
        obtain rfl : i = j := StreamEnd.badBit.inj h
        refine ⟨0, rfl, rfl, hroot, ?_, fun l => ?_⟩
        · rw [List.take_zero, automaton, automaton, if_pos hroot]
          rfl
        · rw [List.take_zero, automaton]
          split <;> nofun
      | false =>
        obtain ⟨k, hj, hk, -, hout, hbad⟩ := ih h
        refine ⟨k + 1, by omega, hk, hroot, ?_, ?_⟩
        · rw [List.take_succ_cons, automaton, automaton, if_pos hroot, if_pos hroot]
          exact congrArg (List.cons _) hout
        · rw [List.take_succ_cons, automaton, if_pos hroot]
          exact hbad
    · rw [if_neg hroot] at h
      simp only at h
      split at h
      · obtain ⟨_, _, _, hleaf, _⟩ := ih h
        exact absurd hleaf hroot
      · obtain ⟨_, _, _, hleaf, _⟩ := ih h
        exact absurd hleaf hroot

end

/-! ### DECODE once it has consumed the first bits (R202) -/

theorem walkFrom_add (base : Nat) (r : NodeIx) (m n i : Nat) (c : Cursor) (s : State) :
    walkFrom base r (m + n) i c s =
      (decodeLoop base r m i c s).andThen fun d t => walkFrom base r n (i + m) d t := by
  induction m generalizing i c s with
  | zero => rw [Nat.zero_add]; rfl
  | succ m ih =>
    rw [Nat.add_right_comm, walkFrom_succ, decodeLoop, Res.andThen_assoc]
    simp only [ih, show i + 1 + m = i + (m + 1) by omega]

/-- DECODE of `s` has consumed the first `i` bits without an error, and stands at `t` with the cursor `d`. -/
structure HasConsumed (s : State) (i : Nat) (d : Cursor) (t : State) : Prop where
  wrote : Wrote (setOutLen 0 s) (consumed s i).1 t
  ends : (consumed s i).2 = if d.cur = s.block.root then .atRoot else .midCode d.cur d.start
  streams : Streams s.block.srcAddr.toNat i [] d t
  rule : decodeRule s =
    walkFrom s.block.srcAddr.toNat s.block.root (s.block.totalBits.toNat - i) i d t

theorem consumed_all (s : State) : consumed s s.block.totalBits.toNat =
    automaton s.block.node s.block.root (streamBits s) 0 s.block.root 0 := by
  rw [consumed, ← length_streamBits, List.take_length]

section
variable {s : State} {i : Nat} (hwf : s.mem.wf = true) (hv : s.block.treeValid = true)
  (hbody : ceilDiv8 s.block.totalBits.toNat ≤ s.block.srcLen.toNat) (hlegal : RegionsLegal s.block)

include hv hbody hlegal in
/-- DECODE past its checks stands before the first bits of the stream, as far as its bytes can be read. -/
theorem streams_take (hi : i ≤ s.block.totalBits.toNat) (hread : SourceReadable s (ceilDiv8 i)) :
    Streams s.block.srcAddr.toNat 0 ((streamBits s).take i) ⟨s.block.root, 0, 0⟩ (decodeStart s) := by
  have hlen : ((streamBits s).take i).length = i := List.length_take_of_le (hi.trans_eq (length_streamBits s).symm)
  exact
    { readable := fun k hk => hread _ (by rw [ceilDiv8]; omega)
      holds := fun k hk => by
        simp only [streamBits, List.getElem_take, List.getElem_map, List.getElem_range, Nat.zero_add]
        rfl
      apart := fun k hk => (atBit_decodeStart hbody hlegal).apart k (by omega)
      kept := fun h => absurd rfl h
      decNode := if_pos hv
      decBits := rfl }

include hwf hv hbody hlegal in
/-- Where the first bits can be consumed, DECODE consumes them. -/
theorem exists_hasConsumed (hi : i ≤ s.block.totalBits.toNat) (h : Consumes s i) : ∃ d t, HasConsumed s i d t := by
  obtain ⟨hread, hbad, hcap, hok⟩ := h
  have hlen : ((streamBits s).take i).length = i := List.length_take_of_le (hi.trans_eq (length_streamBits s).symm)
  have hf : Fits (decodeStart s) (consumed s i).1.length :=
    ⟨(Nat.zero_add _).trans_le hcap, fun k hk => by simpa using hok k hk⟩
  obtain ⟨d, t, hloop, ht, hstreams, hends⟩ := decodeLoop_automaton (s := decodeStart s) (node := s.block.node)
    (r := s.block.root) rfl hwf (streams_take hv hbody hlegal hi hread) hf hbad
  rw [hlen] at hloop hstreams
  rw [Nat.zero_add] at hstreams
  have hstart : Wrote (setOutLen 0 s) [] (decodeStart s) := .nil (.of_same (.refl s) rfl rfl rfl rfl) rfl rfl
  refine ⟨d, t, hstart.trans ht, hends, hstreams, ?_⟩
  rw [decodeRule_of_checks hv hbody hlegal, walkBits_eq_walkFrom]
  conv_lhs => rw [← Nat.add_sub_cancel' hi]
  rw [walkFrom_add, hloop, Res.andThen_ok, Nat.zero_add]

end

/-! ### How the next bit ends DECODE (R203, R204, R208) -/

theorem block_of_put_raised {b : Byte} {s t : State} {e : Err} (h : put b s = .raised e t) : t.block = s.block := by
  rw [put_eq] at h
  split at h
  · cases h; rfl
  · split at h <;> cases h
    rfl

section
variable {base i : Nat} {r : NodeIx} {c : Cursor} {s : State} {e : Err}

/-- A byte that cannot be read stops the pass before the bit is counted. -/
theorem decodeBit_unreadable (hi : i % 8 = 0) (hok : s.platform.busOk (base + i / 8) .read = false) :
    ∃ t, decodeBit base r i c s = .raised ⟨.busError, BitVec.ofNat 32 (base + i / 8)⟩ t ∧ Wrote s [] t ∧
      t.block = s.block := by
  refine ⟨_, ?_, .noteBus .read (base + i / 8) s, rfl⟩
  rw [decodeBit, fetchByte, if_pos hi, busRead_eq, if_neg (by simp [hok]), Res.andThen_raised]

/-- With its byte at hand the bit is counted, and the state machine moves on it. -/
theorem Streams.decodeBit {b : Bool} {rest : List Bool} (h : Streams base i (b :: rest) c s) :
    ∃ d u, Machine.decodeBit base r i c s =
        (if (nodeAt s.block.node r).leaf then singleLeafBit r i b d u else treeBit r i b d u) ∧
      d.cur = c.cur ∧ Wrote s [] u ∧ u.block = { s.block with decBits := BitVec.ofNat 32 (i + 1) } := by
  obtain ⟨t, hfetch, ht, hblock⟩ := h.fetchByte
  have hu : (setDecBits (BitVec.ofNat 32 (i + 1)) t).block = { s.block with decBits := BitVec.ofNat 32 (i + 1) } := by
    rw [setDecBits_block, hblock]
  have hw := ht.trans (.setDecBits (BitVec.ofNat 32 (i + 1)) t)
  refine ⟨{ c with byte := s.mem.read (base + i / 8) }, _, ?_, rfl, hw, hu⟩
  rw [Machine.decodeBit, hfetch, Res.andThen_ok, h.streamBit]
  simp only [hu]

/-- A 1 in a single-leaf tree stops the pass with BAD_CODE (R203). -/
theorem Streams.decodeBit_bad {rest : List Bool} (h : Streams base i (true :: rest) c s)
    (hroot : (nodeAt s.block.node r).leaf = true) :
    ∃ u, Machine.decodeBit base r i c s = .raised ⟨.badCode, BitVec.ofNat 32 i⟩ u ∧ Wrote s [] u ∧
      u.block = { s.block with decBits := BitVec.ofNat 32 (i + 1) } := by
  obtain ⟨d, u, hbit, -, hu, hblock⟩ := h.decodeBit (r := r)
  rw [if_pos hroot] at hbit
  exact ⟨u, hbit, hu, hblock⟩

/-- A put that stops, stops wherever OUT_LEN and the destination are the same. -/
theorem Wrote.put_stops {u : State} (hu : Wrote s [] u) (h : PutStops s s.block.outLen.toNat e) (b : Byte) :
    ∃ v, put b u = .raised e v ∧ Wrote s [] v ∧ v.block = u.block := by
  have hstop := h.after hu
  rw [← Nat.add_zero s.block.outLen.toNat, ← List.length_nil (α := Byte), ← hu.outLen] at hstop
  obtain ⟨v, hput, hv⟩ := Machine.put_stops hstop b
  exact ⟨v, hput, hu.trans hv, block_of_put_raised hput⟩

/-- A bit that emits a byte stops the pass where the put stops, with DEC_NODE at the leaf reached (R204, R208). -/
theorem Streams.decodeBit_put_stops {b : Bool} {rest : List Bool} {start : Nat} (h : Streams base i (b :: rest) c s)
    (hemits : (automaton s.block.node r [b] i c.cur start).1 ≠ []) (hstop : PutStops s s.block.outLen.toNat e) :
    ∃ u, Machine.decodeBit base r i c s = .raised e u ∧ Wrote s [] u ∧
      u.block.decBits = BitVec.ofNat 32 (i + 1) ∧
      u.block.decNode = if (nodeAt s.block.node r).leaf then c.cur else child (nodeAt s.block.node c.cur) b := by
  obtain ⟨d, u, hbit, hcur, hu, hblock⟩ := h.decodeBit (r := r)
  have hunode : u.block.node = s.block.node := by rw [hblock]
  rw [automaton] at hemits
  by_cases hroot : (nodeAt s.block.node r).leaf = true
  · rw [if_pos hroot] at hbit hemits ⊢
    cases b with
    | true => exact absurd rfl hemits
    | false =>
      obtain ⟨v, hput, hv, hvblock⟩ := hu.put_stops hstop (nodeAt u.block.node r).sym
      refine ⟨v, ?_, hv, ?_, ?_⟩
      · rw [hbit, singleLeafBit, if_neg nofun, hput, Res.andThen_raised]
      · rw [hvblock, hblock]
      · rw [hvblock, hblock]
        exact h.decNode
  · rw [if_neg hroot] at hbit hemits ⊢
    simp only at hemits
    by_cases hleaf : (nodeAt s.block.node (child (nodeAt s.block.node c.cur) b)).leaf = true
    · have hw := hu.trans (.setDecNode (child (nodeAt s.block.node c.cur) b) u)
      obtain ⟨v, hput, hv, hvblock⟩ := hw.put_stops hstop
        (nodeAt s.block.node (child (nodeAt s.block.node c.cur) b)).sym
      refine ⟨v, ?_, hv, ?_, ?_⟩
      · rw [hbit, treeBit, hunode, hcur, if_pos hleaf, hput, Res.andThen_raised]
      · rw [hvblock, setDecNode_block, hblock]
      · rw [hvblock, setDecNode_block]
    · rw [if_neg hleaf] at hemits
      exact absurd rfl hemits

end

/-! ### How DECODE ends (R205, R207, R208) -/

/-- DECODE ends with this error, with these bytes written and nothing else, and with the cursor registers so. -/
def EndsDecoding (s : State) (out : List Byte) (bits : Word) (node : NodeIx) (e : Err) : Prop :=
  ∃ t, exec .decode s = .next t ∧
    t.block = { s.block with
      outLen := BitVec.ofNat 32 out.length, decBits := bits, decNode := node, errCode := e.code, errInfo := e.info
      engine := .idle, err := true } ∧
    t.mem.bytes s.block.dstAddr.toNat out.length = out ∧
    MemSameOutside s.mem t.mem s.block.dstAddr.toNat out.length ∧ SameAround s t

section
variable {s t : State} {i : Nat} {d : Cursor} {e : Err}

theorem endsDecoding_of_raised {out : List Byte} (h : decodeRule s = .raised e t)
    (hw : Wrote (setOutLen 0 s) out t) : EndsDecoding s out t.block.decBits t.block.decNode e := by
  have honly : OnlyCursor s t := OnlyCursor.trans (t := setOutLen 0 s) rfl hw.only
  have hblock := honly.raise_block e
  rw [hw.outLen_eq_of_start] at hblock
  exact ⟨raise e t, exec_decode_of_rule h, hblock, hw.bytes_of_start, fun a ha => hw.read_of_start ha,
    hw.emits.around⟩

theorem HasConsumed.cursor (h : HasConsumed s i d t) : (consumed s i).2.cursor s.block.root = d.cur := by
  rw [h.ends]
  split
  · exact Eq.symm ‹_›
  · rfl

/-- The bit after the consumed ones is still in memory. -/
theorem HasConsumed.streams_next (h : HasConsumed s i d t) (hi : i < s.block.totalBits.toNat)
    (hbody : ceilDiv8 s.block.totalBits.toNat ≤ s.block.srcLen.toNat) (hlegal : RegionsLegal s.block)
    (hread : SourceReadable s (i / 8 + 1)) :
    Streams s.block.srcAddr.toNat i [packedBit s.mem s.block.srcAddr.toNat i] d t := by
  have hsrc : i / 8 < s.block.srcLen.toNat := by rw [ceilDiv8] at hbody; omega
  have hindex : ∀ k, k < 1 → i + k = i := fun k hk => by omega
  exact
    { readable := fun k hk => by
        rw [hindex k hk, h.wrote.busOk]
        exact hread _ (Nat.lt_succ_self _)
      holds := fun k hk => by
        obtain rfl : k = 0 := Nat.lt_one_iff.mp hk
        rw [packedBit, Nat.add_zero, h.wrote.read_of_start (source_apart hlegal hsrc h.wrote.length_le_of_start)]
        rfl
      apart := fun k hk => by
        rw [hindex k hk, h.wrote.emits.dstAddr, h.wrote.emits.dstCap]
        exact source_apart hlegal hsrc (Nat.le_refl _)
      kept := h.streams.kept
      decNode := h.streams.decNode
      decBits := h.streams.decBits }

/-- A pass that raises ends DECODE with the bytes that the bits before it emit. -/
theorem HasConsumed.endsDecoding {u : State} (h : HasConsumed s i d t) (hi : i < s.block.totalBits.toNat)
    (hbit : decodeBit s.block.srcAddr.toNat s.block.root i d t = .raised e u) (hu : Wrote t [] u) :
    EndsDecoding s (consumed s i).1 u.block.decBits u.block.decNode e := by
  have hrule : decodeRule s = .raised e u := by
    rw [h.rule, show s.block.totalBits.toNat - i = s.block.totalBits.toNat - (i + 1) + 1 by omega, walkFrom_succ, hbit,
      Res.andThen_raised]
  refine endsDecoding_of_raised hrule ?_
  have hw := h.wrote.trans hu
  rwa [List.append_nil] at hw

/-- Where the byte of the next bit cannot be read, DECODE ends before that bit. -/
theorem HasConsumed.endsDecoding_unreadable (h : HasConsumed s i d t) (hi : i < s.block.totalBits.toNat)
    (hmod : i % 8 = 0) (hok : s.platform.busOk (s.block.srcAddr.toNat + i / 8) .read = false) :
    EndsDecoding s (consumed s i).1 (BitVec.ofNat 32 i) ((consumed s i).2.cursor s.block.root)
      ⟨.busError, BitVec.ofNat 32 (s.block.srcAddr.toNat + i / 8)⟩ := by
  obtain ⟨u, hbit, hu, hblock⟩ := decodeBit_unreadable (r := s.block.root) (c := d) hmod
    ((h.wrote.busOk _ _).trans hok)
  have hend := h.endsDecoding hi hbit hu
  rwa [hblock, h.streams.decBits, h.streams.decNode, ← h.cursor] at hend

/-- Where the next bit emits a byte and its put stops, DECODE ends at the leaf reached. -/
theorem HasConsumed.endsDecoding_put_stops (h : HasConsumed s i d t) (hi : i < s.block.totalBits.toNat)
    (hbody : ceilDiv8 s.block.totalBits.toNat ≤ s.block.srcLen.toNat) (hlegal : RegionsLegal s.block)
    (hread : SourceReadable s (i / 8 + 1))
    (hemits : (consumed s (i + 1)).1.length = (consumed s i).1.length + 1)
    (hstop : PutStops s (consumed s i).1.length e) :
    EndsDecoding s (consumed s i).1 (BitVec.ofNat 32 (i + 1))
      (if (nodeAt s.block.node s.block.root).leaf then s.block.root
        else child (nodeAt s.block.node ((consumed s i).2.cursor s.block.root))
          (packedBit s.mem s.block.srcAddr.toNat i)) e := by
  have hnode : t.block.node = s.block.node := h.wrote.node
  have hstop' : PutStops t t.block.outLen.toNat e := by
    rw [h.wrote.outLen_of_start]
    exact (hstop.setOutLen 0).after h.wrote
  have htake : (streamBits s).take (i + 1) =
      (streamBits s).take i ++ [packedBit s.mem s.block.srcAddr.toNat i] := by
    have hlt : i < (streamBits s).length := hi.trans_eq (length_streamBits s).symm
    rw [List.take_succ_eq_append_getElem hlt]
    simp [streamBits]
  have hbad : ∀ j, (consumed s i).2 ≠ .badBit j := fun j => by
    rw [h.ends]
    split <;> nofun
  obtain ⟨start, happend⟩ := automaton_append hbad [packedBit s.mem s.block.srcAddr.toNat i]
  rw [← htake, ← consumed, ← consumed, h.cursor, List.length_take_of_le (by rw [length_streamBits]; omega),
    Nat.zero_add] at happend
  have hone :
      (automaton t.block.node s.block.root [packedBit s.mem s.block.srcAddr.toNat i] i d.cur start).1 ≠ [] := by
    intro hnil
    rw [happend, ← hnode, hnil, List.append_nil] at hemits
    omega
  obtain ⟨u, hbit, hu, hbits, hcursor⟩ := (h.streams_next hi hbody hlegal hread).decodeBit_put_stops hone hstop'
  have hend := h.endsDecoding hi hbit hu
  rw [hbits, hcursor, hnode, ← h.cursor] at hend
  split at hend
  · rw [if_pos ‹_›]
    rwa [consumed, automaton_cursor_of_leaf ‹_›] at hend
  · rwa [if_neg ‹_›]

end

/-! ### DECODE of a whole stream (R205, R207) -/

section
variable {s t : State} {d : Cursor}

/-- With all bits consumed DECODE succeeds at the root, and is END_MID_CODE inside a code (R205). -/
theorem HasConsumed.decodeRule_eq (h : HasConsumed s s.block.totalBits.toNat d t) : decodeRule s =
    if d.cur = s.block.root then .ok () t else .raised ⟨.endMidCode, BitVec.ofNat 32 d.start⟩ t := by
  rw [h.rule, Nat.sub_self]
  rfl

theorem HasConsumed.decBits_all (h : HasConsumed s s.block.totalBits.toNat d t) :
    t.block.decBits = s.block.totalBits := by
  rw [h.streams.decBits, BitVec.ofNat_toNat, BitVec.setWidth_eq]

theorem HasConsumed.completes (h : HasConsumed s s.block.totalBits.toNat d t)
    (hend : (consumed s s.block.totalBits.toNat).2 = .atRoot) :
    exec .decode s = .next (completeOk t) ∧ (completeOk t).block = { s.block with
      outLen := BitVec.ofNat 32 (consumed s s.block.totalBits.toNat).1.length, decBits := s.block.totalBits
      decNode := s.block.root, engine := .idle, done := true } := by
  have hroot : s.block.root = d.cur := by rw [← h.cursor, hend]; rfl
  have hrule := h.decodeRule_eq
  rw [if_pos hroot.symm] at hrule
  have honly : OnlyCursor s t := OnlyCursor.trans (t := setOutLen 0 s) rfl h.wrote.only
  have hblock := honly.completeOk_block
  rw [h.wrote.outLen_eq_of_start, h.decBits_all, h.streams.decNode, ← hroot] at hblock
  exact ⟨exec_decode_of_rule hrule, hblock⟩

theorem HasConsumed.endsDecoding_midCode {cur : NodeIx} {start : Nat} (h : HasConsumed s s.block.totalBits.toNat d t)
    (hend : (consumed s s.block.totalBits.toNat).2 = .midCode cur start) :
    EndsDecoding s (consumed s s.block.totalBits.toNat).1 s.block.totalBits cur
      ⟨.endMidCode, BitVec.ofNat 32 start⟩ := by
  have hends := h.ends
  rw [hend] at hends
  have hrule := h.decodeRule_eq
  split at hends
  · cases hends
  · obtain ⟨rfl, rfl⟩ := StreamEnd.midCode.inj hends
    rw [if_neg ‹_›] at hrule
    have hend := endsDecoding_of_raised hrule h.wrote
    rwa [h.decBits_all, h.streams.decNode] at hend

end

/-- A 1 bit in a single-leaf tree ends DECODE with the bytes that the bits before it emit (R203). -/
theorem endsDecoding_badBit {s : State} {j : Nat} (hwf : s.mem.wf = true) (hv : s.block.treeValid = true)
    (hbody : ceilDiv8 s.block.totalBits.toNat ≤ s.block.srcLen.toNat) (hlegal : RegionsLegal s.block)
    (hread : SourceReadable s (ceilDiv8 s.block.totalBits.toNat))
    (hcap : (consumed s s.block.totalBits.toNat).1.length ≤ s.block.dstCap.toNat)
    (hok : DestWritable s (consumed s s.block.totalBits.toNat).1.length)
    (hend : (consumed s s.block.totalBits.toNat).2 = .badBit j) :
    EndsDecoding s (consumed s s.block.totalBits.toNat).1 (BitVec.ofNat 32 (j + 1)) s.block.root
      ⟨.badCode, BitVec.ofNat 32 j⟩ := by
  rw [consumed_all] at hcap hok hend ⊢
  obtain ⟨k, hj, hbit, hroot, hout, hbad⟩ := automaton_eq_badBit hend
  obtain rfl : j = k := hj.trans (Nat.zero_add k)
  obtain ⟨hlt, hbit⟩ := List.getElem?_eq_some_iff.mp hbit
  have hj : j < s.block.totalBits.toNat := hlt.trans_eq (length_streamBits s)
  have hbytes : ceilDiv8 j ≤ ceilDiv8 s.block.totalBits.toNat := by rw [ceilDiv8, ceilDiv8]; omega
  rw [← hout] at hcap hok ⊢
  obtain ⟨d, t, h⟩ := exists_hasConsumed hwf hv hbody hlegal hj.le
    ⟨fun k hk => hread k (hk.trans_le hbytes), hbad, hcap, hok⟩
  have hstreams := h.streams_next hj hbody hlegal fun k hk => hread k (by rw [ceilDiv8]; omega)
  rw [show packedBit s.mem s.block.srcAddr.toNat j = true by simpa [streamBits] using hbit] at hstreams
  have hcursor : d.cur = s.block.root := by rw [← h.cursor, consumed, automaton_cursor_of_leaf hroot]
  obtain ⟨u, hraised, hu, hblock⟩ := hstreams.decodeBit_bad (r := s.block.root) (by rwa [h.wrote.node])
  have hend := h.endsDecoding hj hraised hu
  rwa [hblock, h.streams.decNode, hcursor] at hend

/-- Settles O26: DECODE reaches any bit that it can consume the bits before, and ends there or after the last as the
automaton does. -/
theorem decodeFollowsAutomaton : Obligations.DecodeFollowsAutomaton := by
  intro s hwf hv hbody hlegal
  refine ⟨fun hread => ?_, fun i hi hconsumes => ?_⟩
  · rw [← consumed_all]
    intro out hcap hok
    have hall (hbad : ∀ j, out.2 ≠ .badBit j) : ∃ d t, HasConsumed s s.block.totalBits.toNat d t :=
      exists_hasConsumed hwf hv hbody hlegal (Nat.le_refl _) ⟨hread, hbad, hcap, hok⟩
    cases hend : out.2 with
    | atRoot =>
      obtain ⟨d, t, h⟩ := hall (by rw [hend]; nofun)
      obtain ⟨hexec, hblock⟩ := h.completes hend
      exact ⟨_, hexec, hblock, h.wrote.bytes_of_start, fun a ha => h.wrote.read_of_start ha, h.wrote.emits.around⟩
    | midCode cur start =>
      obtain ⟨d, t, h⟩ := hall (by rw [hend]; nofun)
      exact h.endsDecoding_midCode hend
    | badBit j => exact endsDecoding_badBit hwf hv hbody hlegal hread hcap hok hend
  · obtain ⟨d, t, h⟩ := exists_hasConsumed hwf hv hbody hlegal hi.le hconsumes
    exact ⟨fun hmod hok => h.endsDecoding_unreadable hi hmod hok, fun hread hemits =>
      ⟨fun hfull => h.endsDecoding_put_stops hi hbody hlegal hread hemits (.full hfull),
        fun hroom hok => h.endsDecoding_put_stops hi hbody hlegal hread hemits (.fails hroom hok)⟩⟩

end Sys2Proof.Machine
end

section
/-! SUPPORT. The interrupt output: what lowers its level (60_exceptions.md R235). -/

namespace Sys2Proof.Machine

theorem irq_low_of_no_status {b : Block} (hdone : b.done = false) (herr : b.err = false) : irq b = false := by
  simp [irq, hdone, herr]

theorem irq_low_of_masked {b : Block} (hdone : b.doneIe = false) (herr : b.errIe = false) : irq b = false := by
  simp [irq, hdone, herr]

/-- An acknowledge of DONE and ERR leaves neither (R26). -/
theorem irq_writeStatus_acknowledge {v : Word} (hdone : v.getLsbD 1 = true) (herr : v.getLsbD 2 = true) (b : Block) :
    irq (writeStatus v b) = false :=
  irq_low_of_no_status (by simp [writeStatus, hdone]) (by simp [writeStatus, herr])

/-- IRQ_EN = 0 enables neither (R27). -/
theorem irq_writeIrqEn_zero (b : Block) : irq (writeIrqEn 0 b) = false :=
  irq_low_of_masked (by simp [writeIrqEn]) (by simp [writeIrqEn])

/-- A command start clears DONE and ERR (R126). -/
theorem irq_startBlock (w : Word) (b : Block) : irq (startBlock w b) = false :=
  irq_low_of_no_status (startBlock_done w b) (startBlock_err w b)

/-- A CMD write while Idle that the machine accepts is the start of its command (R126). -/
theorem block_of_accepted_cmd {s t : State} {w : Word} (hi : s.block.engine = .idle)
    (h : regAccess ⟨0x008, .write, 32, w⟩ s = .next t) : t.block = startBlock w s.block := by
  replace h := (regAccess_cmd_idle hi w).symm.trans h
  split_ifs at h
  obtain rfl := Host.Outcome.next.inj h
  rw [answer_block, startCommand_block]

/-- Settles O41: an acknowledge and a start leave no status bit, a mask enables none. -/
theorem interruptFollowsStatusAndEnable : Obligations.InterruptFollowsStatusAndEnable := by
  refine ⟨fun _ => rfl, irq_low_of_no_status rfl rfl, fun s v hdone herr => ?_, fun s => ?_, fun s t w hi h => ?_⟩
  · exact ⟨_, regAccess_writes rfl (l := .status) rfl (by simp) v s, by
      rw [answer_block, writeLoc_status]; exact irq_writeStatus_acknowledge hdone herr _⟩
  · refine ⟨_, regAccess_writes rfl (l := .irqEn) rfl (by simp) 0 s, ?_⟩
    rw [answer_block, writeLoc_irqEn]
    exact ⟨irq_writeIrqEn_zero _, rfl, rfl⟩
  · rw [block_of_accepted_cmd hi h]
    exact irq_startBlock w _

end Sys2Proof.Machine
end

section
/-! SUPPORT. Register writes while BUSY: which places drop them and which ignore them (70_reset_and_hazards.md R270). -/

namespace Sys2Proof.Machine

/-! ### Places that drop or ignore a write -/

/-- The places that a write never changes, BUSY or not: the read-only registers, the NODE and CODE windows and reserved
space (R23, R28, R45, R49, R58). -/
def Loc.ignoresWrites (l : Loc) : Bool := !l.busyDrop && decide (l ∉ [.ctrl, .status, .irqEn])

theorem Loc.ignoresWrites_iff {l : Loc} :
    l.ignoresWrites = true ↔ l.busyDrop = false ∧ l ∉ [.ctrl, .status, .irqEn, .cmd] := by
  cases l <;> simp [Loc.ignoresWrites, Loc.busyDrop]

/-- Every operand a write can change is a busy-drop place. -/
theorem writeOperand_of_not_busyDrop {l : Loc} (h : l.busyDrop = false) (v : Word) (b : Block) :
    writeOperand l v b = b := by
  cases l with
  | cmd | srcAddr | srcLen | dstAddr | dstCap | totalBits | freq => cases h
  | _ => rfl

/-- A write to CMD, an operand or FREQ while BUSY is answered, sets OVR and does nothing else (R270). -/
theorem regAccess_write_dropped {s : State} {o : Offset} (ho : o.toNat % 4 = 0) (hb : busy s.block = true)
    (hdrop : (locate o).busyDrop = true) (v : Word) : regAccess ⟨o, .write, 32, v⟩ s =
      .next (answer .done { s with block := { s.block with ovr := true } }) := by
  by_cases hc : locate o = .cmd
  · obtain rfl := locate_eq_cmd hc
    exact regAccess_cmd_busy hb v
  · rw [regAccess_write ho hc, writeLoc_dropped hb hdrop]

/-- A write that a place ignores is answered and does nothing else, BUSY or not (R270). -/
theorem regAccess_write_ignored {o : Offset} (ho : o.toNat % 4 = 0) (h : (locate o).ignoresWrites = true) (v : Word)
    (s : State) : regAccess ⟨o, .write, 32, v⟩ s = .next (answer .done s) := by
  obtain ⟨hdrop, hspecial⟩ := Loc.ignoresWrites_iff.mp h
  rw [regAccess_writes_operand ho rfl hspecial (by rw [hdrop, Bool.and_false]), writeOperand_of_not_busyDrop hdrop]

/-! ### Their offsets (R22) -/

/-- CMD, the operand registers and the FREQ window. -/
theorem locate_busyDrop {o : Offset}
    (h : o ∈ [0x008#15, 0x020#15, 0x024#15, 0x028#15, 0x02C#15, 0x030#15] ∨ (0x400 ≤ o.toNat ∧ o.toNat < 0x800)) :
    (locate o).busyDrop = true := by
  have low : ([0x008#15, 0x020#15, 0x024#15, 0x028#15, 0x02C#15, 0x030#15].all fun o => (locate o).busyDrop) = true := by
    decide
  rcases h with h | ⟨h₁, h₂⟩
  · exact List.all_eq_true.mp low o h
  · rw [locate_freq h₁ h₂]; rfl

/-- From OUT_LEN on no register below the FREQ window can be written. -/
theorem locateLow_ignoresWrites {n : Nat} (h : 0x034 ≤ n) : (locateLow n).ignoresWrites = true := by
  have registers : ∀ n < 0x058, 0x034 ≤ n → (locateLow n).ignoresWrites = true := by decide
  rcases Nat.lt_or_ge n 0x058 with hn | hn
  · exact registers n hn h
  · rw [locateLow_above hn]; rfl

/-- The read-only registers, the reserved offsets and the NODE and CODE windows. -/
theorem locate_ignoresWrites {o : Offset}
    (h : o ∈ [0x000#15, 0x014#15, 0x018#15, 0x01C#15] ∨ (0x034 ≤ o.toNat ∧ o.toNat < 0x400) ∨ 0x800 ≤ o.toNat) :
    (locate o).ignoresWrites = true := by
  have low : ([0x000#15, 0x014#15, 0x018#15, 0x01C#15].all fun o => (locate o).ignoresWrites) = true := by decide
  rcases h with h | ⟨h₁, h₂⟩ | h
  · exact List.all_eq_true.mp low o h
  · rw [locate_low h₂]; exact locateLow_ignoresWrites h₁
  · rcases Nat.lt_or_ge o.toNat 0x2000 with hhole | hnode
    · rw [locate_hole h hhole]; rfl
    · rcases Nat.lt_or_ge o.toNat 0x4000 with hnode' | hcode
      · rw [locate_node hnode hnode']; rfl
      · rw [locate_code hcode]; rfl

/-- Settles O38: each offset's place drops, takes or ignores the write. -/
theorem busyWritesAreDroppedWithOvr : Obligations.BusyWritesAreDroppedWithOvr := by
  intro s o v ho
  refine ⟨fun hb h => ?_, fun _ h => ?_, fun h => ?_, fun _ h => ?_, fun h => ?_⟩
  · exact regAccess_write_dropped ho hb (locate_busyDrop h) v
  · subst h
    exact (statusBitsAndWriteOneToClear s v).2
  · subst h
    rw [regAccess_writes ho (l := .irqEn) rfl (by simp), writeLoc_irqEn]; rfl
  · subst h
    refine ⟨_, regAccess_writes ho (l := .ctrl) rfl (by simp) v s, ?_⟩
    rw [answer_block, writeLoc_ctrl, apply_ite State.block, resetBlock_block]
  · exact regAccess_write_ignored ho (locate_ignoresWrites h) v s

end Sys2Proof.Machine
end

section
/-! SUPPORT. What a reset that aborts a command leaves in memory (70_reset_and_hazards.md R262). -/

namespace Sys2Proof.Machine

/-- A reset changes memory only where it aborts ENCODE or DECODE, and then draws the destination bytes. -/
theorem resetBlock_mem_cases (s : State) :
    (resetBlock s).mem = s.mem ∨
    ∃ w, s.block.engine = .busy w ∧ writesMemory w = true ∧
      (resetBlock s).mem = s.mem.drawRange s.block.dstAddr.toNat (abortMayChange s.block) (Config.freeByte s.draws)
        s.block.dstCap.toNat := by
  simp only [resetBlock, abortRunning]
  split
  case h_1 => exact .inl rfl
  case h_2 w hw =>
    split_ifs with hwrites
    · exact .inr ⟨w, hw, hwrites, rfl⟩
    · exact .inl rfl

/-- A byte that is a source byte, or no destination byte, outlives an abort. -/
theorem resetBlock_read_spared {s : State} {a : Nat} (h : (srcRegion s.block).has a = true ∨
    ¬(s.block.dstAddr.toNat ≤ a ∧ a < s.block.dstAddr.toNat + s.block.dstCap.toNat)) :
    (resetBlock s).mem.read a = s.mem.read a := by
  rcases resetBlock_mem_cases s with hm | ⟨w, -, -, hm⟩
  · rw [hm]
  · rw [hm]
    refine Memory.read_drawRange_other _ _ fun ⟨hlow, hhigh, hmay⟩ => ?_
    rcases h with hsrc | hout
    · simp [abortMayChange, hsrc] at hmay
    · exact hout ⟨hlow, hhigh⟩

/-- A reset that aborts neither ENCODE nor DECODE leaves memory alone. -/
theorem resetBlock_mem_of_not_writing {s : State} (hencode : s.block.engine ≠ .busy 0x00000005#32)
    (hdecode : s.block.engine ≠ .busy 0x00000006#32) : (resetBlock s).mem = s.mem := by
  rcases resetBlock_mem_cases s with hm | ⟨w, hw, hwrites, -⟩
  · exact hm
  · rcases writesMemory_iff.mp hwrites with rfl | rfl
    · exact absurd hw hencode
    · exact absurd hw hdecode

/-- A hard reset, and a soft one, does what `resetBlock` does, the answer to the host aside. -/
theorem runEvent_reset {e : Event}
    (h : e = .hardReset ∨ ∃ v : Word, v.getLsbD 0 = true ∧ e = .reg ⟨0x004#15, .write, 32, v⟩) (s : State) :
    ∃ t, runEvent e s = .next t ∧ t.bus = (resetBlock s).bus ∧ t.block = (resetBlock s).block ∧
      t.mem = (resetBlock s).mem := by
  rcases h with rfl | ⟨v, hv, rfl⟩
  · exact ⟨_, rfl, rfl, rfl, rfl⟩
  · refine ⟨answer .done (resetBlock s), ?_, rfl, rfl, rfl⟩
    rw [runEvent, regAccess_writes rfl (l := .ctrl) rfl (by simp), writeLoc_ctrl, if_pos hv]

/-- Settles O50: both resets leave what `resetBlock` leaves. -/
theorem abortSparesOtherMemory : Obligations.AbortSparesOtherMemory := by
  intro s e he
  obtain ⟨t, ht, hbus, hblock, hmem⟩ := runEvent_reset he s
  refine ⟨t, ht, hbus.trans (resetBlock_bus s), hblock.trans (resetBlock_block s), fun a ha => ?_, fun a ha => ?_,
    fun hencode hdecode => ?_⟩
  · rw [hmem]; exact resetBlock_read_spared (.inl ha)
  · rw [hmem]; exact resetBlock_read_spared (.inr ha)
  · rw [hmem]; exact resetBlock_mem_of_not_writing hencode hdecode

end Sys2Proof.Machine
end

section
/-! SUPPORT. The host's own accesses to system memory (20_memory.md R78, R87, R91; 70_reset_and_hazards.md R273). -/

namespace Sys2Proof.Machine

theorem hostMayNot_write (a : Nat) (b : Block) :
    hostMayNot .write a b = (busy b && ((srcRegion b).has a || (dstRegion b).has a)) := by
  simp [hostMayNot]

theorem hostMayNot_read (a : Nat) (b : Block) : hostMayNot .read a b = (busy b && (dstRegion b).has a) := by
  simp [hostMayNot]

theorem hostMemWrite_refused {a : Nat} {s : State} (h : hostMayNot .write a s.block = true) (v : Byte) :
    hostMemWrite a v s = .refused .hostTouchesRegionWhileBusy := if_pos h

theorem hostMemRead_refused {a : Nat} {s : State} (h : hostMayNot .read a s.block = true) :
    hostMemRead a s = .refused .hostTouchesRegionWhileBusy := if_pos h

/-- A write that goes on changes one byte of memory; without coherence it is also noted in the host's caches (log 10). -/
theorem hostMemWrite_lands {a : Nat} {s : State} (h : hostMayNot .write a s.block = false) (v : Byte) :
    ∃ t, hostMemWrite a v s = .next t ∧ t.mem = s.mem.write a v ∧ t.block = s.block ∧ t.bus = s.bus ∧
      t.platform = s.platform ∧ t.replies = .done :: s.replies := by
  unfold hostMemWrite
  rw [if_neg (by simp [h])]
  refine ⟨_, rfl, ?_⟩
  cases s.platform.dmaCoherent <;> exact ⟨rfl, rfl, rfl, rfl, rfl⟩

/-- A read answers the byte where the host holds no stale copy of it (R91). -/
theorem hostMemRead_answers {a : Nat} {s : State} (h : hostMayNot .read a s.block = false)
    (hfresh : s.platform.dmaCoherent = true ∨ ∀ r ∈ s.hostStale, r.has a = false) :
    hostMemRead a s = .next (answer (.memData (s.mem.read a)) s) := by
  unfold hostMemRead
  rw [if_neg (by simp [h]), if_neg]
  rcases hfresh with hcoherent | hnone
  · simp [hcoherent]
  · simpa using fun _ => hnone

/-- Without coherence a read through a stale copy is refused (R91; log 10). -/
theorem hostMemRead_stale {a : Nat} {s : State} (h : hostMayNot .read a s.block = false)
    (hcoherent : s.platform.dmaCoherent = false) (hstale : ∃ r ∈ s.hostStale, r.has a = true) :
    hostMemRead a s = .refused .staleCopyRead := by
  unfold hostMemRead
  rw [if_neg (by simp [h]), if_pos]
  rw [hcoherent, Bool.not_false, Bool.true_and]
  exact List.any_eq_true.mpr hstale

/-- Settles O56: the host's accesses by what they touch, whether the block is BUSY, and whether a copy is stale. -/
theorem hostMemoryAccesses : Obligations.HostMemoryAccesses := by
  intro s a v inSource inDestination
  have read_allowed (h : busy s.block = false ∨ inDestination = false) : hostMayNot .read a.toNat s.block = false := by
    rw [hostMayNot_read]; exact Bool.and_eq_false_iff.mpr h
  refine ⟨fun hb h => ?_, fun hb h => ?_, fun h => ?_, fun h hfresh => ?_, fun h hcoherent hstale => ?_⟩
  · exact hostMemWrite_refused (by rw [hostMayNot_write, hb]; exact Bool.or_eq_true_iff.mpr h) v
  · exact hostMemRead_refused (by rw [hostMayNot_read, hb]; exact h)
  · have hmay : hostMayNot .write a.toNat s.block = false := by
      rw [hostMayNot_write]; exact Bool.and_eq_false_iff.mpr (h.imp_right Bool.or_eq_false_iff.mpr)
    obtain ⟨t, ht, hmem, hrest⟩ := hostMemWrite_lands hmay v
    refine ⟨t, ht, fun hwf => ?_, fun x hx => ?_, hrest⟩
    · rw [hmem]; exact Memory.read_write_same hwf _ _
    · rw [hmem]; exact Memory.read_write_other _ _ (by omega)
  · exact hostMemRead_answers (read_allowed h) hfresh
  · exact hostMemRead_stale (read_allowed h) hcoherent hstale

end Sys2Proof.Machine
end
